-- ==== Sys2Proof/Word.lean ====
section
/-! DEFINITION. The words of the block: every register and value is an unsigned integer of a stated
width (spec 00_scope.md R8). -/

namespace Sys2Proof

/-- A command word, a node word, or a host register (R6 `CMDW`, R30). -/
abbrev Word := BitVec 32

/-- A byte of either stream (R6 `BYTE`). -/
abbrev Byte := BitVec 8

/-- A symbol field (R6 `SYMW`): 0 to 255 a byte, 256 the end-of-stream marker, 257 to 511 no symbol. -/
abbrev Sym := BitVec 9

/-- An index of a node word in TMEM (R6 `IDXW`). -/
abbrev NodeIdx := BitVec 10

/-- A byte offset of the register interface (R60). -/
abbrev Offset := BitVec 13

/-- A bit sequence (path, code), first bit first (R9). -/
abbrev Bits := List Bool

end Sys2Proof
end

