-- ==== Sys2Proof/Config.lean ====
section
/-! DEFINITION. The parameters of the block and the value each takes (spec 00_scope.md R6).
The spec leaves no VALUE open: its one open parameter, the `ioerror oracle` (92_eei_decisions.md D24),
is an input of the environment and stands in `State.portScript` as plain data. -/

namespace Sys2Proof.Config

/-- `NNODE`: node words in TMEM. -/
abbrev nNode : Nat := 1024

/-- `NSYM`: symbols of the alphabet. -/
abbrev nSym : Nat := 257

/-- `EOS`: the number of the end-of-stream marker. -/
abbrev eos : Sym := 256

/-- `NMAX`: the largest bit count of RDBITS and WRBITS. -/
abbrev nMax : Nat := 16

/-- `MAXLEN`: the longest code of a valid tree (R7, derived). -/
abbrev maxLen : Nat := 256

/-- `HDRVER`: the version that opens a tree header. -/
abbrev hdrVer : Byte := 1

end Sys2Proof.Config
end

