-- ==== Sys2Proof/Syntax.lean ====
section
/-! DEFINITION. The fifteen commands, one constructor per row of spec/opcode_table.json
(spec 30_encoding.md R94), with the operands of R93. -/

namespace Sys2Proof

/-- A command of the block (R3, R94). -/
inductive Instr where
  /-- NOP (R250). -/
  | nop
  /-- RDBIT (R230). -/
  | rdbit
  /-- RDBITS n (R231). -/
  | rdbits (n : BitVec 5)
  /-- WRBIT b (R232). -/
  | wrbit (b : Bool)
  /-- WRBITS v, n (R233). -/
  | wrbits (v : BitVec 16) (n : BitVec 5)
  /-- FLUSH (R234). -/
  | flush
  /-- RDALIGN (R235). -/
  | rdalign
  /-- TSER (R130). -/
  | tser
  /-- TDES (R131). -/
  | tdes
  /-- BLDTAB (R152). -/
  | bldtab
  /-- ENCSYM s (R192). -/
  | encsym (s : Sym)
  /-- COMPRESS (R196). -/
  | compress
  /-- DEC1 (R172). -/
  | dec1
  /-- DECOMPRESS (R199). -/
  | decompress
  /-- RST (R251). -/
  | rst
deriving DecidableEq, Repr

end Sys2Proof
end

