-- ==== Sys2Proof/WellFormed.lean ====
section
/-! DEFINITION. Which terms of `Instr` are commands: the constraints of the opcode map
(spec 30_encoding.md R94, R96, R97). -/

namespace Sys2Proof

/-- The count of RDBITS and WRBITS is at most `NMAX` (R94, R96). -/
def countOk (n : BitVec 5) : Bool := decide (n.toNat ≤ Config.nMax)

/-- The symbol of ENCSYM is one of the alphabet (R97). -/
def symOk (s : Sym) : Bool := decide (s ≤ Config.eos)

/-- The constraints of R94 on a command's operands. -/
def wellFormed : Instr → Bool
  | .nop => true
  | .rdbit => true
  | .rdbits n => countOk n
  | .wrbit _ => true
  | .wrbits _ n => countOk n
  | .flush => true
  | .rdalign => true
  | .tser => true
  | .tdes => true
  | .bldtab => true
  | .encsym s => symOk s
  | .compress => true
  | .dec1 => true
  | .decompress => true
  | .rst => true

end Sys2Proof
end

