-- ==== Sys2Proof/Decode.lean ====
section
/-! DEFINITION. The command word: its fields (spec 30_encoding.md R91), the decoder (R92 to R97), and
after it the encoder and the opcode map as rows of mask and match (R94). -/

namespace Sys2Proof

/-- The fields of a command word (R91). -/
structure Fields where
  /-- OPC, bits 31:24. -/
  opc : BitVec 8
  /-- Bits 23:21, which must be 0. -/
  mbz : BitVec 3
  /-- N, bits 20:16. -/
  n : BitVec 5
  /-- ARG, bits 15:0. -/
  arg : BitVec 16
deriving DecidableEq, Repr

/-- Why a word is illegal (R96, R97). Every reason raises the same `IllegalCommand`. -/
inductive Illegal where
  /-- OPC is not one of the fifteen (R96). -/
  | reservedOpcode
  /-- A must-be-zero bit of the format is 1 (R96). -/
  | mustBeZero
  /-- N is above 16 in formats N and V (R96). -/
  | countTooLarge
  /-- ENCSYM of 257 to 511 (R97). -/
  | notASymbol
deriving DecidableEq, Repr

/-- What a word decodes to: a command, or illegal for a named reason (R95: decoding is total). -/
inductive Decoded where
  /-- The word is this command. -/
  | command (i : Instr)
  /-- The word is illegal. -/
  | illegal (why : Illegal)
deriving DecidableEq, Repr

/-- The fields of a word (R91). -/
def fieldsOf (w : Word) : Fields :=
  { opc := w.extractLsb' 24 8, mbz := w.extractLsb' 21 3, n := w.extractLsb' 16 5, arg := w.extractLsb' 0 16 }

/-- The word with these fields (R91). -/
def packFields (f : Fields) : Word := f.opc ++ f.mbz ++ f.n ++ f.arg

/-- Format Z: no operand, every bit below OPC is 0 (R92). -/
def formatZ (f : Fields) (i : Instr) : Decoded :=
  if f.mbz = 0 ∧ f.n = 0 ∧ f.arg = 0 then .command i else .illegal .mustBeZero

/-- Format B: one bit in ARG[0] (R92). -/
def formatB (f : Fields) (i : Bool → Instr) : Decoded :=
  if f.mbz = 0 ∧ f.n = 0 ∧ f.arg.extractLsb' 1 15 = 0 then .command (i (f.arg.getLsbD 0))
  else .illegal .mustBeZero

/-- Format N: a count of at most 16 in N (R92). -/
def formatN (f : Fields) (i : BitVec 5 → Instr) : Decoded :=
  if ¬(f.mbz = 0 ∧ f.arg = 0) then .illegal .mustBeZero
  else if countOk f.n then .command (i f.n) else .illegal .countTooLarge

/-- Format V: a count of at most 16 in N and any value in ARG (R92). -/
def formatV (f : Fields) (i : BitVec 16 → BitVec 5 → Instr) : Decoded :=
  if ¬f.mbz = 0 then .illegal .mustBeZero
  else if countOk f.n then .command (i f.arg f.n) else .illegal .countTooLarge

/-- Format S: a symbol of at most 256 in ARG[8:0] (R92, R97). -/
def formatS (f : Fields) (i : Sym → Instr) : Decoded :=
  if ¬(f.mbz = 0 ∧ f.n = 0 ∧ f.arg.extractLsb' 9 7 = 0) then .illegal .mustBeZero
  else if symOk (f.arg.extractLsb' 0 9) then .command (i (f.arg.extractLsb' 0 9)) else .illegal .notASymbol

/-- The formats are told apart by OPC alone (R92, R94). -/
def decodeFields (f : Fields) : Decoded :=
  if f.opc = 0x00 then formatZ f .nop
  else if f.opc = 0x01 then formatZ f .rdbit
  else if f.opc = 0x02 then formatN f .rdbits
  else if f.opc = 0x03 then formatB f .wrbit
  else if f.opc = 0x04 then formatV f .wrbits
  else if f.opc = 0x05 then formatZ f .flush
  else if f.opc = 0x06 then formatZ f .rdalign
  else if f.opc = 0x10 then formatZ f .tser
  else if f.opc = 0x11 then formatZ f .tdes
  else if f.opc = 0x20 then formatZ f .bldtab
  else if f.opc = 0x21 then formatS f .encsym
  else if f.opc = 0x22 then formatZ f .compress
  else if f.opc = 0x30 then formatZ f .dec1
  else if f.opc = 0x31 then formatZ f .decompress
  else if f.opc = 0xFF then formatZ f .rst
  else .illegal .reservedOpcode

/-- The decoder: total on 32-bit words (R95). -/
def decode (w : Word) : Decoded := decodeFields (fieldsOf w)

/-- `decode` on the opcode table's numbering: the one word of a command is its bits as they stand
(R90: every command is one 32-bit word, which has no byte order, R61); bits above `nbits` are 0. -/
def decodeTableWord (nbits w : Nat) : Option Instr :=
  match decode (BitVec.ofNat 32 (w % 2 ^ nbits)) with
  | .command i => some i
  | .illegal _ => none

/-- OPC of each command (R94). -/
def opcode : Instr → BitVec 8
  | .nop => 0x00
  | .rdbit => 0x01
  | .rdbits _ => 0x02
  | .wrbit _ => 0x03
  | .wrbits _ _ => 0x04
  | .flush => 0x05
  | .rdalign => 0x06
  | .tser => 0x10
  | .tdes => 0x11
  | .bldtab => 0x20
  | .encsym _ => 0x21
  | .compress => 0x22
  | .dec1 => 0x30
  | .decompress => 0x31
  | .rst => 0xFF

/-- N of each command (R92). -/
def countField : Instr → BitVec 5
  | .rdbits n => n
  | .wrbits _ n => n
  | .nop | .rdbit | .wrbit _ | .flush | .rdalign | .tser | .tdes | .bldtab | .encsym _ | .compress | .dec1
  | .decompress | .rst => 0

/-- ARG of each command (R92). -/
def argField : Instr → BitVec 16
  | .wrbit b => 0#15 ++ BitVec.ofBool b
  | .wrbits v _ => v
  | .encsym s => 0#7 ++ s
  | .nop | .rdbit | .rdbits _ | .flush | .rdalign | .tser | .tdes | .bldtab | .compress | .dec1
  | .decompress | .rst => 0

/-- The fields of a command's word (R92, R94). -/
def encodeFields (i : Instr) : Fields := { opc := opcode i, mbz := 0, n := countField i, arg := argField i }

/-- The word of a command (R94). -/
def encode (i : Instr) : Word := packFields (encodeFields i)

/-- The constraint of a row of the opcode map (R94). -/
inductive Constraint where
  /-- No constraint. -/
  | none
  /-- n is at most 16. -/
  | count
  /-- s is at most 256. -/
  | symbol
deriving DecidableEq, Repr

/-- A row of the opcode map (R94). -/
structure Row where
  /-- The command's name in spec/opcode_table.json. -/
  mnemonic : String
  /-- The bits that tell the command. -/
  mask : Word
  /-- Their values. -/
  pattern : Word
  /-- The constraint on the operand. -/
  constraint : Constraint
deriving DecidableEq, Repr

/-- The opcode map (R94, spec/opcode_table.json). -/
def opcodeMap : List Row :=
  [ ⟨"NOP", 0xFFFFFFFF, 0x00000000, .none⟩,
    ⟨"RDBIT", 0xFFFFFFFF, 0x01000000, .none⟩,
    ⟨"RDBITS", 0xFFE0FFFF, 0x02000000, .count⟩,
    ⟨"WRBIT", 0xFFFFFFFE, 0x03000000, .none⟩,
    ⟨"WRBITS", 0xFFE00000, 0x04000000, .count⟩,
    ⟨"FLUSH", 0xFFFFFFFF, 0x05000000, .none⟩,
    ⟨"RDALIGN", 0xFFFFFFFF, 0x06000000, .none⟩,
    ⟨"TSER", 0xFFFFFFFF, 0x10000000, .none⟩ ] ++
  [ ⟨"TDES", 0xFFFFFFFF, 0x11000000, .none⟩,
    ⟨"BLDTAB", 0xFFFFFFFF, 0x20000000, .none⟩,
    ⟨"ENCSYM", 0xFFFFFE00, 0x21000000, .symbol⟩,
    ⟨"COMPRESS", 0xFFFFFFFF, 0x22000000, .none⟩,
    ⟨"DEC1", 0xFFFFFFFF, 0x30000000, .none⟩,
    ⟨"DECOMPRESS", 0xFFFFFFFF, 0x31000000, .none⟩,
    ⟨"RST", 0xFFFFFFFF, 0xFF000000, .none⟩ ]

/-- Whether a word meets a row's constraint, on the operand fields of R93. -/
def Constraint.holds (c : Constraint) (w : Word) : Bool :=
  match c with
  | .none => true
  | .count => decide ((w.extractLsb' 16 5).toNat ≤ 16)
  | .symbol => decide ((w.extractLsb' 0 9).toNat ≤ 256)

/-- Whether a word is selected by a row: mask, match and constraint (R94, R95). -/
def Row.selects (r : Row) (w : Word) : Bool := decide (w &&& r.mask = r.pattern) && r.constraint.holds w

/-- The mnemonic of a command, as the opcode map spells it (R94). -/
def mnemonicOf : Instr → String
  | .nop => "NOP"
  | .rdbit => "RDBIT"
  | .rdbits _ => "RDBITS"
  | .wrbit _ => "WRBIT"
  | .wrbits _ _ => "WRBITS"
  | .flush => "FLUSH"
  | .rdalign => "RDALIGN"
  | .tser => "TSER"
  | .tdes => "TDES"
  | .bldtab => "BLDTAB"
  | .encsym _ => "ENCSYM"
  | .compress => "COMPRESS"
  | .dec1 => "DEC1"
  | .decompress => "DECOMPRESS"
  | .rst => "RST"

end Sys2Proof
end

