-- ==== Sys2Proof/Machine/State.lean ====
section
/-! DEFINITION. The state of the machine: the block (spec 10_state.md), the environment behind the two
stream ports (20_memory.md R72 to R76) and the host's list of actions (10_state.md R21); the reasons a
step can stop; the state after reset (10_state.md R40). -/

namespace Sys2Proof.Machine

/-- An error kind of the block (60_exceptions.md R270). Raising one is NOT a stop of the model: it is
fault entry, a next state with ERR written (R280). -/
inductive ErrKind where
  /-- Code 1 (R271). -/
  | corruptHeader
  /-- Code 2 (R272). -/
  | invalidTree
  /-- Code 3 (R273). -/
  | truncatedStream
  /-- Code 4 (R274). -/
  | bitsExhausted
  /-- Code 5 (R275). -/
  | ioError
  /-- Code 6 (R276). -/
  | noCode
  /-- Code 7 (R277). -/
  | illegalCommand
  /-- Code 8 (R278). -/
  | sequenceError
deriving DecidableEq, Repr

/-- What can happen between commands, and a command's issue among it: the host's two accesses (R252,
R253), the environment's liberties (R74, R76) and the hardware reset (R310). One step performs one. -/
inductive Action where
  /-- `MemWrite(offset, 4, data)` (R253); at offset 0 it issues the command word `data` (R90). -/
  | write (offset : Offset) (data : Word)
  /-- `MemRead(offset, 4)` (R252). -/
  | read (offset : Offset)
  /-- The environment appends bytes to SIN (R74). -/
  | feed (bytes : List Byte)
  /-- The environment settles its answers to further port accesses, `true` for `ioerror` (R76). -/
  | ports (answers : List Bool)
  /-- A hardware reset (R310). -/
  | reset
deriving DecidableEq, Repr

/-- TMEM (R30): (node index, word) pairs, indices strictly rising, no word 0; an unlisted word reads
`0x00000000`, its reset value (R40). -/
abbrev Memory := List (Nat × Word)

/-- ETAB (R33): (symbol, path) pairs, symbols strictly rising; a listed symbol has VALID = 1 and this
path, an unlisted one VALID = 0, LEN = 0, CODE = 0. -/
abbrev ETab := List (Nat × Bits)

/-- The whole machine, as plain data. -/
structure State where
  /-- ERR (R23). -/
  err : BitVec 8
  /-- TVALID (R24). -/
  tvalid : Bool
  /-- TBLV (R25). -/
  tblv : Bool
  /-- EOSSEEN (R26). -/
  eosseen : Bool
  /-- TRUNC (R27). -/
  trunc : Bool
  /-- RESULT (R29). -/
  result : Word
  /-- ROOT (R32). -/
  root : NodeIdx
  /-- ETIDX (R34). -/
  etidx : BitVec 9
  /-- TMEM (R30, R31). -/
  tmem : Memory
  /-- ETAB (R33). -/
  etab : ETab
  /-- WACC, the writer's partial byte (R35). -/
  wacc : Byte
  /-- WCNT (R35). -/
  wcnt : BitVec 3
  /-- RBUF, the reader's current byte (R36). -/
  rbuf : Byte
  /-- RCNT at command boundaries, 0 to 7 (R36). -/
  rcnt : BitVec 3
  /-- SIN's bytes (R38, R72). Environment. -/
  sinData : List Byte
  /-- SIN's cursor (R38, R72). Environment. -/
  sinPos : Nat
  /-- SOUT (R38, R75). Environment. -/
  sout : List Byte
  /-- The environment's answers to the coming port accesses, the next first, `true` for `ioerror`; an
  access past the end of the list does not fail. The `ioerror oracle` of R76 as plain data: no
  statement rests on its value. Environment; log entry 3. -/
  portScript : List Bool
  /-- The host's coming actions, the next first (R21, D29). Host; log entry 4. -/
  actions : List Action
  /-- The values the host's reads have returned, oldest first (R252). Host; log entry 4. -/
  readLog : List Word
deriving DecidableEq, Repr

/-- The stops of the model that stand for no next state of the block. -/
inductive Fault where
  /-- The recursion `tree(i)` of 40_tree.md R121 does not end: "a model must not evaluate it otherwise
  (the recursion need not end)". Raised by TSER, BLDTAB and COMPRESS in a state with TVALID = 1 whose
  words reached from ROOT form no finite tree; no run reaches one (R24). Safe. Log entry 7. -/
  | stuckTreeWalk
deriving DecidableEq, Repr

/-- The actions to which the model gives no meaning. -/
inductive Refusal where
  /-- An instruction without a meaning, by its mnemonic. Raised by no arm of `exec`. Safe. -/
  | notModelled (mnemonic : String)
  /-- A host access at an offset that is no multiple of 4, which the interface cannot express
  (20_memory.md R61: "refuses any other"). Raised by `step` on such an action. Safe. Log entry 8. -/
  | misalignedAccess
deriving DecidableEq, Repr

/-- The machine right after reset (R40, R310). The environment and the host, which reset leaves
unchanged, start empty (log entries 3, 4, 5). -/
def State.reset : State where
  err := 0
  tvalid := false
  tblv := false
  eosseen := false
  trunc := false
  result := 0x00000000
  root := 0
  etidx := 0
  tmem := []
  etab := []
  wacc := 0
  wcnt := 0
  rbuf := 0
  rcnt := 0
  sinData := []
  sinPos := 0
  sout := []
  portScript := []
  actions := []
  readLog := []

end Sys2Proof.Machine
end

