-- ==== Sys2Proof/Machine/Operands.lean ====
section
/-! DEFINITION. Operand forms: bit sequences of values (spec 00_scope.md R9, 20_memory.md R66, R67),
bits placed into and taken out of a byte (45_system.md R255), and the fields of a node word
(10_state.md R31). -/

namespace Sys2Proof.Machine

/-- `bitsN(v)` with N = n: the low n bits of v, most significant first (R9, R67). -/
def bitsOf {w : Nat} : Nat → BitVec w → Bits
  | 0, _ => []
  | n + 1, v => v.getLsbD n :: bitsOf n v

/-- The n-bit value whose first bits are `p`, the first the most significant; bits that `p` lacks are
zeros at the low end, bits past n are dropped (R67, and the left alignment of CODE, R33). -/
def valueOf : (n : Nat) → Bits → BitVec n
  | 0, _ => 0#0
  | n + 1, [] => 0#(n + 1)
  | n + 1, b :: p => BitVec.cons b (valueOf n p)

/-- `v <- (v << 1) | b` (44_bitstream.md R221). -/
def shiftInBit (v : Word) (b : Bool) : Word := (v <<< 1) ||| (BitVec.ofBool b).setWidth 32

/-- `x[i] <- b` (44_bitstream.md R222). -/
def placeBit (x : Byte) (i : Nat) (b : Bool) : Byte :=
  (x &&& ~~~(1#8 <<< i)) ||| ((BitVec.ofBool b).setWidth 8 <<< i)

/-- V, bit 31 of a node word (R31). -/
def nodeV (w : Word) : Bool := w.getLsbD 31

/-- LEAF, bit 30 of a node word (R31). -/
def nodeLeaf (w : Word) : Bool := w.getLsbD 30

/-- Bits 29:20 of a node word, 0 in a valid tree (R31). -/
def nodeReserved (w : Word) : BitVec 10 := w.extractLsb' 20 10

/-- Bits 19:9 of a node word, 0 in a Leaf of a valid tree (R31). -/
def nodeLeafReserved (w : Word) : BitVec 11 := w.extractLsb' 9 11

/-- LEFT, bits 19:10 of an Internal word (R31). -/
def nodeLeft (w : Word) : NodeIdx := w.extractLsb' 10 10

/-- RIGHT, bits 9:0 of an Internal word (R31). -/
def nodeRight (w : Word) : NodeIdx := w.extractLsb' 0 10

/-- SYM, bits 8:0 of a Leaf word (R31). -/
def nodeSym (w : Word) : Sym := w.extractLsb' 0 9

/-- `LEAFW(s)` (R31). -/
def leafWord (s : Sym) : Word := 0xC0000000#32 ||| s.setWidth 32

/-- `NODEW(l, r)` (R31). -/
def nodeWord (l r : NodeIdx) : Word := 0x80000000#32 ||| (l.setWidth 32 <<< 10) ||| r.setWidth 32

end Sys2Proof.Machine
end

