-- ==== Sys2Proof/Machine/Ops.lean ====
section
/-! DEFINITION. The named operations: TMEM and ETAB, the two ports (spec 20_memory.md R73, R75), how a
command's pseudocode runs and raises (00_scope.md R11), fault entry and soft reset (60_exceptions.md
R280, 45_system.md R251), and the bit-stream unit's procedures (44_bitstream.md R220 to R224). -/

namespace Sys2Proof.Machine

/-! ### Cells: lists of (key, value) pairs with keys strictly rising -/

/-- The value listed at a key. -/
def cellFind {α : Type} : List (Nat × α) → Nat → Option α
  | [], _ => none
  | (a, x) :: m, k => if a = k then some x else cellFind m k

/-- List a value at a key, in its place. -/
def cellPut {α : Type} : List (Nat × α) → Nat → α → List (Nat × α)
  | [], k, x => [(k, x)]
  | (a, y) :: m, k, x =>
    if k < a then (k, x) :: (a, y) :: m else if k = a then (k, x) :: m else (a, y) :: cellPut m k x

/-- Take a key out of the list. -/
def cellDrop {α : Type} : List (Nat × α) → Nat → List (Nat × α)
  | [], _ => []
  | (a, y) :: m, k => if a = k then cellDrop m k else (a, y) :: cellDrop m k

/-- `TMEM[i]` (R30). -/
def Memory.read (m : Memory) (i : NodeIdx) : Word := (cellFind m i.toNat).getD 0

/-- `TMEM[i] <- w` (R30): all 32 bits are stored; a word 0 is stored by being unlisted. -/
def Memory.write (m : Memory) (i : NodeIdx) (w : Word) : Memory :=
  if w = 0 then cellDrop m i.toNat else cellPut m i.toNat w

/-- The canonical form of TMEM: indices strictly rising and below 1024, no word 0. -/
abbrev Memory.wf (m : Memory) : Prop :=
  m.Pairwise (fun a b => a.1 < b.1) ∧ ∀ c ∈ m, c.1 < Config.nNode ∧ c.2 ≠ 0

/-- `ETAB[s]` (R33): the path of a VALID entry, none for VALID = 0. -/
def ETab.find (t : ETab) (s : Sym) : Option Bits := cellFind t s.toNat

/-- `ETAB[s] <- (1, p)` (R151). -/
def ETab.put (t : ETab) (s : Sym) (p : Bits) : ETab := cellPut t s.toNat p

/-- The canonical form of ETAB: symbols strictly rising, each of the 257 entries' range. -/
abbrev ETab.wf (t : ETab) : Prop :=
  t.Pairwise (fun a b => a.1 < b.1) ∧ ∀ c ∈ t, c.1 < Config.nSym

/-! ### The stream ports -/

/-- What `pull()` returns (R73). -/
inductive PullAnswer where
  /-- The next byte. -/
  | byte (b : Byte)
  /-- SIN is exhausted. -/
  | exhausted
  /-- The access failed. -/
  | ioerror
deriving DecidableEq, Repr

/-- What `push(b)` returns (R75). -/
inductive PushAnswer where
  /-- The byte was appended. -/
  | ok
  /-- The access failed. -/
  | ioerror
deriving DecidableEq, Repr

/-- Whether the environment fails the next port access (R76). -/
def nextAccessFails (s : State) : Bool := s.portScript.headD false

/-- SIN is exhausted: pos = |data| (R72). -/
def sinExhausted (s : State) : Bool := decide (s.sinData.length ≤ s.sinPos)

/-- The environment's answer to an access is used up by it (R76: one Boolean per access). -/
def State.useAnswer (s : State) : State := { s with portScript := s.portScript.tail }

/-- `pull()` (R73). -/
def pull (s : State) : PullAnswer × State :=
  if nextAccessFails s then (.ioerror, s.useAnswer)
  else
    match s.sinData[s.sinPos]? with
    | none => (.exhausted, s.useAnswer)
    | some b => (.byte b, { s.useAnswer with sinPos := s.sinPos + 1 })

/-- `push(b)` (R75). -/
def push (b : Byte) (s : State) : PushAnswer × State :=
  if nextAccessFails s then (.ioerror, s.useAnswer)
  else (.ok, { s.useAnswer with sout := s.sout ++ [b] })

/-! ### Running a command's pseudocode (R11) -/

/-- How a piece of pseudocode ends: normally with a value, by `raise K` (R11, R280), or never. -/
inductive Run (α : Type) where
  /-- It ran to its end. -/
  | ok (a : α) (s : State)
  /-- It executed `raise k`; what it had written stays written. -/
  | raise (k : ErrKind) (s : State)
  /-- It has no next state. -/
  | stuck (f : Fault)
deriving Repr

/-- One piece after another: nothing after a `raise` runs (R11). -/
def Run.andThen {α β : Type} (r : Run α) (f : α → State → Run β) : Run β :=
  match r with
  | .ok a s => f a s
  | .raise k s => .raise k s
  | .stuck w => .stuck w

/-- A caller's translation of one error kind into another (R220). -/
def Run.translate {α : Type} (r : Run α) (from_ to_ : ErrKind) : Run α :=
  match r with
  | .ok a s => .ok a s
  | .raise k s => .raise (if k = from_ then to_ else k) s
  | .stuck w => .stuck w

/-- "on any raise inside this body: …, then let the raise proceed" (R131). -/
def Run.onRaise {α : Type} (r : Run α) (f : State → State) : Run α :=
  match r with
  | .ok a s => .ok a s
  | .raise k s => .raise k (f s)
  | .stuck w => .stuck w

/-- "on leaving this command by any path below, normal or raise: …" (R196). -/
def Run.onLeave {α : Type} (r : Run α) (f : State → State) : Run α :=
  match r with
  | .ok a s => .ok a (f s)
  | .raise k s => .raise k (f s)
  | .stuck w => .stuck w

/-- The code of an error kind (R270). -/
def ErrKind.code : ErrKind → BitVec 8
  | .corruptHeader => 1
  | .invalidTree => 2
  | .truncatedStream => 3
  | .bitsExhausted => 4
  | .ioError => 5
  | .noCode => 6
  | .illegalCommand => 7
  | .sequenceError => 8

/-- Fault entry (R280): ERR takes the code, then the writer's partial byte is pushed, whatever the
port answers. -/
def faultEntry (k : ErrKind) (s : State) : State :=
  if s.wcnt ≠ 0 then (push s.wacc { s with err := k.code, wacc := 0, wcnt := 0 }).2
  else { s with err := k.code }

/-- Return from the fault state, and the whole of it (R283): the block takes its reset values (R40,
R251); the environment and the host keep theirs. -/
def softReset (s : State) : State :=
  { State.reset with
    sinData := s.sinData, sinPos := s.sinPos, sout := s.sout, portScript := s.portScript,
    actions := s.actions, readLog := s.readLog }

/-- A command as the host sees it: ignored in the fault state (R282), else run to its end, a `raise`
entering the fault state (R280). -/
def command (body : State → Run Unit) (s : State) : Host.Outcome State Fault Refusal :=
  if s.err ≠ 0 then .next s
  else
    match body s with
    | .ok _ t => .next t
    | .raise k t => .next (faultEntry k t)
    | .stuck w => .fault w

/-- `require c else raise K`, then the rest (R11). -/
def requireElse (c : Prop) [Decidable c] (k : ErrKind) (rest : State → Run Unit) (s : State) : Run Unit :=
  if c then rest s else .raise k s

/-! ### The bit-stream unit -/

/-- `read_bit()` (R220). RCNT is 8 only between the pull and the count-down, so it is 7 after. -/
def readBit (s : State) : Run Bool :=
  if s.rcnt = 0 then
    match pull s with
    | (.ioerror, t) => .raise .ioError t
    | (.exhausted, t) => .raise .bitsExhausted t
    | (.byte x, t) => .ok (x.getLsbD 7) { t with rbuf := x, rcnt := 7 }
  else .ok (s.rbuf.getLsbD (s.rcnt - 1).toNat) { s with rcnt := s.rcnt - 1 }

/-- `read_bits(n)` (R221), from the value assembled so far. -/
def readBits : Nat → Word → State → Run Word
  | 0, v, s => .ok v s
  | n + 1, v, s => (readBit s).andThen fun b t => readBits n (shiftInBit v b) t

/-- Push a completed byte; a failed push loses it (R222, R224). -/
def pushByte (x : Byte) (s : State) : Run Unit :=
  match push x s with
  | (.ioerror, t) => .raise .ioError t
  | (.ok, t) => .ok () t

/-- `write_bit(b)` (R222). -/
def writeBit (b : Bool) (s : State) : Run Unit :=
  let x := placeBit s.wacc (7 - s.wcnt.toNat) b
  if s.wcnt = 7 then pushByte x { s with wacc := 0, wcnt := 0 }
  else .ok () { s with wacc := x, wcnt := s.wcnt + 1 }

/-- Write a bit sequence, first bit first (R191, R223). -/
def writeAll : Bits → State → Run Unit
  | [], s => .ok () s
  | b :: p, s => (writeBit b s).andThen fun _ t => writeAll p t

/-- `write_bits(v, n)` (R223). -/
def writeBits {w : Nat} (v : BitVec w) (n : Nat) (s : State) : Run Unit := writeAll (bitsOf n v) s

/-- `flush()` (R224). -/
def flushWriter (s : State) : Run Unit :=
  if s.wcnt ≠ 0 then pushByte s.wacc { s with wacc := 0, wcnt := 0 } else .ok () s

/-- The bits the reader can still deliver, counted: RCNT in RBUF and 8 for each byte of SIN not yet
taken (R36, R72). -/
def bitsLeft (s : State) : Nat := s.rcnt.toNat + 8 * (s.sinData.length - s.sinPos)

end Sys2Proof.Machine
end

