-- ==== Sys2Proof/Machine/BitStream.lean ====
section
/-! DEFINITION. The bit-stream commands RDBIT, RDBITS, WRBIT, WRBITS, FLUSH and RDALIGN
(spec 44_bitstream.md). -/

namespace Sys2Proof.Machine

/-- RDBIT (R230). -/
def execRdbit (s : State) : Host.Outcome State Fault Refusal :=
  command (fun s => (readBit s).andThen fun b t =>
    .ok () { t with result := (BitVec.ofBool b).setWidth 32 }) s

/-- RDBITS n (R231). -/
def execRdbits (n : BitVec 5) (s : State) : Host.Outcome State Fault Refusal :=
  command (fun s => (readBits n.toNat 0 s).andThen fun v t => .ok () { t with result := v }) s

/-- WRBIT b (R232). -/
def execWrbit (b : Bool) (s : State) : Host.Outcome State Fault Refusal := command (writeBit b) s

/-- WRBITS v, n (R233). -/
def execWrbits (v : BitVec 16) (n : BitVec 5) (s : State) : Host.Outcome State Fault Refusal :=
  command (writeBits v n.toNat) s

/-- FLUSH (R234). -/
def execFlush (s : State) : Host.Outcome State Fault Refusal := command flushWriter s

/-- RDALIGN (R235). -/
def execRdalign (s : State) : Host.Outcome State Fault Refusal :=
  command (fun s => .ok () { s with rcnt := 0 }) s

end Sys2Proof.Machine
end

