-- ==== Sys2Proof/Machine/Format.lean ====
section
/-! DEFINITION. Trees as values (spec 00_scope.md R10), reading one out of TMEM (40_tree.md R121), the
table of a tree (41_table_builder.md R150), and the two data formats: the tree header
(30_encoding.md R110) and the compressed artifact (R112). -/

namespace Sys2Proof.Machine

/-- `Leaf(s)` and `Node(l, r)` (R10). -/
inductive CodeTree where
  /-- A Leaf and its symbol. -/
  | leaf (s : Sym)
  /-- An Internal node and its two children. -/
  | node (l r : CodeTree)
deriving DecidableEq, Repr

/-- The nodes of a tree, counted. -/
def CodeTree.size : CodeTree → Nat
  | .leaf _ => 1
  | .node l r => 1 + l.size + r.size

/-- The symbols at the Leaves, left to right. -/
def CodeTree.symbols : CodeTree → List Sym
  | .leaf s => [s]
  | .node l r => l.symbols ++ r.symbols

/-- The source's invariants of a tree (R120, R122 conditions 3 to 6): the root is Internal, every Leaf
carries a symbol of the alphabet, no two carry the same, one carries the marker. -/
def CodeTree.valid (t : CodeTree) : Bool :=
  (match t with
    | .leaf _ => false
    | .node _ _ => true) &&
  t.symbols.all (fun s => decide (s ≤ Config.eos)) && decide t.symbols.Nodup && t.symbols.contains Config.eos

/-- `tree(i)` (R121), none where the recursion has not ended after `fuel` levels. -/
def treeWithin : Nat → Memory → NodeIdx → Option CodeTree
  | 0, _, _ => none
  | fuel + 1, m, i =>
    let w := m.read i
    if nodeLeaf w then some (.leaf (nodeSym w))
    else
      match treeWithin fuel m (nodeLeft w) with
      | none => none
      | some l =>
        match treeWithin fuel m (nodeRight w) with
        | none => none
        | some r => some (.node l r)

/-- `tree(i)` (R121). A path of 1024 nodes that ends in no Leaf visits some index twice, so 1024 levels
are enough for every recursion that ends (log entry 9). -/
def treeAt (m : Memory) (i : NodeIdx) : Option CodeTree := treeWithin Config.nNode m i

/-- `paths(t, p)` (R150), as the list of its symbol and path pairs, left before right. -/
def CodeTree.paths : CodeTree → Bits → List (Sym × Bits)
  | .leaf s, p => [(s, p)]
  | .node l r, p => l.paths (p ++ [false]) ++ r.paths (p ++ [true])

/-- `code_t(s)` (R150): the path to the Leaf that carries `s`, if one does. -/
def CodeTree.code : CodeTree → Sym → Option Bits
  | .leaf s', s => if s' = s then some [] else none
  | .node l r, s =>
    match l.code s with
    | some p => some (false :: p)
    | none => (r.code s).map (true :: ·)

/-- `enc(t)` (R110). -/
def CodeTree.enc : CodeTree → Bits
  | .leaf s => true :: bitsOf 9 s
  | .node l r => false :: (l.enc ++ r.enc)

/-- The fewest 0 bits that make a bit sequence a whole number of bytes (R110, R112). -/
def padTo8 (p : Bits) : Bits := p ++ List.replicate ((8 - p.length % 8) % 8) false

/-- `HDR(t)` (R110). -/
def CodeTree.hdr (t : CodeTree) : Bits := padTo8 (bitsOf 8 Config.hdrVer ++ t.enc)

/-- `bytes(p)` (R112, packed by R66); bits after the last whole byte are not packed. -/
def packBytes : Bits → List Byte
  | b7 :: b6 :: b5 :: b4 :: b3 :: b2 :: b1 :: b0 :: p => valueOf 8 [b7, b6, b5, b4, b3, b2, b1, b0] :: packBytes p
  | _ => []

/-- The bits of a byte sequence in stream order (R66). -/
def bitsOfBytes (bs : List Byte) : Bits := bs.flatMap (bitsOf 8)

/-- The codes of a list of symbols one after the other, none where one has no code. -/
def CodeTree.codes (t : CodeTree) : List Sym → Option Bits
  | [] => some []
  | s :: ss =>
    match t.code s with
    | none => none
    | some p => (t.codes ss).map (p ++ ·)

/-- The symbol of a byte value (R6, R12). -/
def symOfByte (b : Byte) : Sym := b.setWidth 9

/-- `ART(t, S)` (R112), none where a byte of S or the marker has no code. -/
def CodeTree.artifact (t : CodeTree) (input : List Byte) : Option (List Byte) :=
  match t.codes (input.map symOfByte ++ [Config.eos]) with
  | none => none
  | some payload => some (packBytes t.hdr ++ packBytes (padTo8 payload))

/-- The bits the reader will deliver: what is left of RBUF, then the bytes of SIN not yet taken, most
significant bit first (R36, R66, R72). -/
def unreadBits (s : State) : Bits := bitsOf s.rcnt.toNat s.rbuf ++ bitsOfBytes (s.sinData.drop s.sinPos)

/-- The bits the program has written: the bytes of SOUT, then the writer's partial byte (R35). -/
def writtenBits (s : State) : Bits := bitsOfBytes s.sout ++ (bitsOf 8 s.wacc).take s.wcnt.toNat

end Sys2Proof.Machine
end

