-- ==== Sys2Proof/Machine/TreeUnit.lean ====
section
/-! DEFINITION. The tree model's procedures and the commands TSER and TDES (spec 40_tree.md). -/

namespace Sys2Proof.Machine

/-- `walk(i)` (R123) on its two sets, none for `false`. It visits no index twice, so 1024 levels are
enough: the node after 1024 others on one path has been visited. -/
def walk (m : Memory) : Nat → NodeIdx → List NodeIdx × List Sym → Option (List NodeIdx × List Sym)
  | 0, _, _ => none
  | fuel + 1, i, (visited, seen) =>
    let w := m.read i
    if ¬nodeV w then none
    else if i ∈ visited then none
    else if nodeReserved w ≠ 0 then none
    else if nodeLeaf w then
      if nodeLeafReserved w ≠ 0 then none
      else if Config.eos < nodeSym w then none
      else if nodeSym w ∈ seen then none
      else some (i :: visited, nodeSym w :: seen)
    else
      match walk m fuel (nodeLeft w) (i :: visited, seen) with
      | none => none
      | some sets => walk m fuel (nodeRight w) sets

/-- `check()` (R123): decides `valid(ROOT)` (R122). -/
def checkTree (m : Memory) (root : NodeIdx) : Bool :=
  if nodeV (m.read root) ∧ nodeLeaf (m.read root) then false
  else
    match walk m Config.nNode root ([], []) with
    | none => false
    | some (_, seen) => decide (Config.eos ∈ seen)

/-- `ensure_valid()` (R124). -/
def ensureValid (s : State) : Run Unit :=
  if s.tvalid then .ok () s
  else if checkTree s.tmem s.root then .ok () { s with tvalid := true }
  else .raise .invalidTree s

/-- The tree a command works on, `tree(ROOT)` (R121); the command is stuck where the recursion does not
end. TSER and the table build write no TMEM word, so reading the whole tree first cannot be told from
reading it node by node. -/
def withTree (f : CodeTree → State → Run Unit) (s : State) : Run Unit :=
  match treeAt s.tmem s.root with
  | none => .stuck .stuckTreeWalk
  | some t => f t s

/-- `ser(i)` (R130), on the tree read from i. -/
def serTree : CodeTree → State → Run Unit
  | .leaf sym, s => (writeBit true s).andThen fun _ t => writeBits sym 9 t
  | .node l r, s =>
    (writeBit false s).andThen fun _ t => (serTree l t).andThen fun _ u => serTree r u

/-- `tser_body()` (R130). -/
def tserBody (s : State) : Run Unit :=
  withTree (fun tree s =>
    (writeBits Config.hdrVer 8 s).andThen fun _ t => (serTree tree t).andThen fun _ u => flushWriter u) s

/-- TSER (R130). -/
def execTser (s : State) : Host.Outcome State Fault Refusal :=
  command (requireElse (s.wcnt = 0) .sequenceError fun s =>
    (ensureValid s).andThen fun _ t => tserBody t) s

/-- `hbits(n)` (R131): a short header is corrupt. -/
def hbits (n : Nat) (s : State) : Run Word := (readBits n 0 s).translate .bitsExhausted .corruptHeader

/-- `TMEM[i] <- w` by the parse (R131), the index counted as `next` (0 to 1023). -/
def storeNode (i : Nat) (w : Word) (s : State) : State :=
  { s with tmem := Memory.write s.tmem (BitVec.ofNat 10 i) w }

/-- `parse()` (R131) from the count `next`: the index of the node it stored and the count after. Each
level takes an index, so with 1024 levels the count has reached 1024 where the levels run out. -/
def parse : Nat → Nat → State → Run (NodeIdx × Nat)
  | 0, _, s => .raise .corruptHeader s
  | fuel + 1, next, s =>
    if next = Config.nNode then .raise .corruptHeader s
    else
      (hbits 1 s).andThen fun marker t =>
        if marker = 1 then
          (hbits 9 t).andThen fun v u =>
            if (256 : Word) < v then .raise .corruptHeader u
            else .ok (BitVec.ofNat 10 next, next + 1) (storeNode next (leafWord (v.setWidth 9)) u)
        else
          (parse fuel (next + 1) t).andThen fun l u =>
            (parse fuel l.2 u).andThen fun r v =>
              .ok (BitVec.ofNat 10 next, r.2) (storeNode next (nodeWord l.1 r.1) v)

/-- The pad of a header (R131): at most 7 bits, up to the byte boundary, each 0. -/
def checkPad : Nat → State → Run Unit
  | 0, s => .ok () s
  | fuel + 1, s =>
    if s.rcnt = 0 then .ok () s
    else
      (hbits 1 s).andThen fun b t => if b ≠ 0 then .raise .corruptHeader t else checkPad fuel t

/-- `for i in 0..1023: TMEM[i] <- 0` (R131). -/
def clearTmem (s : State) : State := { s with tmem := [] }

/-- `tdes_body()` (R131). -/
def tdesBody (s : State) : Run Unit :=
  Run.onRaise
    ((hbits 8 (clearTmem { s with tvalid := false, tblv := false, root := 0 })).andThen fun v t =>
      if v ≠ 1 then .raise .corruptHeader t
      else (parse Config.nNode 0 t).andThen fun _ u => checkPad 7 u)
    clearTmem

/-- TDES (R131). -/
def execTdes (s : State) : Host.Outcome State Fault Refusal :=
  command (requireElse (s.rcnt = 0) .sequenceError tdesBody) s

end Sys2Proof.Machine
end

