-- ==== Sys2Proof/Machine/DecodeUnit.lean ====
section
/-! DEFINITION. The decode automaton and the command DEC1 (spec 42_decode_automaton.md). -/

namespace Sys2Proof.Machine

/-- The child a bit leads to: bit 0 the left, bit 1 the right (R170). -/
def childOf (w : Word) (b : Bool) : NodeIdx := if b then nodeRight w else nodeLeft w

/-- The loop of `decode_one()` (R171) from CUR. Each turn takes a bit, so the levels, more than the bits
left, do not run out before the bits do. Exhaustion is `TruncatedStream` (R175). -/
def decodeFrom : Nat → NodeIdx → State → Run Sym
  | 0, _, s => .raise .truncatedStream s
  | fuel + 1, cur, s =>
    ((readBit s).translate .bitsExhausted .truncatedStream).andThen fun b t =>
      let cur' := childOf (Memory.read t.tmem cur) b
      if nodeLeaf (Memory.read t.tmem cur') then .ok (nodeSym (Memory.read t.tmem cur')) t
      else decodeFrom fuel cur' t

/-- `decode_one()` (R171). -/
def decodeOne (s : State) : Run Sym := decodeFrom (bitsLeft s + 1) s.root s

/-- DEC1 (R172). -/
def execDec1 (s : State) : Host.Outcome State Fault Refusal :=
  command (fun s => (ensureValid s).andThen fun _ t => (decodeOne t).andThen fun sym u =>
    .ok () { u with result := sym.setWidth 32 }) s

end Sys2Proof.Machine
end

