-- ==== Sys2Proof/Machine/TableUnit.lean ====
section
/-! DEFINITION. The encoding table builder and the command BLDTAB (spec 41_table_builder.md). -/

namespace Sys2Proof.Machine

/-- `dfs(i, p)` (R151), on the tree read from i. -/
def buildTable : CodeTree → Bits → ETab → ETab
  | .leaf s, p, e => ETab.put e s p
  | .node l r, p, e => buildTable r (p ++ [true]) (buildTable l (p ++ [false]) e)

/-- `table(t)` (R150), as ETAB holds it. -/
def tableOf (t : CodeTree) : ETab := buildTable t [] []

/-- `bldtab_body()` (R151): every entry is cleared, then the walk lists the codes. -/
def bldtabBody (s : State) : Run Unit :=
  withTree (fun tree s => .ok () { s with etab := tableOf tree, tblv := true }) s

/-- BLDTAB (R152). -/
def execBldtab (s : State) : Host.Outcome State Fault Refusal :=
  command (fun s => (ensureValid s).andThen fun _ t => bldtabBody t) s

end Sys2Proof.Machine
end

