-- ==== Sys2Proof/Machine/Codec.lean ====
section
/-! DEFINITION. The stream codec and framing: the commands ENCSYM, COMPRESS and DECOMPRESS
(spec 43_stream_codec.md). -/

namespace Sys2Proof.Machine

/-- `emit_code(s)` (R191). -/
def emitCode (sym : Sym) (s : State) : Run Unit :=
  match ETab.find s.etab sym with
  | none => .raise .noCode s
  | some p => writeAll p s

/-- ENCSYM s (R192). -/
def execEncsym (sym : Sym) (s : State) : Host.Outcome State Fault Refusal :=
  command (requireElse (s.tblv = true) .sequenceError (emitCode sym)) s

/-- Step 3 of `compress` (R196): each byte of SIN in order, until it is exhausted. Each turn but the
last takes a byte, so the turns, one more than the bytes left, do not run out. -/
def encodeInput : Nat → State → Run Unit
  | 0, s => .ok () s
  | fuel + 1, s =>
    match pull s with
    | (.ioerror, t) => .raise .ioError t
    | (.exhausted, t) => .ok () t
    | (.byte b, t) => (emitCode (symOfByte b) t).andThen fun _ u => encodeInput fuel u

/-- COMPRESS after its precondition (R196). -/
def compressBody (s : State) : Run Unit :=
  (ensureValid s).andThen fun _ s =>
    (tserBody s).andThen fun _ s =>
      (bldtabBody s).andThen fun _ s =>
        (encodeInput (s.sinData.length - s.sinPos + 1) s).andThen fun _ s =>
          (emitCode Config.eos s).andThen fun _ s => flushWriter s

/-- COMPRESS (R196): on every path after its precondition TBLV <- 0. -/
def execCompress (s : State) : Host.Outcome State Fault Refusal :=
  command (requireElse (s.wcnt = 0 ∧ s.rcnt = 0) .sequenceError fun s =>
    (compressBody s).onLeave fun t => { t with tblv := false }) s

/-- Steps 2 to 5 of `decompress` (R199, R200, R201). Each turn takes a bit at least, so the turns, more
than the bits left, do not run out before the bits do. -/
def decodePayload : Nat → State → Run Unit
  | 0, s => .ok () { s with trunc := true }
  | fuel + 1, s =>
    match decodeOne s with
    | .stuck w => .stuck w
    | .raise k t => if k = .truncatedStream then .ok () { t with trunc := true } else .raise k t
    | .ok sym t =>
      if sym = Config.eos then .ok () { t with eosseen := true, rcnt := 0 }
      else
        match push (sym.setWidth 8) t with
        | (.ioerror, u) => .raise .ioError u
        | (.ok, u) => decodePayload fuel u

/-- DECOMPRESS after its precondition (R199). -/
def decompressBody (s : State) : Run Unit :=
  (tdesBody { s with eosseen := false, trunc := false }).andThen fun _ s =>
    (ensureValid s).andThen fun _ s => decodePayload (bitsLeft s + 1) s

/-- DECOMPRESS (R199). -/
def execDecompress (s : State) : Host.Outcome State Fault Refusal :=
  command (requireElse (s.wcnt = 0 ∧ s.rcnt = 0) .sequenceError decompressBody) s

end Sys2Proof.Machine
end

