-- ==== Sys2Proof/Machine/System.lean ====
section
/-! DEFINITION. The system commands NOP and RST, and the issue of an illegal word (spec 45_system.md,
60_exceptions.md R277). -/

namespace Sys2Proof.Machine

/-- NOP (R250). -/
def execNop (s : State) : Host.Outcome State Fault Refusal := command (fun s => .ok () s) s

/-- RST (R251), accepted in the fault state and out of it. -/
def execRst (s : State) : Host.Outcome State Fault Refusal := .next (softReset s)

/-- The issue of an illegal word (R96, R277): ignored in the fault state (R282). -/
def execIllegal (s : State) : Host.Outcome State Fault Refusal :=
  command (fun s => .raise .illegalCommand s) s

end Sys2Proof.Machine
end

