-- ==== Sys2Proof/Machine/Dispatch.lean ====
section
/-! DEFINITION. One arm per command (spec 30_encoding.md R94). -/

namespace Sys2Proof.Machine

def exec (i : Instr) (s : State) : Host.Outcome State Fault Refusal :=
  match i with
  | .nop => Sys2Proof.Machine.execNop s
  | .rdbit => Sys2Proof.Machine.execRdbit s
  | .rdbits n => Sys2Proof.Machine.execRdbits n s
  | .wrbit b => Sys2Proof.Machine.execWrbit b s
  | .wrbits v n => Sys2Proof.Machine.execWrbits v n s
  | .flush => Sys2Proof.Machine.execFlush s
  | .rdalign => Sys2Proof.Machine.execRdalign s
  | .tser => Sys2Proof.Machine.execTser s
  | .tdes => Sys2Proof.Machine.execTdes s
  | .bldtab => Sys2Proof.Machine.execBldtab s
  | .encsym sym => Sys2Proof.Machine.execEncsym sym s
  | .compress => Sys2Proof.Machine.execCompress s
  | .dec1 => Sys2Proof.Machine.execDec1 s
  | .decompress => Sys2Proof.Machine.execDecompress s
  | .rst => Sys2Proof.Machine.execRst s

end Sys2Proof.Machine
end

