-- ==== Sys2Proof/Machine/Flags.lean ====
section
/-! DEFINITION. The flags and the views assembled from state: STATUS (spec 10_state.md R22), SINEMPTY
(R28) and the host's window onto ETAB (R34). -/

namespace Sys2Proof.Machine

/-- SINEMPTY (R28): no bit is left to read. -/
def sinEmpty (s : State) : Bool := decide (s.rcnt = 0) && sinExhausted s

/-- STATUS (R22), from bit 31 down. -/
def statusView (s : State) : Word :=
  0#9 ++ s.rcnt ++ 0#1 ++ s.wcnt ++ 0#3 ++ BitVec.ofBool (sinEmpty s) ++ BitVec.ofBool s.trunc ++
    BitVec.ofBool s.eosseen ++ BitVec.ofBool s.tblv ++ BitVec.ofBool s.tvalid ++ s.err

/-- CODE of an entry: the path left-aligned in 256 bits, root bit in bit 255 (R33). -/
def entryCode (p : Bits) : BitVec 256 := valueOf 256 p

/-- LEN of an entry (R33). -/
def entryLen (p : Bits) : BitVec 9 := BitVec.ofNat 9 p.length

/-- The entry the window shows: none where TBLV = 0, where ETIDX is above 256, or where the symbol has
no code (R34). -/
def windowEntry (s : State) : Option Bits :=
  if s.tblv = true ∧ s.etidx ≤ Config.eos then ETab.find s.etab s.etidx else none

/-- ETLEN (R34). -/
def etlenView (s : State) : Word :=
  match windowEntry s with
  | none => 0
  | some p => 1#1 ++ 0#22 ++ entryLen p

/-- ETCODEk, k = 0 to 7 (R34): `CODE[255 − 32k : 224 − 32k]`. -/
def etcodeView (k : Nat) (s : State) : Word :=
  match windowEntry s with
  | none => 0
  | some p => (entryCode p).extractLsb' (224 - 32 * k) 32

end Sys2Proof.Machine
end

