-- ==== Sys2Proof/Machine/HostAccess.lean ====
section
/-! DEFINITION. The host's register accesses other than a command's issue (spec 45_system.md R252, R253;
20_memory.md R62, R63). -/

namespace Sys2Proof.Machine

/-- Whether an offset names a whole word (R61). -/
def wordAligned (off : Offset) : Bool := decide (off.extractLsb' 0 2 = 0)

/-- Offset of CMD (R62). -/
def cmdOffset : Offset := 0x0000

/-- Whether an offset lies in the window onto TMEM, `0x1000` to `0x1FFC` (R62). -/
def inTmemWindow (off : Offset) : Bool := off.getLsbD 12

/-- The node index of an offset in the window: `(addr − 0x1000) / 4` (R62, R253). -/
def tmemIndex (off : Offset) : NodeIdx := off.extractLsb' 2 10

/-- Whether an offset is that of an ETCODEk, `0x0020` to `0x003C` (R62). -/
def inEtcodeWindow (off : Offset) : Bool := decide (0x0020 ≤ off) && decide (off ≤ 0x003C)

/-- k of an ETCODEk's offset, `0x0020 + 4k` (R62). -/
def etcodeIndex (off : Offset) : Nat := (off.extractLsb' 2 3).toNat

/-- `MemRead(off, 4)` (R252): CMD and every unmapped offset read 0 (R63). -/
def hostRead (off : Offset) (s : State) : Word :=
  if off = 0x0004 then statusView s
  else if off = 0x0008 then s.result
  else if off = 0x000C then s.root.setWidth 32
  else if off = 0x0010 then s.etidx.setWidth 32
  else if off = 0x0014 then etlenView s
  else if inEtcodeWindow off then etcodeView (etcodeIndex off) s
  else if inTmemWindow off then Memory.read s.tmem (tmemIndex off)
  else 0

/-- `MemWrite(off, 4, v)` to anything but CMD (R253): dropped in the fault state (R282); read-only and
unmapped offsets change nothing (R63). -/
def hostWrite (off : Offset) (v : Word) (s : State) : State :=
  if s.err ≠ 0 then s
  else if off = 0x000C then { s with root := v.extractLsb' 0 10, tvalid := false, tblv := false }
  else if off = 0x0010 then { s with etidx := v.extractLsb' 0 9 }
  else if inTmemWindow off then
    { s with tmem := Memory.write s.tmem (tmemIndex off) v, tvalid := false, tblv := false }
  else s

end Sys2Proof.Machine
end

