-- ==== Sys2Proof/Machine/Issue.lean ====
section
/-! DEFINITION. What one action does: the issue of a command word (spec 30_encoding.md R90, R95), the
host's other accesses, and what the environment does between commands. -/

namespace Sys2Proof.Machine

/-- The write of a word to CMD (R90, R95, R253). -/
def issue (w : Word) (s : State) : Host.Outcome State Fault Refusal :=
  match decode w with
  | .command i => exec i s
  | .illegal _ => execIllegal s

/-- One action between commands (R252, R253, R254; R74, R76, R310). -/
def act (a : Action) (s : State) : Host.Outcome State Fault Refusal :=
  match a with
  | .write off v =>
    if ¬wordAligned off then .refused .misalignedAccess
    else if off = cmdOffset then issue v s
    else .next (hostWrite off v s)
  | .read off =>
    if ¬wordAligned off then .refused .misalignedAccess
    else .next { s with readLog := s.readLog ++ [hostRead off s] }
  | .feed bytes => .next { s with sinData := s.sinData ++ bytes }
  | .ports answers => .next { s with portScript := s.portScript ++ answers }
  | .reset => .next (softReset s)

/-- The host's next action; with none left the block idles (R15, R310: "nothing runs by itself"). -/
def nextAction (s : State) : Host.Outcome State Fault Refusal :=
  match s.actions with
  | [] => .next s
  | a :: rest => act a { s with actions := rest }

/-- The state whose next action is the issue of a word (R90). -/
def issueNext (w : Word) (s : State) : State := { s with actions := .write cmdOffset w :: s.actions }

end Sys2Proof.Machine
end

