-- ==== Sys2Proof/Machine/Step.lean ====
section
/-! DEFINITION. One step of the machine: the next action of the host or the environment
(spec 10_state.md R21, 92_eei_decisions.md D29). -/

namespace Sys2Proof.Machine

/-- One step (D29: the index into the host's list of actions advances by one per action). -/
def step (s : State) : Host.Outcome State Fault Refusal := nextAction s

/-- The state that fetches this instruction next: the host's next action writes the word to CMD. The
block has no instruction memory (R21), so nothing else is stored. Log entry 4. -/
def State.withFetchWord (s : State) (nbits w : Nat) : State :=
  issueNext (BitVec.ofNat 32 (w % 2 ^ nbits)) s

end Sys2Proof.Machine
end

