-- ==== Sys2Proof/Safety.lean ====
section
/-! DEFINITION. What a safe run is: the named premise that no port access fails (spec 20_memory.md R76),
what it means that TMEM holds a tree (40_tree.md R122), and the invariant of the machine. -/

namespace Sys2Proof.Machine

/-- The premise of R76: no coming port access fails. -/
abbrev portsOk (s : State) : Prop := ∀ a ∈ s.portScript, a = false

/-- The writer's unwritten bits are 0: `WACC[7 − WCNT : 0]` = 0 (10_state.md R35). -/
abbrev writerClean (s : State) : Prop := s.wacc <<< s.wcnt.toNat = 0

/-- From `s` to `t` nothing has changed but the bit reader, SIN's cursor and the answers used up. -/
def ReaderOnly (s t : State) : Prop :=
  t = { s with rbuf := t.rbuf, rcnt := t.rcnt, sinPos := t.sinPos, portScript := t.portScript }

/-- From `s` to `t` nothing has changed but the bit writer, SOUT and the answers used up. -/
def WriterOnly (s t : State) : Prop :=
  t = { s with wacc := t.wacc, wcnt := t.wcnt, sout := t.sout, portScript := t.portScript }

/-- TMEM holds the tree `t` from node index `i` on, in words that are exactly `LEAFW` and `NODEW` words,
and the walk visits the indices listed, in this order (R121, R122 condition 1). -/
inductive Stores (m : Memory) : NodeIdx → CodeTree → List NodeIdx → Prop where
  /-- A Leaf word. -/
  | leaf (i : NodeIdx) (sym : Sym) (word : Memory.read m i = leafWord sym) : Stores m i (.leaf sym) [i]
  /-- An Internal word and its two subtrees. -/
  | node (i l r : NodeIdx) (tl tr : CodeTree) (il ir : List NodeIdx) (word : Memory.read m i = nodeWord l r)
      (left : Stores m l tl il) (right : Stores m r tr ir) : Stores m i (.node tl tr) (i :: (il ++ ir))

/-- `valid(r)` (R122): the words reached from `r` are the words of a tree (1), no index is reached twice
(2), and the tree meets the source's invariants (3 to 6). -/
def ValidRoot (m : Memory) (r : NodeIdx) : Prop :=
  ∃ t visited, Stores m r t visited ∧ visited.Nodup ∧ t.valid = true

/-- ROOT names a valid tree, and the tree is `t` (R122). -/
def HoldsTree (s : State) (t : CodeTree) : Prop :=
  ∃ visited, Stores s.tmem s.root t visited ∧ visited.Nodup ∧ t.valid = true

/-- The indices `a`, `a + 1`, … of a subtree of `n` nodes in pre-order numbering (R131). -/
def preorder (a n : Nat) : List NodeIdx := (List.range' a n).map (BitVec.ofNat 10)

/-- TMEM holds `t` in pre-order numbering from index 0, and every other word is 0 (R131). -/
def HoldsPreorder (m : Memory) (t : CodeTree) : Prop :=
  Stores m 0 t (preorder 0 t.size) ∧ ∀ j : NodeIdx, t.size ≤ j.toNat → Memory.read m j = 0

/-- The bytes of SIN not yet taken (R72). -/
def sinRest (s : State) : List Byte := s.sinData.drop s.sinPos

/-- The state a composite command starts from (R190): no fault, both cursors aligned, the writer's unwritten
bits 0 (R35), SIN's cursor inside its data (R72), and no access that fails (the premise of R76). -/
structure AlignedStart (s : State) : Prop where
  /-- Outside the fault state. -/
  noFault : s.err = 0
  /-- The writer is aligned. -/
  writer : s.wcnt = 0
  /-- The reader is aligned. -/
  reader : s.rcnt = 0
  /-- The writer's unwritten bits are 0. -/
  clean : Sys2Proof.Machine.writerClean s
  /-- SIN's cursor is inside its data. -/
  sinWf : s.sinPos ≤ s.sinData.length
  /-- No coming port access fails. -/
  ports : portsOk s

/-- The bytes are an artifact of `t` and the input but for the 0 to 7 pad bits of the payload, which may hold anything
(R112, R200: "0 or 1 in padding must not change output"; 93_implementation_defined.md U11). -/
def CodeTree.ArtifactAnyPad (t : CodeTree) (input a : List Byte) : Prop :=
  ∃ payload p pad, a = packBytes t.hdr ++ payload ∧ t.codes (input.map symOfByte ++ [Config.eos]) = some p ∧
    bitsOfBytes payload = p ++ pad ∧ pad.length < 8

/-- Every answer used up between two port scripts let its access succeed (R76). -/
def AllSucceeded (before after : List Bool) : Prop := ∃ used, before = used ++ after ∧ ∀ a ∈ used, a = false

/-- The error kinds a command can raise: the column "raised by" of 60_exceptions.md R270. -/
def mayRaise : Instr → List ErrKind
  | .nop => []
  | .rdbit => [.bitsExhausted, .ioError]
  | .rdbits _ => [.bitsExhausted, .ioError]
  | .wrbit _ => [.ioError]
  | .wrbits _ _ => [.ioError]
  | .flush => [.ioError]
  | .rdalign => []
  | .tser => [.invalidTree, .ioError, .sequenceError]
  | .tdes => [.corruptHeader, .ioError, .sequenceError]
  | .bldtab => [.invalidTree]
  | .encsym _ => [.ioError, .noCode, .sequenceError]
  | .compress => [.invalidTree, .ioError, .noCode, .sequenceError]
  | .dec1 => [.invalidTree, .truncatedStream, .ioError]
  | .decompress => [.corruptHeader, .invalidTree, .ioError, .sequenceError]
  | .rst => []

/-- The invariant of the machine: what the spec says of the state at every command boundary. -/
structure StateInv (s : State) : Prop where
  /-- ERR holds 0 or one of the eight codes (60_exceptions.md R270). -/
  errKnown : s.err ≤ 8
  /-- In the fault state the writer is empty: fault entry flushed it (R280). -/
  faultFlushed : s.err ≠ 0 → s.wcnt = 0
  /-- TMEM is in its canonical form (log entry 1). -/
  tmemWf : Memory.wf s.tmem
  /-- ETAB is in its canonical form (log entry 2). -/
  etabWf : ETab.wf s.etab
  /-- The writer's unwritten bits are 0 (R35). -/
  writerClean : Sys2Proof.Machine.writerClean s
  /-- SIN's cursor does not pass its end (R72). -/
  sinWf : s.sinPos ≤ s.sinData.length
  /-- TVALID = 1: the check has passed (R24). -/
  tvalidSound : s.tvalid = true → checkTree s.tmem s.root = true
  /-- TBLV = 1: TVALID = 1 and ETAB is the table of the tree (R25). -/
  tblvSound : s.tblv = true → s.tvalid = true ∧ (treeAt s.tmem s.root).map tableOf = some s.etab

end Sys2Proof.Machine
end

