-- ==== Sys2Proof/Certificates/Slice0/Obligations.lean ====
section
/-! DEFINITION. The statements for the provers, from the numbered rules of spec/. Each says of every path it
covers what changes and, through `t = { s with … }`, that every other field of the state (TMEM whole among
them) does not. -/

open Sys2Proof Sys2Proof.Machine

/-! ### Encoding -/

/-- Words written out from the spec (95_test_vectors.md V3, V4) decode as it says. -/
def Obligations.SpecWordsDecode : Prop :=
  decode 0x00000000 = .command .nop ∧ decode 0x01000000 = .command .rdbit ∧
  decode 0x02090000 = .command (.rdbits 9) ∧ decode 0x02100000 = .command (.rdbits 16) ∧
  decode 0x03000001 = .command (.wrbit true) ∧ decode 0x0405000B = .command (.wrbits 0x000B 5) ∧
  decode 0x0400FFFF = .command (.wrbits 0xFFFF 0) ∧ decode 0x05000000 = .command .flush ∧
  decode 0x06000000 = .command .rdalign ∧ decode 0x10000000 = .command .tser ∧ decode 0x11000000 = .command .tdes ∧
  decode 0x20000000 = .command .bldtab ∧ decode 0x21000061 = .command (.encsym 97) ∧
  decode 0x21000100 = .command (.encsym 256) ∧ decode 0x22000000 = .command .compress ∧
  decode 0x30000000 = .command .dec1 ∧ decode 0x31000000 = .command .decompress ∧ decode 0xFF000000 = .command .rst ∧
  decode 0x07000000 = .illegal .reservedOpcode ∧ decode 0x00200000 = .illegal .mustBeZero ∧
  decode 0x02110000 = .illegal .countTooLarge ∧ decode 0x04250001 = .illegal .mustBeZero ∧
  decode 0x03000002 = .illegal .mustBeZero ∧ decode 0x21000101 = .illegal .notASymbol ∧
  decode 0xFF000001 = .illegal .mustBeZero

/-- Decoding the word of a command gives the command back, with every operand at every value the encoding
admits (30_encoding.md R92, R94). -/
def Obligations.DecodeOfEncode : Prop :=
  ∀ i : Instr, wellFormed i = true → decode (encode i) = .command i

/-- A word that decodes to a command is that command's word, and the command is well formed: no word spells a
command another way (R92, R95). -/
def Obligations.EncodeOfDecode : Prop :=
  ∀ (w : Word) (i : Instr), decode w = .command i → encode i = w ∧ wellFormed i = true

/-- R95: a word that exactly one row of the opcode map selects is that row's command with the operand fields
of R93, no word is selected by two rows, and every other word is illegal. -/
def Obligations.DecodeFollowsOpcodeMap : Prop :=
  ∀ w : Word,
    ((opcodeMap.filter fun r => r.selects w).map Row.mnemonic =
      match decode w with
      | .command i => [mnemonicOf i]
      | .illegal _ => []) ∧
    (∀ n, decode w = .command (.rdbits n) → n = w.extractLsb' 16 5) ∧
    (∀ b, decode w = .command (.wrbit b) → b = w.getLsbD 0) ∧
    (∀ v n, decode w = .command (.wrbits v n) → v = w.extractLsb' 0 16 ∧ n = w.extractLsb' 16 5) ∧
    (∀ sym, decode w = .command (.encsym sym) → sym = w.extractLsb' 0 9)

/-! ### A step, the fault state, reset -/

/-- When the host's next action writes to CMD a word that decodes to a command, the step is that command's
execution with the action taken off the host's list (R90, R253). -/
def Obligations.StepRunsIssuedCommand : Prop :=
  ∀ (s : State) (w : Word) (rest : List Action) (i : Instr), s.actions = .write 0x0000 w :: rest →
    decode w = .command i → step s = exec i { s with actions := rest }

/-- What a step is between commands: the model's own rendering of the host and the environment (log entries 3,
4 and 8; 20_memory.md R61, R74, R76, 70_reset_and_hazards.md R310). -/
def Obligations.StepBetweenCommands : Prop :=
  ∀ (s : State) (rest : List Action),
    (s.actions = [] → step s = .next s) ∧
    (∀ bytes, s.actions = .feed bytes :: rest →
      step s = .next { s with actions := rest, sinData := s.sinData ++ bytes }) ∧
    (∀ answers, s.actions = .ports answers :: rest →
      step s = .next { s with actions := rest, portScript := s.portScript ++ answers }) ∧
    (∀ off v, off.toNat % 4 ≠ 0 → s.actions = .write off v :: rest → step s = .refused .misalignedAccess) ∧
    (∀ off, off.toNat % 4 ≠ 0 → s.actions = .read off :: rest → step s = .refused .misalignedAccess)

/-- R277: a word written to CMD outside the fault state that is illegal raises `IllegalCommand`, and has no
other effect than fault entry (R96). -/
def Obligations.IllegalWordEntersFaultState : Prop :=
  ∀ (s : State) (w : Word) (rest : List Action) (why : Illegal), s.err = 0 → s.actions = .write 0x0000 w :: rest →
    decode w = .illegal why → step s = .next (faultEntry .illegalCommand { s with actions := rest })

/-- Fault entry (60_exceptions.md R280): ERR takes the kind's code (R270); a partial byte is pushed and the
writer emptied, whatever the port answers; nothing else is written. -/
def Obligations.FaultEntryWritesErrAndFlushes : Prop :=
  (∀ (k : ErrKind) (s : State),
    (s.wcnt = 0 → faultEntry k s = { s with err := k.code }) ∧
    (s.wcnt ≠ 0 → nextAccessFails s = false →
      faultEntry k s = { s with
        err := k.code, wacc := 0, wcnt := 0, sout := s.sout ++ [s.wacc], portScript := s.portScript.tail }) ∧
    (s.wcnt ≠ 0 → nextAccessFails s = true →
      faultEntry k s = { s with err := k.code, wacc := 0, wcnt := 0, portScript := s.portScript.tail })) ∧
  [ErrKind.corruptHeader, .invalidTree, .truncatedStream, .bitsExhausted, .ioError, .noCode, .illegalCommand,
    .sequenceError].map ErrKind.code = [1, 2, 3, 4, 5, 6, 7, 8]

/-- R282: while ERR is not 0 every host write but that of the exact RST word to CMD changes nothing but the
host's list of actions, and host reads work as always. -/
def Obligations.FaultStateIgnoresAllButRst : Prop :=
  ∀ (s : State) (rest : List Action) (off : Offset), s.err ≠ 0 → off.toNat % 4 = 0 →
    (∀ v, ¬(off = 0x0000 ∧ v = 0xFF000000) → s.actions = .write off v :: rest →
      step s = .next { s with actions := rest }) ∧
    (s.actions = .read off :: rest →
      step s = .next { s with actions := rest, readLog := s.readLog ++ [hostRead off s] }) ∧
    ∀ i : Instr, i ≠ .rst → exec i s = .next s

/-- R23, R281: ERR is written only by fault entry, from 0 to one of the codes 1 to 8, and cleared only by RST or
a hardware reset; until then it holds the first error. -/
def Obligations.ErrHoldsFirstErrorUntilReset : Prop :=
  ∀ s t : State, step s = .next t → t.err ≠ s.err →
    (s.err = 0 ∧ 1 ≤ t.err.toNat ∧ t.err.toNat ≤ 8) ∨
    (t.err = 0 ∧ ∃ rest, s.actions = .write 0x0000 0xFF000000 :: rest ∨ s.actions = .reset :: rest)

/-- R40, R251: after RST, accepted in the fault state and out of it, and after a hardware reset, every piece of
the block's state has its reset value and the environment's and the host's are unchanged; `State.reset` has the
same values. -/
def Obligations.RstResetsBlock : Prop :=
  (∀ s : State,
    exec .rst s = .next { s with
      err := 0, tvalid := false, tblv := false, eosseen := false, trunc := false, result := 0x00000000, root := 0,
      etidx := 0, tmem := [], etab := [], wacc := 0, wcnt := 0, rbuf := 0, rcnt := 0 } ∧
    ∀ rest, s.actions = .reset :: rest → step s = exec .rst { s with actions := rest }) ∧
  (∀ i, Memory.read [] i = 0x00000000) ∧ (∀ x, ETab.find [] x = none) ∧
  exec .rst State.reset = .next State.reset

/-! ### The host's accesses -/

/-- R22: STATUS is assembled from its fields, and the bits not listed read 0. -/
def Obligations.StatusViewFields : Prop :=
  ∀ s : State,
    (statusView s).extractLsb' 0 8 = s.err ∧ (statusView s).getLsbD 8 = s.tvalid ∧
    (statusView s).getLsbD 9 = s.tblv ∧ (statusView s).getLsbD 10 = s.eosseen ∧
    (statusView s).getLsbD 11 = s.trunc ∧ (statusView s).getLsbD 12 = sinEmpty s ∧
    (statusView s).extractLsb' 13 3 = 0 ∧ (statusView s).extractLsb' 16 3 = s.wcnt ∧
    (statusView s).getLsbD 19 = false ∧ (statusView s).extractLsb' 20 3 = s.rcnt ∧
    (statusView s).extractLsb' 23 9 = 0

/-- R28: SINEMPTY is 1 exactly when RCNT = 0 and SIN is exhausted, that is, exactly when RDBIT outside the fault
state would raise `BitsExhausted` (no access failing). -/
def Obligations.SinEmptyForetellsExhaustion : Prop :=
  ∀ s : State,
    (sinEmpty s = true ↔ s.rcnt = 0 ∧ s.sinData.length ≤ s.sinPos) ∧
    (s.err = 0 → portsOk s → ∃ t, exec .rdbit s = .next t ∧ (sinEmpty s = true ↔ t.err = 4))

/-- R252: what a host read returns at every word offset, and that it changes no state of the block. -/
def Obligations.HostReadMap : Prop :=
  (∀ s : State,
    hostRead 0x0000 s = 0 ∧ hostRead 0x0004 s = statusView s ∧ hostRead 0x0008 s = s.result ∧
    hostRead 0x000C s = s.root.setWidth 32 ∧ hostRead 0x0010 s = s.etidx.setWidth 32 ∧
    hostRead 0x0014 s = etlenView s ∧ hostRead 0x0018 s = 0 ∧ hostRead 0x001C s = 0 ∧
    (∀ k < 8, hostRead (BitVec.ofNat 13 (0x0020 + 4 * k)) s = etcodeView k s) ∧
    (∀ a, 0x0040 ≤ a → a ≤ 0x0FFC → hostRead (BitVec.ofNat 13 a) s = 0) ∧
    ∀ i < 1024, hostRead (BitVec.ofNat 13 (0x1000 + 4 * i)) s = Memory.read s.tmem (BitVec.ofNat 10 i)) ∧
  ∀ (s : State) (rest : List Action) (off : Offset), off.toNat % 4 = 0 → s.actions = .read off :: rest →
    step s = .next { s with actions := rest, readLog := s.readLog ++ [hostRead off s] }

/-- R253 outside the fault state: a host write to ROOT, to ETIDX and to a TMEM word (read back whole, every other
word unchanged, TVALID and TBLV cleared), and a write to a read-only or unmapped offset, which changes nothing. -/
def Obligations.HostWriteMap : Prop :=
  ∀ (s : State) (rest : List Action) (v : Word), s.err = 0 →
    (s.actions = .write 0x000C v :: rest → step s = .next { s with
      actions := rest, root := v.extractLsb' 0 10, tvalid := false, tblv := false }) ∧
    (s.actions = .write 0x0010 v :: rest → step s = .next { s with
      actions := rest, etidx := v.extractLsb' 0 9 }) ∧
    (∀ i < 1024, s.actions = .write (BitVec.ofNat 13 (0x1000 + 4 * i)) v :: rest →
      ∃ t, step s = .next t ∧ t = { s with actions := rest, tmem := t.tmem, tvalid := false, tblv := false } ∧
        ∀ j : NodeIdx, Memory.read t.tmem j = if j.toNat = i then v else Memory.read s.tmem j) ∧
    (∀ a, a % 4 = 0 → (a = 0x0004 ∨ a = 0x0008 ∨ (0x0014 ≤ a ∧ a ≤ 0x0FFC)) →
      s.actions = .write (BitVec.ofNat 13 a) v :: rest → step s = .next { s with actions := rest })

/-- The host's window onto ETAB (R33, R34): all nine views read 0 where TBLV = 0, ETIDX is above 256 or the
symbol has no code; else ETLEN is VALID and LEN, and bit 31 − j of ETCODEk is bit 32k + j of the path, 0 past
its end. -/
def Obligations.EtabWindowShowsEntry : Prop :=
  ∀ s : State,
    ((s.tblv = false ∨ 256 < s.etidx.toNat ∨ ETab.find s.etab s.etidx = none) →
      etlenView s = 0 ∧ ∀ k, etcodeView k s = 0) ∧
    (∀ p, s.tblv = true → s.etidx.toNat ≤ 256 → ETab.find s.etab s.etidx = some p → p.length ≤ 256 →
      (etlenView s).getLsbD 31 = true ∧ (etlenView s).extractLsb' 9 22 = 0 ∧
      ((etlenView s).extractLsb' 0 9).toNat = p.length ∧
      ∀ k < 8, ∀ j < 32, (etcodeView k s).getLsbD (31 - j) = (p[32 * k + j]?).getD false)

/-! ### The bit-stream commands -/

/-- R250, R235: NOP changes nothing, in the fault state and out of it; RDALIGN writes RCNT and nothing else. Their
words. -/
def Obligations.NopAndRdalignEffects : Prop :=
  decode 0x00000000 = .command .nop ∧ decode 0x06000000 = .command .rdalign ∧
  (∀ s : State, exec .nop s = .next s) ∧ ∀ s : State, s.err = 0 → exec .rdalign s = .next { s with rcnt := 0 }

/-- R230: RDBIT, where a bit is buffered, where a byte is pulled, where SIN is exhausted (`BitsExhausted`) and
where the access fails (`IoError`). -/
def Obligations.RdbitReadsNextBit : Prop :=
  ∀ s : State, s.err = 0 →
    (s.rcnt ≠ 0 → exec .rdbit s = .next { s with
      rcnt := s.rcnt - 1,
      result := (BitVec.ofBool (s.rbuf.getLsbD (s.rcnt.toNat - 1))).setWidth 32 }) ∧
    (∀ x, s.rcnt = 0 → nextAccessFails s = false → s.sinData[s.sinPos]? = some x →
      exec .rdbit s = .next { s with
        rbuf := x, rcnt := 7, sinPos := s.sinPos + 1, portScript := s.portScript.tail,
        result := (BitVec.ofBool (x.getLsbD 7)).setWidth 32 }) ∧
    (s.rcnt = 0 → nextAccessFails s = false → s.sinData[s.sinPos]? = none →
      exec .rdbit s = .next (faultEntry .bitsExhausted { s with portScript := s.portScript.tail })) ∧
    (s.rcnt = 0 → nextAccessFails s = true →
      exec .rdbit s = .next (faultEntry .ioError { s with portScript := s.portScript.tail }))

/-- R231: where n bits are left and no access fails, RDBITS n takes exactly those bits and RESULT is their value,
the first bit most significant, zero-extended. -/
def Obligations.RdbitsReturnsField : Prop :=
  ∀ (s : State) (n : BitVec 5), s.err = 0 → portsOk s → n.toNat ≤ (unreadBits s).length →
    ∃ t, exec (.rdbits n) s = .next t ∧
      t.result = (valueOf n.toNat ((unreadBits s).take n.toNat)).setWidth 32 ∧
      unreadBits t = (unreadBits s).drop n.toNat ∧
      t = { s with
        result := t.result, rbuf := t.rbuf, rcnt := t.rcnt, sinPos := t.sinPos, portScript := t.portScript }

/-- R231, R274: where fewer than n bits are left and no access fails, RDBITS n consumes them, raises
`BitsExhausted` and leaves RESULT unchanged. -/
def Obligations.RdbitsExhaustion : Prop :=
  ∀ (s : State) (n : BitVec 5), s.err = 0 → portsOk s → (unreadBits s).length < n.toNat →
    ∃ t u, exec (.rdbits n) s = .next t ∧ t = faultEntry .bitsExhausted u ∧ t.err = 4 ∧ t.result = s.result ∧
      unreadBits t = [] ∧
      u = { s with rbuf := u.rbuf, rcnt := u.rcnt, sinPos := u.sinPos, portScript := u.portScript }

/-- R232, R233: where no access fails, WRBIT appends its bit and WRBITS the low n bits of its value, most
significant first, to the bits written; bits of the value above n play no part. -/
def Obligations.WritesAppendBits : Prop :=
  ∀ s : State, s.err = 0 → portsOk s →
    (∀ b, ∃ t, exec (.wrbit b) s = .next t ∧ writtenBits t = writtenBits s ++ [b] ∧
      t = { s with wacc := t.wacc, wcnt := t.wcnt, sout := t.sout, portScript := t.portScript }) ∧
    ∀ (v : BitVec 16) (n : BitVec 5), ∃ t, exec (.wrbits v n) s = .next t ∧
      writtenBits t = writtenBits s ++ bitsOf n.toNat v ∧
      t = { s with wacc := t.wacc, wcnt := t.wcnt, sout := t.sout, portScript := t.portScript }

/-- R222, R232 where the push of the completed byte fails: the byte is lost, the writer is empty, and WRBIT
raises `IoError`. -/
def Obligations.WrbitPushFailure : Prop :=
  ∀ (s : State) (b : Bool), s.err = 0 → s.wcnt = 7 → nextAccessFails s = true →
    exec (.wrbit b) s = .next { s with err := 5, wacc := 0, wcnt := 0, portScript := s.portScript.tail }

/-- R234: FLUSH, with no partial byte, with one, and where its push fails; where the push succeeds the bits
written are padded with zeros to a byte boundary (R224). -/
def Obligations.FlushPadsAndPushes : Prop :=
  ∀ s : State, s.err = 0 →
    (s.wcnt = 0 → exec .flush s = .next s) ∧
    (s.wcnt ≠ 0 → nextAccessFails s = false → exec .flush s = .next { s with
      wacc := 0, wcnt := 0, sout := s.sout ++ [s.wacc], portScript := s.portScript.tail }) ∧
    (s.wcnt ≠ 0 → nextAccessFails s = true → exec .flush s = .next { s with
      err := 5, wacc := 0, wcnt := 0, portScript := s.portScript.tail }) ∧
    (portsOk s → writerClean s → ∃ t, exec .flush s = .next t ∧ writtenBits t = padTo8 (writtenBits s))

/-- R223: if the bits WRBITS v, n writes are the next n bits a reader delivers, RDBITS n returns v[n−1:0]. -/
def Obligations.ReadBitsInvertsWriteBits : Prop :=
  ∀ (v : BitVec 16) (n : BitVec 5) (s u : State), s.err = 0 → portsOk s → u.err = 0 → portsOk u → n.toNat ≤ 16 →
    ∃ t, exec (.wrbits v n) s = .next t ∧ ∃ new, writtenBits t = writtenBits s ++ new ∧
      ∀ rest, unreadBits u = new ++ rest →
        ∃ r, exec (.rdbits n) u = .next r ∧ r.result = (v.setWidth n.toNat).setWidth 32 ∧ unreadBits r = rest

/-! ### The tree -/

/-- R123: the check decides `valid(ROOT)` as R122 defines it. -/
def Obligations.CheckDecidesValidTree : Prop :=
  ∀ (m : Memory) (r : NodeIdx), checkTree m r = true ↔ ValidRoot m r

/-- R7: a valid tree has at most 257 Leaves and at most 513 nodes, and every code has 1 to 256 bits. -/
def Obligations.ValidTreeBounds : Prop :=
  ∀ t : CodeTree, t.valid = true →
    t.symbols.length ≤ 257 ∧ t.size + 1 = 2 * t.symbols.length ∧ t.size ≤ 513 ∧
    ∀ x p, t.code x = some p → 1 ≤ p.length ∧ p.length ≤ 256

/-- R111: the header's tree part is a prefix code on trees, so two different trees have different headers. -/
def Obligations.HeaderSelfDelimiting : Prop :=
  (∀ (t t' : CodeTree) (x y : Bits), t.enc ++ x = t'.enc ++ y → t = t' ∧ x = y) ∧
  ∀ t t' : CodeTree, packBytes t.hdr = packBytes t'.hdr → t = t'

/-- R130: from an aligned writer and with a valid tree, where no access fails, TSER appends the bytes of
`HDR(tree(ROOT))` to SOUT, sets TVALID and leaves the writer empty. -/
def Obligations.TserWritesHeader : Prop :=
  ∀ (s : State) (t : CodeTree), s.err = 0 → s.wcnt = 0 → writerClean s → portsOk s → HoldsTree s t →
    ∃ u, exec .tser s = .next u ∧ u = { s with
      tvalid := true, wacc := 0, wcnt := 0, sout := s.sout ++ packBytes t.hdr, portScript := u.portScript }

/-- R131: from an aligned reader on the header of a tree of at most 1024 nodes with symbols of the alphabet,
where no access fails, TDES stores the tree in pre-order numbering from index 0, every other word 0, and takes
exactly the header's bytes; the tree is not validated. -/
def Obligations.TdesParsesHeader : Prop :=
  ∀ (s : State) (t : CodeTree) (x : List Byte), s.err = 0 → s.rcnt = 0 → portsOk s → t.size ≤ 1024 →
    (∀ sym ∈ t.symbols, sym ≤ Config.eos) → sinRest s = packBytes t.hdr ++ x →
    ∃ u, exec .tdes s = .next u ∧ HoldsPreorder u.tmem t ∧ u = { s with
      tvalid := false, tblv := false, root := 0, tmem := u.tmem, rbuf := u.rbuf, rcnt := 0,
      sinPos := s.sinPos + (packBytes t.hdr).length, portScript := u.portScript }

/-- R133: where no access fails, TDES ends without error exactly where the bytes left in SIN begin with the header
of a tree of at most 1024 nodes with symbols of the alphabet, and raises `CorruptHeader` on every other input. -/
def Obligations.TdesAcceptsExactlyHeaders : Prop :=
  ∀ s : State, s.err = 0 → s.rcnt = 0 → portsOk s →
    ∃ u, exec .tdes s = .next u ∧ (u.err = 0 ∨ u.err = 1) ∧
      (u.err = 0 ↔ ∃ (t : CodeTree) (x : List Byte), t.size ≤ 1024 ∧ (∀ sym ∈ t.symbols, sym ≤ Config.eos) ∧
        sinRest s = packBytes t.hdr ++ x)

/-- R131: whatever error ends an aligned TDES, TMEM is all zeros and ROOT, TVALID and TBLV are 0 after it, and
nothing is changed but the reader, SIN's cursor and what fault entry writes. -/
def Obligations.TdesFailureClearsTree : Prop :=
  ∀ s t : State, s.err = 0 → s.rcnt = 0 → exec .tdes s = .next t → t.err ≠ 0 →
    t.tmem = [] ∧ t = { s with
      err := t.err, tmem := [], root := 0, tvalid := false, tblv := false, rbuf := t.rbuf, rcnt := t.rcnt,
      sinPos := t.sinPos, portScript := t.portScript, wacc := t.wacc, wcnt := t.wcnt, sout := t.sout } ∧
    (s.wcnt = 0 → t.wacc = s.wacc ∧ t.sout = s.sout)

/-- R132: what TSER writes, TDES on an aligned reader reads back as the same tree, in pre-order numbering from 0, and a
second TSER from an aligned writer writes the same bytes. -/
def Obligations.TreeRoundTrip : Prop :=
  ∀ (s : State) (t : CodeTree), s.err = 0 → s.wcnt = 0 → writerClean s → portsOk s → HoldsTree s t →
    ∃ u h, exec .tser s = .next u ∧ u.sout = s.sout ++ h ∧
      ∀ (s' : State) (x : List Byte), s'.err = 0 → s'.rcnt = 0 → portsOk s' → sinRest s' = h ++ x →
        ∃ u', exec .tdes s' = .next u' ∧ u'.err = 0 ∧ sinRest u' = x ∧ u'.root = 0 ∧ HoldsPreorder u'.tmem t ∧
          HoldsTree u' t ∧
          (s'.wcnt = 0 → writerClean s' → ∃ v, exec .tser u' = .next v ∧ v.sout = s'.sout ++ h)

/-- R190, R278: a composite command off its byte boundary, and ENCSYM with no table, raise `SequenceError` with no
effect other than fault entry. -/
def Obligations.MisalignedCommandsRefused : Prop :=
  ∀ s : State, s.err = 0 →
    (s.wcnt ≠ 0 → exec .tser s = .next (faultEntry .sequenceError s)) ∧
    (s.rcnt ≠ 0 → exec .tdes s = .next (faultEntry .sequenceError s)) ∧
    (s.wcnt ≠ 0 ∨ s.rcnt ≠ 0 → exec .compress s = .next (faultEntry .sequenceError s) ∧
      exec .decompress s = .next (faultEntry .sequenceError s)) ∧
    (s.tblv = false → ∀ sym, exec (.encsym sym) s = .next (faultEntry .sequenceError s))

/-- R272 (with R124, R199): where a tree-using command finds no valid tree it raises `InvalidTree`. BLDTAB, DEC1, TSER
and COMPRESS, as the first tree-using command after the tree changed, have done nothing else (COMPRESS clears TBLV).
DECOMPRESS, on a header that parses to an invalid tree, has taken the header, left its tree in TMEM and decoded nothing;
on bytes that begin with no header it raises `CorruptHeader` (R133) with TMEM cleared. -/
def Obligations.InvalidTreeRaised : Prop :=
  ∀ s : State, s.err = 0 →
    (s.tvalid = false → ¬ValidRoot s.tmem s.root →
      exec .bldtab s = .next (faultEntry .invalidTree s) ∧ exec .dec1 s = .next (faultEntry .invalidTree s) ∧
      (s.wcnt = 0 → exec .tser s = .next (faultEntry .invalidTree s)) ∧
      (s.wcnt = 0 → s.rcnt = 0 → exec .compress s = .next (faultEntry .invalidTree { s with tblv := false }))) ∧
    (s.wcnt = 0 → s.rcnt = 0 → portsOk s →
      (∀ (t : CodeTree) (x : List Byte), t.size ≤ 1024 → (∀ sym ∈ t.symbols, sym ≤ Config.eos) → t.valid = false →
        sinRest s = packBytes t.hdr ++ x →
        ∃ u, exec .decompress s = .next u ∧ HoldsPreorder u.tmem t ∧ u = { s with
          err := 2, tmem := u.tmem, root := 0, tvalid := false, tblv := false, eosseen := false, trunc := false,
          rbuf := u.rbuf, rcnt := 0, sinPos := s.sinPos + (packBytes t.hdr).length, portScript := u.portScript }) ∧
      ((¬∃ (t : CodeTree) (x : List Byte), t.size ≤ 1024 ∧ (∀ sym ∈ t.symbols, sym ≤ Config.eos) ∧
          sinRest s = packBytes t.hdr ++ x) →
        ∃ u, exec .decompress s = .next u ∧ u = { s with
          err := 1, tmem := [], root := 0, tvalid := false, tblv := false, eosseen := false, trunc := false,
          rbuf := u.rbuf, rcnt := u.rcnt, sinPos := u.sinPos, portScript := u.portScript }))

/-! ### The table and the codes -/

/-- R151, R152: with a valid tree BLDTAB sets TVALID and TBLV, and ETAB maps every symbol at a Leaf to its code and
every other symbol to no code; nothing else changes. -/
def Obligations.BldtabBuildsTable : Prop :=
  ∀ (s : State) (t : CodeTree), s.err = 0 → HoldsTree s t →
    ∃ u, exec .bldtab s = .next u ∧ u = { s with tvalid := true, tblv := true, etab := u.etab } ∧
      ∀ x, ETab.find u.etab x = t.code x

/-- R153: two BLDTAB commands with no change to TMEM or ROOT between them leave identical ETAB contents, and a BLDTAB
right after BLDTAB changes nothing at all. -/
def Obligations.BldtabIdempotent : Prop :=
  ∀ s u : State, s.err = 0 → exec .bldtab s = .next u → u.err = 0 →
    exec .bldtab u = .next u ∧
    ∀ s' u' : State, s'.err = 0 → s'.tmem = s.tmem → s'.root = s.root → exec .bldtab s' = .next u' → u'.err = 0 →
      u'.etab = u.etab

/-- R154: the codes of two distinct symbols of a valid tree: neither is a prefix of the other. -/
def Obligations.CodesPrefixFree : Prop :=
  ∀ (t : CodeTree) (x y : Sym) (p q : Bits), t.valid = true → t.code x = some p → t.code y = some q → x ≠ y →
    ¬(p <+: q) ∧ ¬(q <+: p)

/-- R191, R192: with a table, where no access fails, ENCSYM appends the code of its symbol, and raises `NoCode` with
no bit written where the symbol has none (R276). -/
def Obligations.EncsymAppendsCode : Prop :=
  ∀ (s : State) (sym : Sym), s.err = 0 → s.tblv = true →
    (∀ p, portsOk s → ETab.find s.etab sym = some p →
      ∃ t, exec (.encsym sym) s = .next t ∧ writtenBits t = writtenBits s ++ p ∧
        t = { s with wacc := t.wacc, wcnt := t.wcnt, sout := t.sout, portScript := t.portScript }) ∧
    (ETab.find s.etab sym = none → exec (.encsym sym) s = .next (faultEntry .noCode s))

/-! ### The decode automaton -/

/-- R172, R173: with a valid tree, where the next bits are the code of a symbol and no access fails, DEC1 returns the
symbol in RESULT and takes exactly those bits, whatever follows them. -/
def Obligations.Dec1ReturnsSymbol : Prop :=
  ∀ (s : State) (t : CodeTree) (x : Sym) (p rest : Bits), s.err = 0 → portsOk s → HoldsTree s t → t.code x = some p →
    unreadBits s = p ++ rest →
    ∃ u, exec .dec1 s = .next u ∧ u.result = x.setWidth 32 ∧ unreadBits u = rest ∧
      u = { s with
        tvalid := true, result := x.setWidth 32, rbuf := u.rbuf, rcnt := u.rcnt, sinPos := u.sinPos,
        portScript := u.portScript }

/-- R175: with a valid tree, where the bits run out before a Leaf is reached and no access fails, DEC1 raises
`TruncatedStream`, the bits are lost and RESULT is unchanged. -/
def Obligations.Dec1TruncatedStream : Prop :=
  ∀ (s : State) (t : CodeTree), s.err = 0 → portsOk s → HoldsTree s t →
    (∀ x p, t.code x = some p → ¬(p <+: unreadBits s)) →
    ∃ u, exec .dec1 s = .next u ∧ u.err = 3 ∧ u.result = s.result ∧ unreadBits u = [] ∧ u.tvalid = true

/-! ### The stream codec -/

/-- R196: with a valid tree that has a Leaf for every byte left in SIN, both cursors aligned and no access failing,
COMPRESS appends `ART(tree(ROOT), S)` to SOUT, exhausts SIN and discards its table. -/
def Obligations.CompressWritesArtifact : Prop :=
  ∀ (s : State) (t : CodeTree) (a : List Byte), AlignedStart s → HoldsTree s t → t.artifact (sinRest s) = some a →
    ∃ u, exec .compress s = .next u ∧ u = { s with
      tvalid := true, tblv := false, etab := tableOf t, wacc := 0, wcnt := 0, sinPos := s.sinData.length,
      sout := s.sout ++ a, portScript := u.portScript }

/-- R196: the failure at the first input byte with no Leaf: the header and the codes of the bytes before it are in
SOUT, padded by fault entry; that byte is consumed, the marker's code is not appended. -/
def Obligations.CompressStopsAtUncodedByte : Prop :=
  ∀ (s : State) (t : CodeTree) (before after : List Byte) (b : Byte) (p : Bits), AlignedStart s → HoldsTree s t →
    sinRest s = before ++ b :: after → t.codes (before.map symOfByte) = some p → t.code (symOfByte b) = none →
    ∃ u, exec .compress s = .next u ∧ u = { s with
      err := 6, tvalid := true, tblv := false, etab := tableOf t, wacc := 0, wcnt := 0,
      sinPos := s.sinPos + before.length + 1, sout := s.sout ++ packBytes t.hdr ++ packBytes (padTo8 p),
      portScript := u.portScript }

/-- R25, R196: a COMPRESS that passes its precondition ends with TBLV = 0 on every path. -/
def Obligations.CompressDropsTable : Prop :=
  ∀ s t : State, s.err = 0 → s.wcnt = 0 → s.rcnt = 0 → exec .compress s = .next t → t.tblv = false

/-- R199, R200: on an artifact of a valid tree, whatever its pad bits hold, both cursors aligned and no access failing,
DECOMPRESS pushes exactly the bytes that were compressed, ends at the marker and leaves what follows the artifact in SIN;
the tree is in TMEM, validated. -/
def Obligations.DecompressReadsArtifact : Prop :=
  ∀ (s : State) (t : CodeTree) (input a x : List Byte), AlignedStart s → t.valid = true →
    t.ArtifactAnyPad input a → sinRest s = a ++ x →
    ∃ u, exec .decompress s = .next u ∧ HoldsPreorder u.tmem t ∧ u = { s with
      tmem := u.tmem, root := 0, tvalid := true, tblv := false, eosseen := true, trunc := false, rbuf := u.rbuf, rcnt := 0,
      sinPos := s.sinPos + a.length, sout := s.sout ++ input, portScript := u.portScript }

/-- R201: where the bits run out before the marker, at the start of a code or inside one, DECOMPRESS ends with ERR = 0
and TRUNC = 1; the bytes decoded stay, the bits of the unfinished code are dropped, SIN is exhausted. -/
def Obligations.DecompressLenientEnd : Prop :=
  ∀ (s : State) (t : CodeTree) (input payload : List Byte) (p rest : Bits), AlignedStart s → t.valid = true →
    sinRest s = packBytes t.hdr ++ payload → bitsOfBytes payload = p ++ rest →
    t.codes (input.map symOfByte) = some p → (∀ sym q, t.code sym = some q → ¬(q <+: rest)) →
    ∃ u, exec .decompress s = .next u ∧ HoldsPreorder u.tmem t ∧ u = { s with
      tmem := u.tmem, root := 0, tvalid := true, tblv := false, eosseen := false, trunc := true, rbuf := u.rbuf, rcnt := 0,
      sinPos := s.sinData.length, sout := s.sout ++ input, portScript := u.portScript }

/-- R202: decompressing what COMPRESS wrote gives the input back, leaves what follows in SIN, and leaves the tree; and so
does decompressing it with any other values of its pad bits (R200, U11). -/
def Obligations.CodecRoundTrip : Prop :=
  ∀ (s : State) (t : CodeTree), AlignedStart s → HoldsTree s t → (∀ b ∈ sinRest s, symOfByte b ∈ t.symbols) →
    ∃ u a, exec .compress s = .next u ∧ u.err = 0 ∧ t.artifact (sinRest s) = some a ∧ u.sout = s.sout ++ a ∧
      t.ArtifactAnyPad (sinRest s) a ∧
      ∀ (s' : State) (a' x : List Byte), AlignedStart s' → t.ArtifactAnyPad (sinRest s) a' → sinRest s' = a' ++ x →
        ∃ v, exec .decompress s' = .next v ∧ v.err = 0 ∧ v.sout = s'.sout ++ sinRest s ∧ v.eosseen = true ∧
          v.trunc = false ∧ sinRest v = x ∧ v.rcnt = 0 ∧ HoldsTree v t

/-- R203: with SIN exhausted COMPRESS writes the header and the marker's code, padded, and DECOMPRESS of that pushes
nothing and sets EOSSEEN. -/
def Obligations.EmptyInputRoundTrip : Prop :=
  ∀ (s : State) (t : CodeTree), AlignedStart s → HoldsTree s t → sinRest s = [] →
    ∃ u p, exec .compress s = .next u ∧ t.code Config.eos = some p ∧
      u.sout = s.sout ++ packBytes t.hdr ++ packBytes (padTo8 p) ∧
      ∀ s' : State, AlignedStart s' → sinRest s' = packBytes t.hdr ++ packBytes (padTo8 p) →
        ∃ v, exec .decompress s' = .next v ∧ v.err = 0 ∧ v.sout = s'.sout ∧ v.eosseen = true

/-- R27 (with R26): after a DECOMPRESS that ends with ERR = 0 exactly one of EOSSEEN and TRUNC is 1. -/
def Obligations.DecompressEndsWithOneFlag : Prop :=
  ∀ s t : State, s.err = 0 → exec .decompress s = .next t → t.err = 0 → t.trunc = !t.eosseen

/-! ### Frames: what each command leaves unchanged on every path -/

/-- R230, R231, R29: RDBIT and RDBITS write RESULT, the reader and SIN's cursor; only on an error do ERR and, by fault
entry, the writer and SOUT change, and then RESULT does not. -/
def Obligations.ReaderCommandsFrame : Prop :=
  ∀ (s t : State) (n : BitVec 5), (exec .rdbit s = .next t ∨ exec (.rdbits n) s = .next t) →
    (t.err = s.err → t = { s with
      result := t.result, rbuf := t.rbuf, rcnt := t.rcnt, sinPos := t.sinPos, portScript := t.portScript }) ∧
    (t.err ≠ s.err → t = { s with
      err := t.err, rbuf := t.rbuf, rcnt := t.rcnt, sinPos := t.sinPos, portScript := t.portScript, wacc := t.wacc,
      wcnt := t.wcnt, sout := t.sout })

/-- R172, R174: DEC1 writes RESULT, the reader, SIN's cursor and TVALID; only on an error do ERR and, by fault entry, the
writer and SOUT change, and then RESULT does not. -/
def Obligations.Dec1Frame : Prop :=
  ∀ s t : State, exec .dec1 s = .next t →
    (t.err = s.err → t = { s with
      tvalid := t.tvalid, result := t.result, rbuf := t.rbuf, rcnt := t.rcnt, sinPos := t.sinPos,
      portScript := t.portScript }) ∧
    (t.err ≠ s.err → t = { s with
      err := t.err, tvalid := t.tvalid, rbuf := t.rbuf, rcnt := t.rcnt, sinPos := t.sinPos, portScript := t.portScript,
      wacc := t.wacc, wcnt := t.wcnt, sout := t.sout })

/-- R192, R232 to R234: WRBIT, WRBITS, FLUSH and ENCSYM write the writer, SOUT and, on an error, ERR. -/
def Obligations.WriterCommandsFrame : Prop :=
  ∀ (s t : State) (i : Instr), (i = .flush ∨ (∃ b, i = .wrbit b) ∨ (∃ v n, i = .wrbits v n) ∨ ∃ sym, i = .encsym sym) →
    exec i s = .next t →
    t = { s with err := t.err, wacc := t.wacc, wcnt := t.wcnt, sout := t.sout, portScript := t.portScript }

/-- R130, R152: TSER writes TVALID, the writer, SOUT and, on an error, ERR; BLDTAB writes TVALID, TBLV and ETAB, and on an
error only what fault entry writes. -/
def Obligations.TserBldtabFrame : Prop :=
  ∀ s t : State,
    (exec .tser s = .next t → t = { s with
      err := t.err, tvalid := t.tvalid, wacc := t.wacc, wcnt := t.wcnt, sout := t.sout, portScript := t.portScript }) ∧
    (exec .bldtab s = .next t →
      (t.err = s.err → t = { s with tvalid := t.tvalid, tblv := t.tblv, etab := t.etab }) ∧
      (t.err ≠ s.err → t = { s with
        err := t.err, wacc := t.wacc, wcnt := t.wcnt, sout := t.sout, portScript := t.portScript }))

/-- R131, R196, R199: TDES, COMPRESS and DECOMPRESS write only what their rules name; only on an error do ERR and, by
fault entry, the writer and SOUT change too. TDES without an error keeps the writer and SOUT, DECOMPRESS the writer. -/
def Obligations.CompositeCommandsFrame : Prop :=
  ∀ s t : State,
    (exec .tdes s = .next t →
      (t.err = s.err → t = { s with
        tmem := t.tmem, root := t.root, tvalid := t.tvalid, tblv := t.tblv, rbuf := t.rbuf, rcnt := t.rcnt,
        sinPos := t.sinPos, portScript := t.portScript }) ∧
      (t.err ≠ s.err → t = { s with
        err := t.err, tmem := t.tmem, root := t.root, tvalid := t.tvalid, tblv := t.tblv, rbuf := t.rbuf, rcnt := t.rcnt,
        sinPos := t.sinPos, portScript := t.portScript, wacc := t.wacc, wcnt := t.wcnt, sout := t.sout })) ∧
    (exec .compress s = .next t → t = { s with
      err := t.err, etab := t.etab, tvalid := t.tvalid, tblv := t.tblv, sinPos := t.sinPos, portScript := t.portScript,
      wacc := t.wacc, wcnt := t.wcnt, sout := t.sout }) ∧
    (exec .decompress s = .next t →
      (t.err = s.err → t = { s with
        tmem := t.tmem, root := t.root, tvalid := t.tvalid, tblv := t.tblv, eosseen := t.eosseen, trunc := t.trunc,
        rbuf := t.rbuf, rcnt := t.rcnt, sinPos := t.sinPos, portScript := t.portScript, sout := t.sout }) ∧
      (t.err ≠ s.err → t = { s with
        err := t.err, tmem := t.tmem, root := t.root, tvalid := t.tvalid, tblv := t.tblv, eosseen := t.eosseen,
        trunc := t.trunc, rbuf := t.rbuf, rcnt := t.rcnt, sinPos := t.sinPos, portScript := t.portScript, wacc := t.wacc,
        wcnt := t.wcnt, sout := t.sout }))

/-! ### The whole machine -/

/-- R270, R76, R275: outside the fault state a command either leaves ERR 0, and then every port access it made succeeded;
or it raises a kind that R270 says it raises, which is `IoError` exactly where its last access before fault entry (R280)
failed, every earlier one having succeeded. The commands that write no bit come to fault entry with the writer as it was. -/
def Obligations.ErrorKindsByCommand : Prop :=
  ∀ (i : Instr) (s t : State), s.err = 0 → exec i s = .next t →
    (t.err = 0 ∧ AllSucceeded s.portScript t.portScript) ∨
    ∃ k ∈ mayRaise i, ∃ u, t = faultEntry k u ∧ t.err = k.code ∧
      (k = .ioError → AllSucceeded s.portScript (true :: u.portScript)) ∧
      (k ≠ .ioError → AllSucceeded s.portScript u.portScript) ∧
      (i = .rdbit ∨ (∃ n, i = .rdbits n) ∨ i = .tdes ∨ i = .bldtab ∨ i = .dec1 ∨ i = .decompress →
        u.wacc = s.wacc ∧ u.wcnt = s.wcnt)

/-- R29: a command changes RESULT only if it is RDBIT, RDBITS, DEC1 or RST, and a command that raises leaves it
unchanged; RESULT after RDBITS n with n at most 16 is at most 0xFFFF, after RDBIT at most 1, and after DEC1, from a
state that meets the invariant, at most 256. -/
def Obligations.ResultWrittenByThreeCommands : Prop :=
  ∀ (i : Instr) (s t : State), exec i s = .next t → t.result ≠ s.result →
    (i = .rst ∧ t.result = 0) ∨ (t.err = 0 ∧
      ((i = .rdbit ∧ t.result.toNat ≤ 1) ∨ (∃ n, i = .rdbits n ∧ t.result.toNat < 2 ^ n.toNat) ∨
        (i = .dec1 ∧ t.result.toNat < 512 ∧ (StateInv s → t.result.toNat ≤ 256))))

/-- R79 (with R24, R25, R30): a step that changes TMEM or ROOT leaves TBLV = 0. -/
def Obligations.TreeChangeDropsTable : Prop :=
  ∀ s t : State, step s = .next t → (t.tmem ≠ s.tmem ∨ t.root ≠ s.root) → t.tblv = false

/-- R72, R75 (with R38, R74): SOUT only grows, nothing the block does removes or changes a byte already there; SIN is
never rewound and its bytes change only by appending. -/
def Obligations.StreamsOnlyGrow : Prop :=
  ∀ s t : State, step s = .next t → s.sout <+: t.sout ∧ s.sinPos ≤ t.sinPos ∧ s.sinData <+: t.sinData

/-- R256, R320: from a state that meets the invariant every command ends, in a next state, provided the ports answer.
That they do is the model's choice, log entry 6 (DEDUCED, unsafe; 20_memory.md R74): no command of the model waits on an
unfed port, so the hang a physical block may show there is not in it. -/
def Obligations.EveryCommandEnds : Prop := ∀ (i : Instr) (s : State), StateInv s → ∃ t, exec i s = .next t

/-- The invariant is kept by every step (R23 to R25, R30, R33, R35, R72). -/
def Obligations.InvariantKeptByStep : Prop := ∀ s t : State, StateInv s → step s = .next t → StateInv t

/-- The state after reset meets the invariant (R40). -/
def Obligations.ResetMeetsInvariant : Prop := StateInv State.reset
end

