-- ==== Sys2Proof/Laws/State.lean ====
section
/-! SUPPORT. One lemma per field per named update of the state, true by `rfl`, and the small lemmas of how
a piece of pseudocode runs. -/

namespace Sys2Proof.Machine

/-! ### `useAnswer` writes the answers to the coming accesses only -/

@[simp] theorem useAnswer_err (s : State) : s.useAnswer.err = s.err := rfl
@[simp] theorem useAnswer_tvalid (s : State) : s.useAnswer.tvalid = s.tvalid := rfl
@[simp] theorem useAnswer_tblv (s : State) : s.useAnswer.tblv = s.tblv := rfl
@[simp] theorem useAnswer_eosseen (s : State) : s.useAnswer.eosseen = s.eosseen := rfl
@[simp] theorem useAnswer_trunc (s : State) : s.useAnswer.trunc = s.trunc := rfl
@[simp] theorem useAnswer_result (s : State) : s.useAnswer.result = s.result := rfl
@[simp] theorem useAnswer_root (s : State) : s.useAnswer.root = s.root := rfl
@[simp] theorem useAnswer_etidx (s : State) : s.useAnswer.etidx = s.etidx := rfl
@[simp] theorem useAnswer_tmem (s : State) : s.useAnswer.tmem = s.tmem := rfl
@[simp] theorem useAnswer_etab (s : State) : s.useAnswer.etab = s.etab := rfl
@[simp] theorem useAnswer_wacc (s : State) : s.useAnswer.wacc = s.wacc := rfl
@[simp] theorem useAnswer_wcnt (s : State) : s.useAnswer.wcnt = s.wcnt := rfl
@[simp] theorem useAnswer_rbuf (s : State) : s.useAnswer.rbuf = s.rbuf := rfl
@[simp] theorem useAnswer_rcnt (s : State) : s.useAnswer.rcnt = s.rcnt := rfl
@[simp] theorem useAnswer_sinData (s : State) : s.useAnswer.sinData = s.sinData := rfl
@[simp] theorem useAnswer_sinPos (s : State) : s.useAnswer.sinPos = s.sinPos := rfl
@[simp] theorem useAnswer_sout (s : State) : s.useAnswer.sout = s.sout := rfl
@[simp] theorem useAnswer_portScript (s : State) : s.useAnswer.portScript = s.portScript.tail := rfl
@[simp] theorem useAnswer_actions (s : State) : s.useAnswer.actions = s.actions := rfl
@[simp] theorem useAnswer_readLog (s : State) : s.useAnswer.readLog = s.readLog := rfl

/-! ### `clearTmem` and `storeNode` write TMEM only -/

@[simp] theorem clearTmem_err (s : State) : (clearTmem s).err = s.err := rfl
@[simp] theorem clearTmem_tvalid (s : State) : (clearTmem s).tvalid = s.tvalid := rfl
@[simp] theorem clearTmem_tblv (s : State) : (clearTmem s).tblv = s.tblv := rfl
@[simp] theorem clearTmem_eosseen (s : State) : (clearTmem s).eosseen = s.eosseen := rfl
@[simp] theorem clearTmem_trunc (s : State) : (clearTmem s).trunc = s.trunc := rfl
@[simp] theorem clearTmem_result (s : State) : (clearTmem s).result = s.result := rfl
@[simp] theorem clearTmem_root (s : State) : (clearTmem s).root = s.root := rfl
@[simp] theorem clearTmem_etidx (s : State) : (clearTmem s).etidx = s.etidx := rfl
@[simp] theorem clearTmem_tmem (s : State) : (clearTmem s).tmem = [] := rfl
@[simp] theorem clearTmem_etab (s : State) : (clearTmem s).etab = s.etab := rfl
@[simp] theorem clearTmem_wacc (s : State) : (clearTmem s).wacc = s.wacc := rfl
@[simp] theorem clearTmem_wcnt (s : State) : (clearTmem s).wcnt = s.wcnt := rfl
@[simp] theorem clearTmem_rbuf (s : State) : (clearTmem s).rbuf = s.rbuf := rfl
@[simp] theorem clearTmem_rcnt (s : State) : (clearTmem s).rcnt = s.rcnt := rfl
@[simp] theorem clearTmem_sinData (s : State) : (clearTmem s).sinData = s.sinData := rfl
@[simp] theorem clearTmem_sinPos (s : State) : (clearTmem s).sinPos = s.sinPos := rfl
@[simp] theorem clearTmem_sout (s : State) : (clearTmem s).sout = s.sout := rfl
@[simp] theorem clearTmem_portScript (s : State) : (clearTmem s).portScript = s.portScript := rfl
@[simp] theorem clearTmem_actions (s : State) : (clearTmem s).actions = s.actions := rfl
@[simp] theorem clearTmem_readLog (s : State) : (clearTmem s).readLog = s.readLog := rfl

@[simp] theorem storeNode_err (i : Nat) (w : Word) (s : State) : (storeNode i w s).err = s.err := rfl
@[simp] theorem storeNode_tvalid (i : Nat) (w : Word) (s : State) : (storeNode i w s).tvalid = s.tvalid := rfl
@[simp] theorem storeNode_tblv (i : Nat) (w : Word) (s : State) : (storeNode i w s).tblv = s.tblv := rfl
@[simp] theorem storeNode_eosseen (i : Nat) (w : Word) (s : State) : (storeNode i w s).eosseen = s.eosseen := rfl
@[simp] theorem storeNode_trunc (i : Nat) (w : Word) (s : State) : (storeNode i w s).trunc = s.trunc := rfl
@[simp] theorem storeNode_result (i : Nat) (w : Word) (s : State) : (storeNode i w s).result = s.result := rfl
@[simp] theorem storeNode_root (i : Nat) (w : Word) (s : State) : (storeNode i w s).root = s.root := rfl
@[simp] theorem storeNode_etidx (i : Nat) (w : Word) (s : State) : (storeNode i w s).etidx = s.etidx := rfl
@[simp] theorem storeNode_tmem (i : Nat) (w : Word) (s : State) :
    (storeNode i w s).tmem = Memory.write s.tmem (BitVec.ofNat 10 i) w := rfl
@[simp] theorem storeNode_etab (i : Nat) (w : Word) (s : State) : (storeNode i w s).etab = s.etab := rfl
@[simp] theorem storeNode_wacc (i : Nat) (w : Word) (s : State) : (storeNode i w s).wacc = s.wacc := rfl
@[simp] theorem storeNode_wcnt (i : Nat) (w : Word) (s : State) : (storeNode i w s).wcnt = s.wcnt := rfl
@[simp] theorem storeNode_rbuf (i : Nat) (w : Word) (s : State) : (storeNode i w s).rbuf = s.rbuf := rfl
@[simp] theorem storeNode_rcnt (i : Nat) (w : Word) (s : State) : (storeNode i w s).rcnt = s.rcnt := rfl
@[simp] theorem storeNode_sinData (i : Nat) (w : Word) (s : State) : (storeNode i w s).sinData = s.sinData := rfl
@[simp] theorem storeNode_sinPos (i : Nat) (w : Word) (s : State) : (storeNode i w s).sinPos = s.sinPos := rfl
@[simp] theorem storeNode_sout (i : Nat) (w : Word) (s : State) : (storeNode i w s).sout = s.sout := rfl
@[simp] theorem storeNode_portScript (i : Nat) (w : Word) (s : State) :
    (storeNode i w s).portScript = s.portScript := rfl
@[simp] theorem storeNode_actions (i : Nat) (w : Word) (s : State) : (storeNode i w s).actions = s.actions := rfl
@[simp] theorem storeNode_readLog (i : Nat) (w : Word) (s : State) : (storeNode i w s).readLog = s.readLog := rfl

/-! ### `softReset` writes the block and leaves the environment and the host -/

@[simp] theorem softReset_err (s : State) : (softReset s).err = 0 := rfl
@[simp] theorem softReset_tvalid (s : State) : (softReset s).tvalid = false := rfl
@[simp] theorem softReset_tblv (s : State) : (softReset s).tblv = false := rfl
@[simp] theorem softReset_eosseen (s : State) : (softReset s).eosseen = false := rfl
@[simp] theorem softReset_trunc (s : State) : (softReset s).trunc = false := rfl
@[simp] theorem softReset_result (s : State) : (softReset s).result = 0 := rfl
@[simp] theorem softReset_root (s : State) : (softReset s).root = 0 := rfl
@[simp] theorem softReset_etidx (s : State) : (softReset s).etidx = 0 := rfl
@[simp] theorem softReset_tmem (s : State) : (softReset s).tmem = [] := rfl
@[simp] theorem softReset_etab (s : State) : (softReset s).etab = [] := rfl
@[simp] theorem softReset_wacc (s : State) : (softReset s).wacc = 0 := rfl
@[simp] theorem softReset_wcnt (s : State) : (softReset s).wcnt = 0 := rfl
@[simp] theorem softReset_rbuf (s : State) : (softReset s).rbuf = 0 := rfl
@[simp] theorem softReset_rcnt (s : State) : (softReset s).rcnt = 0 := rfl
@[simp] theorem softReset_sinData (s : State) : (softReset s).sinData = s.sinData := rfl
@[simp] theorem softReset_sinPos (s : State) : (softReset s).sinPos = s.sinPos := rfl
@[simp] theorem softReset_sout (s : State) : (softReset s).sout = s.sout := rfl
@[simp] theorem softReset_portScript (s : State) : (softReset s).portScript = s.portScript := rfl
@[simp] theorem softReset_actions (s : State) : (softReset s).actions = s.actions := rfl
@[simp] theorem softReset_readLog (s : State) : (softReset s).readLog = s.readLog := rfl

/-! ### `Run` -/

variable {α β γ : Type}

@[simp] theorem andThen_ok (a : α) (s : State) (f : α → State → Run β) : (Run.ok a s).andThen f = f a s := rfl
@[simp] theorem andThen_raise (k : ErrKind) (s : State) (f : α → State → Run β) :
    (Run.raise k s).andThen f = .raise k s := rfl
@[simp] theorem andThen_stuck (w : Fault) (f : α → State → Run β) : (Run.stuck w).andThen f = .stuck w := rfl

theorem andThen_assoc (r : Run α) (f : α → State → Run β) (g : β → State → Run γ) :
    (r.andThen f).andThen g = r.andThen fun a s => (f a s).andThen g := by
  cases r <;> rfl

@[simp] theorem translate_ok (a : α) (s : State) (k l : ErrKind) : (Run.ok a s).translate k l = .ok a s := rfl
@[simp] theorem translate_raise (j : ErrKind) (s : State) (k l : ErrKind) :
    (Run.raise j s : Run α).translate k l = .raise (if j = k then l else j) s := rfl
@[simp] theorem translate_stuck (w : Fault) (k l : ErrKind) : (Run.stuck w : Run α).translate k l = .stuck w := rfl

@[simp] theorem onRaise_ok (a : α) (s : State) (f : State → State) : (Run.ok a s).onRaise f = .ok a s := rfl
@[simp] theorem onRaise_raise (k : ErrKind) (s : State) (f : State → State) :
    (Run.raise k s : Run α).onRaise f = .raise k (f s) := rfl
@[simp] theorem onRaise_stuck (w : Fault) (f : State → State) : (Run.stuck w : Run α).onRaise f = .stuck w := rfl

@[simp] theorem onLeave_ok (a : α) (s : State) (f : State → State) : (Run.ok a s).onLeave f = .ok a (f s) := rfl
@[simp] theorem onLeave_raise (k : ErrKind) (s : State) (f : State → State) :
    (Run.raise k s : Run α).onLeave f = .raise k (f s) := rfl
@[simp] theorem onLeave_stuck (w : Fault) (f : State → State) : (Run.stuck w : Run α).onLeave f = .stuck w := rfl

/-- Every state a run can end in, normally or by a raise, meets `P`. -/
def Run.Ends (r : Run α) (P : State → Prop) : Prop :=
  match r with
  | .ok _ t => P t
  | .raise _ t => P t
  | .stuck _ => True

/-- Every kind a run can raise meets `P`. -/
def Run.Raises (r : Run α) (P : ErrKind → Prop) : Prop :=
  match r with
  | .ok _ _ => True
  | .raise k _ => P k
  | .stuck _ => True

/-- A run is not stuck. -/
def Run.Runs (r : Run α) : Prop :=
  match r with
  | .ok _ _ => True
  | .raise _ _ => True
  | .stuck _ => False

theorem Run.Ends.mono {r : Run α} {P Q : State → Prop} (h : r.Ends P) (hpq : ∀ t, P t → Q t) : r.Ends Q := by
  cases r <;> first | exact hpq _ h | trivial

theorem Run.Ends.andThen {r : Run α} {f : α → State → Run β} {P Q : State → Prop} (h : r.Ends P)
    (hraise : ∀ t, P t → Q t) (hf : ∀ a t, P t → (f a t).Ends Q) : (r.andThen f).Ends Q := by
  cases r with
  | ok a t => exact hf a t h
  | raise k t => exact hraise t h
  | stuck w => trivial

theorem Run.Ends.translate {r : Run α} {P : State → Prop} (h : r.Ends P) (k l : ErrKind) :
    (r.translate k l).Ends P := by
  cases r <;> exact h

theorem Run.Ends.onRaise {r : Run α} {P Q : State → Prop} {f : State → State} (h : r.Ends P)
    (hok : ∀ t, P t → Q t) (hf : ∀ t, P t → Q (f t)) : (r.onRaise f).Ends Q := by
  cases r with
  | ok a t => exact hok t h
  | raise k t => exact hf t h
  | stuck w => trivial

theorem Run.Ends.onLeave {r : Run α} {P Q : State → Prop} {f : State → State} (h : r.Ends P)
    (hf : ∀ t, P t → Q (f t)) : (r.onLeave f).Ends Q := by
  cases r with
  | ok a t => exact hf t h
  | raise k t => exact hf t h
  | stuck w => trivial

theorem Run.Runs.andThen {r : Run α} {f : α → State → Run β} (h : r.Runs) (hf : ∀ a t, (f a t).Runs) :
    (r.andThen f).Runs := by
  cases r with
  | ok a t => exact hf a t
  | raise k t => trivial
  | stuck w => exact h

theorem Run.Runs.translate {r : Run α} (h : r.Runs) (k l : ErrKind) : (r.translate k l).Runs := by
  cases r <;> exact h

theorem Run.Runs.onRaise {r : Run α} (h : r.Runs) (f : State → State) : (r.onRaise f).Runs := by
  cases r <;> exact h

theorem Run.Runs.onLeave {r : Run α} (h : r.Runs) (f : State → State) : (r.onLeave f).Runs := by
  cases r <;> exact h

theorem Run.Raises.andThen {r : Run α} {f : α → State → Run β} {P : ErrKind → Prop} (h : r.Raises P)
    (hf : ∀ a t, (f a t).Raises P) : (r.andThen f).Raises P := by
  cases r with
  | ok a t => exact hf a t
  | raise k t => exact h
  | stuck w => trivial

/-- Raises along a run, given what its states meet on the way. -/
theorem Run.Raises.andThen_of {r : Run α} {f : α → State → Run β} {K : ErrKind → Prop} {P : State → Prop}
    (h : r.Raises K) (he : r.Ends P) (hf : ∀ a t, P t → (f a t).Raises K) : (r.andThen f).Raises K := by
  cases r with
  | ok a t => exact hf a t he
  | raise k t => exact h
  | stuck w => trivial

theorem Run.Raises.onRaise {r : Run α} {K : ErrKind → Prop} (h : r.Raises K) (f : State → State) :
    (r.onRaise f).Raises K := by
  cases r <;> exact h

theorem Run.Raises.mono {r : Run α} {P Q : ErrKind → Prop} (h : r.Raises P) (hpq : ∀ k, P k → Q k) :
    r.Raises Q := by
  cases r <;> first | exact hpq _ h | trivial

/-! ### `command`: what the host can see of one -/

/-- A command ignored in the fault state (R282). -/
theorem command_fault {body : State → Run Unit} {s : State} (h : s.err ≠ 0) : command body s = .next s :=
  if_pos h

/-- A command outside the fault state: each way its body can end. -/
theorem command_ok {body : State → Run Unit} {s t : State} (h : s.err = 0) (hb : body s = .ok () t) :
    command body s = .next t := by
  simp [command, h, hb]

theorem command_raise {body : State → Run Unit} {s t : State} {k : ErrKind} (h : s.err = 0)
    (hb : body s = .raise k t) : command body s = .next (faultEntry k t) := by
  simp [command, h, hb]

/-- A command whose body is not stuck answers a next state. -/
theorem command_runs {body : State → Run Unit} {s : State} (h : s.err = 0 → (body s).Runs) :
    ∃ t, command body s = .next t := by
  by_cases he : s.err = 0
  · cases hb : body s with
    | ok a t => exact ⟨t, command_ok he hb⟩
    | raise k t => exact ⟨_, command_raise he hb⟩
    | stuck w => have := h he; rw [hb] at this; exact this.elim
  · exact ⟨s, command_fault he⟩

/-- If a command answers a next state, it was ignored, or its body ended normally or by a raise. -/
theorem command_next {body : State → Run Unit} {s t : State} (h : command body s = .next t) :
    (s.err ≠ 0 ∧ t = s) ∨
      (s.err = 0 ∧ (body s = .ok () t ∨ ∃ k u, body s = .raise k u ∧ t = faultEntry k u)) := by
  unfold command at h
  split at h
  · left; rename_i he; exact ⟨he, by cases h; rfl⟩
  · rename_i he
    right
    refine ⟨by simpa using he, ?_⟩
    cases hb : body s with
    | ok a u => rw [hb] at h; left; cases h; rfl
    | raise k u => rw [hb] at h; right; cases h; exact ⟨k, u, rfl, rfl⟩
    | stuck w => rw [hb] at h; cases h

end Sys2Proof.Machine
end

