-- ==== Sys2Proof/Laws/Words.lean ====
section
/-! SUPPORT. Bit sequences and words: `bitsOf` and `valueOf` are inverse, bytes pack and unpack, and the
fields of `LEAFW` and `NODEW` words (spec 00_scope.md R9, 20_memory.md R66, R67, 10_state.md R31). -/

namespace Sys2Proof.Machine

@[simp] theorem bitsOf_length {w : Nat} (n : Nat) (v : BitVec w) : (bitsOf n v).length = n := by
  induction n with
  | zero => rfl
  | succ n ih => simp [bitsOf, ih]

theorem bitsOf_congr {w w' : Nat} (n : Nat) (v : BitVec w) (v' : BitVec w')
    (h : ∀ i < n, v.getLsbD i = v'.getLsbD i) : bitsOf n v = bitsOf n v' := by
  induction n with
  | zero => rfl
  | succ n ih =>
    simp only [bitsOf]
    rw [h n (by omega), ih fun i hi => h i (by omega)]

theorem valueOf_getLsbD (n : Nat) (p : Bits) (i : Nat) (hi : i < n) :
    (valueOf n p).getLsbD i = (p[n - 1 - i]?).getD false := by
  induction n generalizing p i with
  | zero => omega
  | succ n ih =>
    cases p with
    | nil => simp [valueOf]
    | cons b p =>
      simp only [valueOf, BitVec.getLsbD_cons]
      by_cases h : i = n
      · subst h; simp
      · rw [if_neg h, ih p i (by omega)]
        have : n + 1 - 1 - i = (n - 1 - i) + 1 := by omega
        rw [this]; simp

theorem valueOf_bitsOf {n : Nat} (v : BitVec n) : valueOf n (bitsOf n v) = v := by
  suffices h : ∀ (w m : Nat) (u : BitVec w), m ≤ w → valueOf m (bitsOf m u) = u.setWidth m by
    simpa using h n n v (le_refl n)
  intro w m u
  induction m with
  | zero => intro _; exact Subsingleton.elim _ _
  | succ m ih =>
    intro hm
    simp only [bitsOf, valueOf]
    rw [ih (by omega)]
    apply BitVec.eq_of_getLsbD_eq
    intro i hi
    rw [BitVec.getLsbD_cons]
    by_cases h : i = m
    · subst h; simp
    · rw [if_neg h]
      simp only [BitVec.getLsbD_setWidth]
      have h1 : i < m := by omega
      have h2 : i < m + 1 := by omega
      simp [h1, h2]

theorem bitsOf_valueOf (n : Nat) (p : Bits) (h : p.length = n) : bitsOf n (valueOf n p) = p := by
  induction n generalizing p with
  | zero => cases p with
    | nil => rfl
    | cons _ _ => simp at h
  | succ n ih =>
    cases p with
    | nil => simp at h
    | cons b p =>
      simp only [valueOf, bitsOf, BitVec.getLsbD_cons, if_true]
      congr 1
      rw [bitsOf_congr n _ (valueOf n p), ih p (by simpa using h)]
      intro i hi
      rw [BitVec.getLsbD_cons, if_neg (by omega)]

/-! ### Bytes -/

@[simp] theorem bitsOfBytes_nil : bitsOfBytes [] = [] := rfl
@[simp] theorem bitsOfBytes_cons (b : Byte) (bs : List Byte) :
    bitsOfBytes (b :: bs) = bitsOf 8 b ++ bitsOfBytes bs := rfl
@[simp] theorem bitsOfBytes_append (as bs : List Byte) :
    bitsOfBytes (as ++ bs) = bitsOfBytes as ++ bitsOfBytes bs := by
  simp [bitsOfBytes]
@[simp] theorem bitsOfBytes_length (bs : List Byte) : (bitsOfBytes bs).length = 8 * bs.length := by
  induction bs with
  | nil => rfl
  | cons b bs ih => simp [ih]; omega

/-- Eight bits make one byte. -/
theorem packBytes_eight (p q : Bits) (h : p.length = 8) : packBytes (p ++ q) = valueOf 8 p :: packBytes q := by
  match p, h with
  | [_, _, _, _, _, _, _, _], _ => rfl

/-- Packing the bits of bytes gives the bytes back. -/
theorem packBytes_bitsOfBytes (bs : List Byte) : packBytes (bitsOfBytes bs) = bs := by
  induction bs with
  | nil => rfl
  | cons b bs ih => rw [bitsOfBytes_cons, packBytes_eight _ _ (bitsOf_length 8 b), ih, valueOf_bitsOf]

/-- The bits of packed bytes are the bits packed, for a whole number of bytes. -/
theorem bitsOfBytes_packBytes (n : Nat) (p : Bits) (h : p.length = 8 * n) : bitsOfBytes (packBytes p) = p := by
  induction n generalizing p with
  | zero => cases p with
    | nil => rfl
    | cons _ _ => simp at h
  | succ n ih =>
    have hp : p = p.take 8 ++ p.drop 8 := (List.take_append_drop 8 p).symm
    have h8 : (p.take 8).length = 8 := by simp; omega
    rw [hp, packBytes_eight _ _ h8, bitsOfBytes_cons, bitsOf_valueOf 8 _ h8, ih _ (by simp; omega)]

theorem bitsOfBytes_injective {as bs : List Byte} (h : bitsOfBytes as = bitsOfBytes bs) : as = bs := by
  rw [← packBytes_bitsOfBytes as, h, packBytes_bitsOfBytes]

/-- A padded bit sequence is a whole number of bytes. -/
theorem padTo8_length (p : Bits) : (padTo8 p).length % 8 = 0 := by
  simp [padTo8]; omega

theorem bitsOfBytes_packBytes_padTo8 (p : Bits) : bitsOfBytes (packBytes (padTo8 p)) = padTo8 p :=
  bitsOfBytes_packBytes ((padTo8 p).length / 8) _ (by have := padTo8_length p; omega)

theorem packBytes_append (n : Nat) (p q : Bits) (h : p.length = 8 * n) :
    packBytes (p ++ q) = packBytes p ++ packBytes q := by
  induction n generalizing p with
  | zero => cases p with
    | nil => rfl
    | cons _ _ => simp at h
  | succ n ih =>
    have hp : p = p.take 8 ++ p.drop 8 := (List.take_append_drop 8 p).symm
    have h8 : (p.take 8).length = 8 := by simp; omega
    rw [hp, List.append_assoc, packBytes_eight _ _ h8, packBytes_eight _ _ h8, ih _ (by simp; omega),
      List.cons_append]

/-- Padding looks only at what follows the last byte boundary. -/
theorem padTo8_append (n : Nat) (a p : Bits) (h : a.length = 8 * n) : padTo8 (a ++ p) = a ++ padTo8 p := by
  simp only [padTo8, List.append_assoc, List.length_append, h]
  congr 4; omega

/-! ### One bit placed into the writer's byte -/

/-- Placing a bit at position 7 − k appends it to the k bits already there. -/
theorem bitsOf_placeBit (x : Byte) (k : Nat) (hk : k < 8) (b : Bool) :
    (bitsOf 8 (placeBit x (7 - k) b)).take (k + 1) = (bitsOf 8 x).take k ++ [b] := by
  have key : ∀ (x : Byte) (k : Fin 8) (b : Bool),
      (bitsOf 8 (placeBit x (7 - k.val) b)).take (k.val + 1) = (bitsOf 8 x).take k.val ++ [b] := by
    decide +kernel
  exact key x ⟨k, hk⟩ b

/-- Placing a bit keeps the unwritten bits 0. -/
theorem placeBit_clean (x : Byte) (k : Nat) (hk : k < 8) (b : Bool) (h : x <<< k = 0) :
    placeBit x (7 - k) b <<< (k + 1) = 0 := by
  have key : ∀ (x : Byte) (k : Fin 8) (b : Bool), x <<< k.val = 0 → placeBit x (7 - k.val) b <<< (k.val + 1) = 0 := by
    decide +kernel
  exact key x ⟨k, hk⟩ b h

/-- A clean byte is its written bits and zeros. -/
theorem bitsOf_clean (x : Byte) (k : Nat) (hk : k < 8) (h : x <<< k = 0) :
    bitsOf 8 x = (bitsOf 8 x).take k ++ List.replicate (8 - k) false := by
  have key : ∀ (x : Byte) (k : Fin 8), x <<< k.val = 0 →
      bitsOf 8 x = (bitsOf 8 x).take k.val ++ List.replicate (8 - k.val) false := by
    decide +kernel
  exact key x ⟨k, hk⟩ h

/-! ### Values assembled by `read_bits` -/

/-- Up to 32 bits shifted into 0 are their value. -/
theorem foldl_shiftInBit (p : Bits) (n : Nat) (hp : p.length = n) (hn : n ≤ 32) :
    p.foldl shiftInBit 0 = (valueOf n p).setWidth 32 := by
  subst hp
  apply BitVec.eq_of_getLsbD_eq
  intro i hi
  have gen : ∀ (p : Bits) (v : Word) (i : Nat), i < 32 →
      (p.foldl shiftInBit v).getLsbD i =
        if i < p.length then (p[p.length - 1 - i]?).getD false else v.getLsbD (i - p.length) := by
    intro p
    induction p with
    | nil => intro v i _; simp
    | cons b p ih =>
      intro v i hi
      simp only [List.foldl_cons, List.length_cons]
      rw [ih _ i hi]
      by_cases h : i < p.length
      · rw [if_pos h, if_pos (by omega)]
        have : p.length + 1 - 1 - i = (p.length - 1 - i) + 1 := by omega
        rw [this]; simp
      · rw [if_neg h]
        by_cases h2 : i = p.length
        · subst h2; simp [shiftInBit]
        · rw [if_neg (by omega)]
          simp only [shiftInBit, BitVec.getLsbD_or, BitVec.getLsbD_shiftLeft, BitVec.getLsbD_setWidth]
          have h3 : ¬ (i - p.length < 1) := by omega
          have h4 : i - p.length < 32 := by omega
          have h5 : i - p.length - 1 = i - (p.length + 1) := by omega
          have h6 : (BitVec.ofBool b).getLsbD (i - p.length) = false := by
            apply BitVec.getLsbD_of_ge; omega
          simp [h3, h4, h5, h6]
  rw [gen p 0 i hi, BitVec.getLsbD_setWidth]
  by_cases h : i < p.length
  · rw [if_pos h, valueOf_getLsbD _ _ _ h]; simp [hi]
  · rw [if_neg h, BitVec.getLsbD_of_ge (valueOf p.length p) i (by omega)]; simp

/-! ### Node words -/

@[simp] theorem nodeV_leafWord (s : Sym) : nodeV (leafWord s) = true := by
  simp [nodeV, leafWord]
@[simp] theorem nodeLeaf_leafWord (s : Sym) : nodeLeaf (leafWord s) = true := by
  simp [nodeLeaf, leafWord]
@[simp] theorem nodeSym_leafWord (s : Sym) : nodeSym (leafWord s) = s := by
  revert s; decide +kernel
@[simp] theorem nodeReserved_leafWord (s : Sym) : nodeReserved (leafWord s) = 0 := by
  revert s; decide +kernel
@[simp] theorem nodeLeafReserved_leafWord (s : Sym) : nodeLeafReserved (leafWord s) = 0 := by
  revert s; decide +kernel

theorem bit31_only (i : Nat) (hi : i < 32) : (0x80000000#32).getLsbD i = decide (i = 31) := by
  have key : ∀ i : Fin 32, (0x80000000#32).getLsbD i.val = decide (i.val = 31) := by decide
  exact key ⟨i, hi⟩

theorem bits31_30_only (i : Nat) (hi : i < 32) : (0xC0000000#32).getLsbD i = decide (30 ≤ i) := by
  have key : ∀ i : Fin 32, (0xC0000000#32).getLsbD i.val = decide (30 ≤ i.val) := by decide
  exact key ⟨i, hi⟩

/-- Each bit of a `NODEW(l, r)` word (R31). -/
theorem nodeWord_getLsbD (l r : NodeIdx) (i : Nat) (hi : i < 32) :
    (nodeWord l r).getLsbD i =
      if i < 10 then r.getLsbD i else if i < 20 then l.getLsbD (i - 10) else decide (i = 31) := by
  rw [nodeWord, BitVec.getLsbD_or, BitVec.getLsbD_or, bit31_only i hi, BitVec.getLsbD_shiftLeft,
    BitVec.getLsbD_setWidth, BitVec.getLsbD_setWidth]
  have h31 : i - 10 < 32 := by omega
  by_cases h1 : i < 10
  · have : ¬ (i = 31) := by omega
    simp only [h1, hi, this, h31, decide_true, decide_false, Bool.not_true, Bool.and_false, Bool.false_and,
      Bool.true_and, Bool.false_or, if_true]
  · by_cases h2 : i < 20
    · have : ¬ (i = 31) := by omega
      rw [BitVec.getLsbD_of_ge r i (by omega)]
      simp only [h1, h2, hi, this, h31, decide_true, decide_false, Bool.not_false, Bool.true_and, Bool.and_false,
        Bool.false_or, Bool.or_false, if_true, if_false]
    · rw [BitVec.getLsbD_of_ge r i (by omega), BitVec.getLsbD_of_ge l (i - 10) (by omega)]
      simp only [h1, h2, Bool.and_false, Bool.or_false, if_false]

/-- Each bit of a `LEAFW(s)` word (R31). -/
theorem leafWord_getLsbD (s : Sym) (i : Nat) (hi : i < 32) :
    (leafWord s).getLsbD i = if i < 9 then s.getLsbD i else decide (30 ≤ i) := by
  rw [leafWord, BitVec.getLsbD_or, bits31_30_only i hi, BitVec.getLsbD_setWidth]
  by_cases h1 : i < 9
  · have : ¬ (30 ≤ i) := by omega
    simp only [h1, hi, this, decide_true, decide_false, Bool.true_and, Bool.false_or, if_true]
  · rw [BitVec.getLsbD_of_ge s i (by omega)]
    simp only [h1, Bool.and_false, Bool.or_false, if_false]

@[simp] theorem nodeV_nodeWord (l r : NodeIdx) : nodeV (nodeWord l r) = true := by
  rw [nodeV, nodeWord_getLsbD l r 31 (by decide)]; rfl
@[simp] theorem nodeLeaf_nodeWord (l r : NodeIdx) : nodeLeaf (nodeWord l r) = false := by
  rw [nodeLeaf, nodeWord_getLsbD l r 30 (by decide)]; rfl
@[simp] theorem nodeLeft_nodeWord (l r : NodeIdx) : nodeLeft (nodeWord l r) = l := by
  apply BitVec.eq_of_getLsbD_eq; intro i hi
  rw [nodeLeft, BitVec.getLsbD_extractLsb', nodeWord_getLsbD l r _ (by omega), if_neg (by omega), if_pos (by omega)]
  simp [hi]
@[simp] theorem nodeRight_nodeWord (l r : NodeIdx) : nodeRight (nodeWord l r) = r := by
  apply BitVec.eq_of_getLsbD_eq; intro i hi
  rw [nodeRight, BitVec.getLsbD_extractLsb', nodeWord_getLsbD l r _ (by omega), if_pos (by omega)]
  simp [hi]
@[simp] theorem nodeReserved_nodeWord (l r : NodeIdx) : nodeReserved (nodeWord l r) = 0 := by
  apply BitVec.eq_of_getLsbD_eq; intro i hi
  rw [nodeReserved, BitVec.getLsbD_extractLsb', nodeWord_getLsbD l r _ (by omega), if_neg (by omega),
    if_neg (by omega)]
  have : ¬ (20 + i = 31) := by omega
  simp [this]

/-- Reserved bits read one by one. -/
theorem nodeReserved_bit {w : Word} (h : nodeReserved w = 0) (i : Nat) (h1 : 20 ≤ i) (h2 : i < 30) :
    w.getLsbD i = false := by
  have := congrArg (fun v : BitVec 10 => v.getLsbD (i - 20)) h
  simp only [nodeReserved, BitVec.getLsbD_extractLsb'] at this
  have h5 : i - 20 < 10 := by omega
  have h6 : 20 + (i - 20) = i := by omega
  rw [h6] at this
  simp only [h5, decide_true, Bool.true_and] at this
  exact this.trans BitVec.getLsbD_zero

theorem nodeLeafReserved_bit {w : Word} (h : nodeLeafReserved w = 0) (i : Nat) (h1 : 9 ≤ i) (h2 : i < 20) :
    w.getLsbD i = false := by
  have := congrArg (fun v : BitVec 11 => v.getLsbD (i - 9)) h
  simp only [nodeLeafReserved, BitVec.getLsbD_extractLsb'] at this
  have h5 : i - 9 < 11 := by omega
  have h6 : 9 + (i - 9) = i := by omega
  rw [h6] at this
  simp only [h5, decide_true, Bool.true_and] at this
  exact this.trans BitVec.getLsbD_zero

/-- A word whose V and LEAF are 1 and whose reserved bits are 0 is a `LEAFW` word. -/
theorem eq_leafWord {w : Word} (hv : nodeV w = true) (hl : nodeLeaf w = true) (h1 : nodeReserved w = 0)
    (h2 : nodeLeafReserved w = 0) : w = leafWord (nodeSym w) := by
  apply BitVec.eq_of_getLsbD_eq
  intro i hi
  rw [leafWord_getLsbD _ i hi]
  by_cases ha : i < 9
  · rw [if_pos ha, nodeSym, BitVec.getLsbD_extractLsb']
    simp only [ha, decide_true, Bool.true_and, Nat.zero_add]
  · rw [if_neg ha]
    by_cases hb : i < 30
    · have hd : ¬ (30 ≤ i) := by omega
      simp only [hd, decide_false]
      by_cases hc : i < 20
      · exact nodeLeafReserved_bit h2 i (by omega) hc
      · exact nodeReserved_bit h1 i (by omega) hb
    · have hc : i = 30 ∨ i = 31 := by omega
      rcases hc with rfl | rfl
      · exact hl
      · exact hv

/-- A word whose V is 1, whose LEAF is 0 and whose reserved bits are 0 is a `NODEW` word. -/
theorem eq_nodeWord {w : Word} (hv : nodeV w = true) (hl : nodeLeaf w = false) (h1 : nodeReserved w = 0) :
    w = nodeWord (nodeLeft w) (nodeRight w) := by
  apply BitVec.eq_of_getLsbD_eq
  intro i hi
  rw [nodeWord_getLsbD _ _ i hi]
  by_cases ha : i < 10
  · rw [if_pos ha, nodeRight, BitVec.getLsbD_extractLsb']
    simp only [ha, decide_true, Bool.true_and, Nat.zero_add]
  · rw [if_neg ha]
    by_cases hb : i < 20
    · have h3 : i - 10 < 10 := by omega
      have h4 : 10 + (i - 10) = i := by omega
      rw [if_pos hb, nodeLeft, BitVec.getLsbD_extractLsb', h4]
      simp only [h3, decide_true, Bool.true_and]
    · rw [if_neg hb]
      by_cases hc : i < 30
      · have hd : ¬ (i = 31) := by omega
        simp only [hd, decide_false]
        exact nodeReserved_bit h1 i (by omega) hc
      · have hd : i = 30 ∨ i = 31 := by omega
        rcases hd with rfl | rfl
        · exact hl
        · exact hv

end Sys2Proof.Machine
end

