-- ==== Sys2Proof/Laws/BitUnit.lean ====
section
/-! SUPPORT. The ports and the bit-stream unit: what each procedure does where no access fails, and what it
leaves unchanged on every path (spec 20_memory.md R73, R75; 44_bitstream.md R220 to R224). -/

namespace Sys2Proof.Machine

/-! ### What the reader's and the writer's procedures leave unchanged -/

/-- The reader's frame, with the order its cursor and the answers move in. -/
structure ReaderStep (s t : State) : Prop where
  only : ReaderOnly s t
  answers : t.portScript <:+ s.portScript
  forward : s.sinPos ≤ t.sinPos
  inside : s.sinPos ≤ s.sinData.length → t.sinPos ≤ s.sinData.length

/-- The writer's frame, with the order SOUT and the answers move in. -/
structure WriterStep (s t : State) : Prop where
  only : WriterOnly s t
  answers : t.portScript <:+ s.portScript
  grows : s.sout <+: t.sout
  clean : writerClean s → writerClean t

theorem portsOk_of_suffix {s t : State} (h : t.portScript <:+ s.portScript) (hs : portsOk s) : portsOk t :=
  fun a ha => hs a (h.subset ha)

theorem ReaderStep.portsOk {s t : State} (h : ReaderStep s t) (hs : portsOk s) : Sys2Proof.Machine.portsOk t :=
  portsOk_of_suffix h.answers hs

theorem WriterStep.portsOk {s t : State} (h : WriterStep s t) (hs : portsOk s) : Sys2Proof.Machine.portsOk t :=
  portsOk_of_suffix h.answers hs

theorem ReaderStep.refl (s : State) : ReaderStep s s := ⟨rfl, List.suffix_refl _, le_refl _, id⟩

theorem WriterStep.refl (s : State) : WriterStep s s := ⟨rfl, List.suffix_refl _, List.prefix_refl _, id⟩

theorem ReaderStep.trans {s t u : State} (h1 : ReaderStep s t) (h2 : ReaderStep t u) : ReaderStep s u where
  only := by
    have e1 := h1.only
    have e2 := h2.only
    unfold ReaderOnly at *
    rw [e1] at e2
    exact e2
  answers := h2.answers.trans h1.answers
  forward := le_trans h1.forward h2.forward
  inside := fun h => by
    have e : t.sinData = s.sinData := by rw [h1.only]
    have := h2.inside (by rw [e]; exact h1.inside h)
    rwa [e] at this

theorem WriterStep.trans {s t u : State} (h1 : WriterStep s t) (h2 : WriterStep t u) : WriterStep s u where
  only := by
    have e1 := h1.only
    have e2 := h2.only
    unfold WriterOnly at *
    rw [e1] at e2
    exact e2
  answers := h2.answers.trans h1.answers
  grows := h1.grows.trans h2.grows
  clean := fun h => h2.clean (h1.clean h)

/-! ### The ports -/

theorem nextAccessFails_of_portsOk {s : State} (h : portsOk s) : nextAccessFails s = false := by
  unfold nextAccessFails
  cases hs : s.portScript with
  | nil => rfl
  | cons a l => exact h a (by rw [hs]; exact List.mem_cons_self)

theorem useAnswer_readerStep (s : State) : ReaderStep s s.useAnswer :=
  ⟨rfl, List.tail_suffix _, le_refl _, id⟩

theorem useAnswer_writerStep (s : State) : WriterStep s s.useAnswer :=
  ⟨rfl, List.tail_suffix _, List.prefix_refl _, id⟩

/-- All that `pull()` can do (R73). -/
theorem pull_cases (s : State) :
    (nextAccessFails s = true ∧ pull s = (.ioerror, s.useAnswer)) ∨
    (nextAccessFails s = false ∧ s.sinData.length ≤ s.sinPos ∧ pull s = (.exhausted, s.useAnswer)) ∨
    (∃ h : s.sinPos < s.sinData.length, nextAccessFails s = false ∧
      pull s = (.byte s.sinData[s.sinPos], { s.useAnswer with sinPos := s.sinPos + 1 })) := by
  unfold pull
  cases hf : nextAccessFails s with
  | true => left; simp
  | false =>
    right
    by_cases h : s.sinPos < s.sinData.length
    · right; exact ⟨h, rfl, by simp [h]⟩
    · left; exact ⟨rfl, by omega, by simp [show s.sinData.length ≤ s.sinPos by omega]⟩

/-- A pull that fails (R73). -/
theorem pull_fails {s : State} (h : nextAccessFails s = true) : pull s = (.ioerror, s.useAnswer) := by
  rw [pull, if_pos h]

/-- A pull at the end of SIN (R73). -/
theorem pull_exhausted {s : State} (h : nextAccessFails s = false) (hx : s.sinData[s.sinPos]? = none) :
    pull s = (.exhausted, s.useAnswer) := by
  rw [pull, if_neg (by simp [h]), hx]

/-- A pull of a byte (R73). -/
theorem pull_byte {s : State} {x : Byte} (h : nextAccessFails s = false) (hx : s.sinData[s.sinPos]? = some x) :
    pull s = (.byte x, { s.useAnswer with sinPos := s.sinPos + 1 }) := by
  rw [pull, if_neg (by simp [h]), hx]

theorem pull_step (s : State) : ReaderStep s (pull s).2 := by
  rcases pull_cases s with ⟨_, h⟩ | ⟨_, _, h⟩ | ⟨hl, _, h⟩ <;> rw [h]
  · exact useAnswer_readerStep s
  · exact useAnswer_readerStep s
  · exact ⟨rfl, List.tail_suffix _, Nat.le_succ _, fun _ => hl⟩

/-- All that `push(b)` can do (R75). -/
theorem push_cases (b : Byte) (s : State) :
    (nextAccessFails s = true ∧ push b s = (.ioerror, s.useAnswer)) ∨
    (nextAccessFails s = false ∧ push b s = (.ok, { s.useAnswer with sout := s.sout ++ [b] })) := by
  unfold push
  cases hf : nextAccessFails s with
  | true => left; simp
  | false => right; simp

/-- A push that fails (R75). -/
theorem push_fails {b : Byte} {s : State} (h : nextAccessFails s = true) : push b s = (.ioerror, s.useAnswer) := by
  rw [push, if_pos h]

/-- A push that appends its byte (R75). -/
theorem push_appends {b : Byte} {s : State} (h : nextAccessFails s = false) :
    push b s = (.ok, { s.useAnswer with sout := s.sout ++ [b] }) := by
  rw [push, if_neg (by simp [h])]

theorem push_step (b : Byte) (s : State) : WriterStep s (push b s).2 := by
  rcases push_cases b s with ⟨_, h⟩ | ⟨_, h⟩ <;> rw [h]
  · exact useAnswer_writerStep s
  · exact ⟨rfl, List.tail_suffix _, List.prefix_append _ _, id⟩

/-! ### The reader -/

theorem readBit_ends (s : State) : (readBit s).Ends (ReaderStep s) := by
  unfold readBit
  split
  · have hp := pull_step s
    rcases pull_cases s with ⟨_, h⟩ | ⟨_, _, h⟩ | ⟨hl, _, h⟩ <;> rw [h] at hp ⊢
    · exact hp
    · exact hp
    · exact ⟨rfl, hp.answers, hp.forward, hp.inside⟩
  · exact ⟨rfl, List.suffix_refl _, le_refl _, id⟩

theorem readBits_ends (n : Nat) (v : Word) (s : State) : (readBits n v s).Ends (ReaderStep s) := by
  induction n generalizing v s with
  | zero => exact ReaderStep.refl s
  | succ n ih =>
    exact (readBit_ends s).andThen (fun _ h => h) fun b t h => (ih _ t).mono fun u hu => h.trans hu

theorem readBit_runs (s : State) : (readBit s).Runs := by
  unfold readBit
  split
  · rcases pull_cases s with ⟨_, h⟩ | ⟨_, _, h⟩ | ⟨_, _, h⟩ <;> rw [h] <;> trivial
  · trivial

theorem readBits_runs (n : Nat) (v : Word) (s : State) : (readBits n v s).Runs := by
  induction n generalizing v s with
  | zero => trivial
  | succ n ih => exact (readBit_runs s).andThen fun b t => ih _ t

theorem unreadBits_length (s : State) : (unreadBits s).length = bitsLeft s := by
  simp [unreadBits, bitsLeft]

/-- Where a bit is left and no access fails, `read_bit()` returns it (R220). -/
theorem readBit_ok {s : State} (hp : portsOk s) {b : Bool} {rest : Bits} (h : unreadBits s = b :: rest) :
    ∃ t, readBit s = .ok b t ∧ unreadBits t = rest ∧ ReaderStep s t := by
  unfold readBit
  by_cases hr : s.rcnt = 0
  · rw [if_pos hr]
    have hr0 : s.rcnt.toNat = 0 := by rw [hr]; rfl
    rcases pull_cases s with ⟨hf, _⟩ | ⟨_, hl, _⟩ | ⟨hl, _, hpull⟩
    · rw [nextAccessFails_of_portsOk hp] at hf; cases hf
    · exfalso
      rw [unreadBits, hr0, List.drop_eq_nil_of_le hl] at h
      cases h
    · have hps := pull_step s
      rw [hpull] at hps ⊢
      rw [unreadBits, hr0, List.drop_eq_getElem_cons hl] at h
      have h' : bitsOf 8 s.sinData[s.sinPos] ++ bitsOfBytes (s.sinData.drop (s.sinPos + 1)) = b :: rest := h
      have h8 : bitsOf 8 s.sinData[s.sinPos] = s.sinData[s.sinPos].getLsbD 7 :: bitsOf 7 s.sinData[s.sinPos] := rfl
      rw [h8, List.cons_append, List.cons.injEq] at h'
      refine ⟨{ s.useAnswer with sinPos := s.sinPos + 1, rbuf := s.sinData[s.sinPos], rcnt := 7 }, ?_, h'.2,
        ⟨rfl, hps.answers, hps.forward, hps.inside⟩⟩
      rw [← h'.1]
  · rw [if_neg hr]
    have hk : s.rcnt.toNat = (s.rcnt - 1).toNat + 1 := by
      have : s.rcnt.toNat ≠ 0 := fun e => hr (BitVec.eq_of_toNat_eq e)
      have := s.rcnt.isLt
      rw [BitVec.toNat_sub]; simp; omega
    rw [unreadBits, hk] at h
    have h' : s.rbuf.getLsbD (s.rcnt - 1).toNat ::
        (bitsOf (s.rcnt - 1).toNat s.rbuf ++ bitsOfBytes (s.sinData.drop s.sinPos)) = b :: rest := h
    rw [List.cons.injEq] at h'
    exact ⟨{ s with rcnt := s.rcnt - 1 }, by rw [h'.1], h'.2, ⟨rfl, List.suffix_refl _, le_refl _, id⟩⟩

/-- Where no bit is left, SIN is exhausted and RCNT is 0. -/
theorem exhausted_of_unreadBits_nil {s : State} (h : unreadBits s = []) :
    s.rcnt = 0 ∧ s.sinData.length ≤ s.sinPos := by
  have hl := unreadBits_length s
  rw [h, bitsLeft] at hl
  have h1 : s.rcnt.toNat = 0 := by simp at hl; omega
  refine ⟨BitVec.eq_of_toNat_eq h1, ?_⟩
  simp at hl; omega

/-- Where no bit is left and no access fails, `read_bit()` raises `BitsExhausted` (R220). -/
theorem readBit_exhausted {s : State} (hp : portsOk s) (h : unreadBits s = []) :
    readBit s = .raise .bitsExhausted s.useAnswer := by
  obtain ⟨hr, hl⟩ := exhausted_of_unreadBits_nil h
  unfold readBit
  rw [if_pos hr]
  rcases pull_cases s with ⟨hf, _⟩ | ⟨_, _, hpull⟩ | ⟨hl', _, _⟩
  · rw [nextAccessFails_of_portsOk hp] at hf; cases hf
  · rw [hpull]
  · omega

/-- Where n bits are left and no access fails, `read_bits(n)` returns their value (R221). -/
theorem readBits_ok (n : Nat) (v : Word) {s : State} (hp : portsOk s) {p rest : Bits} (hn : p.length = n)
    (h : unreadBits s = p ++ rest) :
    ∃ t, readBits n v s = .ok (p.foldl shiftInBit v) t ∧ unreadBits t = rest ∧ ReaderStep s t := by
  induction n generalizing v s p with
  | zero =>
    cases p with
    | nil => exact ⟨s, rfl, h, ReaderStep.refl s⟩
    | cons _ _ => simp at hn
  | succ n ih =>
    cases p with
    | nil => simp at hn
    | cons b p =>
      obtain ⟨t, ht, hu, hs⟩ := readBit_ok hp h
      obtain ⟨u, hu1, hu2, hu3⟩ := ih (shiftInBit v b) (hs.portsOk hp) (by simpa using hn) hu
      exact ⟨u, by rw [readBits, ht]; exact hu1, hu2, hs.trans hu3⟩

/-- Where fewer than n bits are left and no access fails, `read_bits(n)` consumes them all and raises
`BitsExhausted` (R221). -/
theorem readBits_exhausted (n : Nat) (v : Word) {s : State} (hp : portsOk s) (h : (unreadBits s).length < n) :
    ∃ t, readBits n v s = .raise .bitsExhausted t ∧ unreadBits t = [] ∧ ReaderStep s t := by
  induction n generalizing v s with
  | zero => omega
  | succ n ih =>
    cases hu : unreadBits s with
    | nil =>
      exact ⟨s.useAnswer, by rw [readBits, readBit_exhausted hp hu]; rfl, hu, useAnswer_readerStep s⟩
    | cons b rest =>
      obtain ⟨t, ht, hu', hs⟩ := readBit_ok hp hu
      obtain ⟨u, hu1, hu2, hu3⟩ := ih (shiftInBit v b) (hs.portsOk hp) (by
        rw [hu'] ; rw [hu] at h; simp at h; omega)
      exact ⟨u, by rw [readBits, ht]; exact hu1, hu2, hs.trans hu3⟩

/-! ### The writer -/

theorem pushByte_ends (x : Byte) (s : State) : (pushByte x s).Ends (WriterStep s) := by
  have hp := push_step x s
  unfold pushByte
  rcases push_cases x s with ⟨_, h⟩ | ⟨_, h⟩ <;> rw [h] at hp ⊢ <;> exact hp

theorem emptyWriter_step (s : State) : WriterStep s { s with wacc := 0, wcnt := 0 } :=
  ⟨rfl, List.suffix_refl _, List.prefix_refl _, fun _ => by
    simp [writerClean]⟩

theorem wcnt_succ {c : BitVec 3} (h : c ≠ 7) : (c + 1).toNat = c.toNat + 1 := by
  have : c.toNat ≠ 7 := fun e => h (BitVec.eq_of_toNat_eq e)
  have := c.isLt
  rw [BitVec.toNat_add]; simp; omega

theorem writeBit_ends (b : Bool) (s : State) : (writeBit b s).Ends (WriterStep s) := by
  unfold writeBit
  split
  · exact (pushByte_ends _ _).mono fun t ht => (emptyWriter_step s).trans ht
  · rename_i h
    refine ⟨rfl, List.suffix_refl _, List.prefix_refl _, fun hc => ?_⟩
    show placeBit s.wacc (7 - s.wcnt.toNat) b <<< (s.wcnt + 1).toNat = 0
    rw [wcnt_succ h]
    exact placeBit_clean _ _ s.wcnt.isLt b hc

theorem writeAll_ends (p : Bits) (s : State) : (writeAll p s).Ends (WriterStep s) := by
  induction p generalizing s with
  | nil => exact WriterStep.refl s
  | cons b p ih => exact (writeBit_ends b s).andThen (fun _ h => h) fun _ t h => (ih t).mono fun u hu => h.trans hu

theorem flushWriter_ends (s : State) : (flushWriter s).Ends (WriterStep s) := by
  unfold flushWriter
  split
  · exact (pushByte_ends _ _).mono fun t ht => (emptyWriter_step s).trans ht
  · exact WriterStep.refl s

theorem pushByte_runs (x : Byte) (s : State) : (pushByte x s).Runs := by
  unfold pushByte
  rcases push_cases x s with ⟨_, h⟩ | ⟨_, h⟩ <;> rw [h] <;> trivial

theorem writeBit_runs (b : Bool) (s : State) : (writeBit b s).Runs := by
  unfold writeBit
  split
  · exact pushByte_runs _ _
  · trivial

theorem writeAll_runs (p : Bits) (s : State) : (writeAll p s).Runs := by
  induction p generalizing s with
  | nil => trivial
  | cons b p ih => exact (writeBit_runs b s).andThen fun _ t => ih t

theorem flushWriter_runs (s : State) : (flushWriter s).Runs := by
  unfold flushWriter
  split
  · exact pushByte_runs _ _
  · trivial

theorem writtenBits_length (s : State) : (writtenBits s).length = 8 * s.sout.length + s.wcnt.toNat := by
  have := s.wcnt.isLt
  simp [writtenBits]; omega

theorem pushByte_ok {x : Byte} {s : State} (hp : portsOk s) :
    pushByte x s = .ok () { s.useAnswer with sout := s.sout ++ [x] } := by
  unfold pushByte
  rcases push_cases x s with ⟨hf, _⟩ | ⟨_, h⟩
  · rw [nextAccessFails_of_portsOk hp] at hf; cases hf
  · rw [h]

/-- Where no access fails, `write_bit(b)` appends the bit (R222). -/
theorem writeBit_ok (b : Bool) {s : State} (hp : portsOk s) :
    ∃ t, writeBit b s = .ok () t ∧ writtenBits t = writtenBits s ++ [b] ∧ WriterStep s t := by
  have hends := writeBit_ends b s
  have hlt := s.wcnt.isLt
  have hplace := bitsOf_placeBit s.wacc s.wcnt.toNat hlt b
  unfold writeBit at hends ⊢
  by_cases h : s.wcnt = 7
  · simp only [h, if_true] at hends ⊢
    rw [h] at hplace
    rw [pushByte_ok (s := { s with wacc := 0, wcnt := 0 }) hp] at hends ⊢
    refine ⟨_, rfl, ?_, hends⟩
    have h8 : (bitsOf 8 (placeBit s.wacc (7 - (7 : BitVec 3).toNat) b)).take 8 =
        bitsOf 8 (placeBit s.wacc (7 - (7 : BitVec 3).toNat) b) := List.take_of_length_le (by simp)
    have hplace' : (bitsOf 8 (placeBit s.wacc (7 - (7 : BitVec 3).toNat) b)).take 8 =
        (bitsOf 8 s.wacc).take 7 ++ [b] := hplace
    rw [h8] at hplace'
    show bitsOfBytes (s.sout ++ [_]) ++ [] = bitsOfBytes s.sout ++ (bitsOf 8 s.wacc).take s.wcnt.toNat ++ [b]
    rw [List.append_nil, bitsOfBytes_append, bitsOfBytes_cons, bitsOfBytes_nil, List.append_nil, hplace', h,
      List.append_assoc]
    rfl
  · simp only [h, if_false] at hends ⊢
    refine ⟨_, rfl, ?_, hends⟩
    show bitsOfBytes s.sout ++ (bitsOf 8 (placeBit s.wacc (7 - s.wcnt.toNat) b)).take (s.wcnt + 1).toNat = _
    rw [wcnt_succ h, hplace, writtenBits, List.append_assoc]

/-- Where no access fails, a bit sequence is appended (R191, R223). -/
theorem writeAll_ok (p : Bits) {s : State} (hp : portsOk s) :
    ∃ t, writeAll p s = .ok () t ∧ writtenBits t = writtenBits s ++ p ∧ WriterStep s t := by
  induction p generalizing s with
  | nil => exact ⟨s, rfl, by simp, WriterStep.refl s⟩
  | cons b p ih =>
    obtain ⟨t, ht, hw, hs⟩ := writeBit_ok b hp
    obtain ⟨u, hu, hw', hs'⟩ := ih (hs.portsOk hp)
    refine ⟨u, by rw [writeAll, ht]; exact hu, ?_, hs.trans hs'⟩
    rw [hw', hw]; simp

/-- One sequence after another is their concatenation. -/
theorem writeAll_append (p q : Bits) (s : State) :
    writeAll (p ++ q) s = (writeAll p s).andThen fun _ t => writeAll q t := by
  induction p generalizing s with
  | nil => rfl
  | cons b p ih =>
    simp only [List.cons_append, writeAll, andThen_assoc]
    congr 1
    funext _ t
    exact ih t

/-- Where no access fails, `flush()` pads the written bits with zeros to a byte boundary (R224). -/
theorem flushWriter_ok {s : State} (hp : portsOk s) (hc : writerClean s) :
    ∃ t, flushWriter s = .ok () t ∧ writtenBits t = padTo8 (writtenBits s) ∧ t.wcnt = 0 ∧ t.wacc = 0 ∧
      WriterStep s t := by
  have hends := flushWriter_ends s
  unfold flushWriter at hends ⊢
  by_cases h : s.wcnt = 0
  · simp only [h, ne_eq, not_true_eq_false, if_false] at hends ⊢
    have hn : s.wcnt.toNat = 0 := by rw [h]; rfl
    have hw : s.wacc = 0 := by simpa [writerClean, hn] using hc
    refine ⟨s, rfl, ?_, h, hw, hends⟩
    have hl : (writtenBits s).length % 8 = 0 := by rw [writtenBits_length, hn]; omega
    rw [padTo8, hl]; simp
  · simp only [h, ne_eq, not_false_eq_true, if_true] at hends ⊢
    rw [pushByte_ok (s := { s with wacc := 0, wcnt := 0 }) hp] at hends ⊢
    refine ⟨_, rfl, ?_, rfl, rfl, hends⟩
    have hlt := s.wcnt.isLt
    have hz : s.wcnt.toNat ≠ 0 := fun e => h (BitVec.eq_of_toNat_eq e)
    have hl : (8 - (writtenBits s).length % 8) % 8 = 8 - s.wcnt.toNat := by rw [writtenBits_length]; omega
    show bitsOfBytes (s.sout ++ [s.wacc]) ++ [] = _
    rw [padTo8, hl, List.append_nil, bitsOfBytes_append, bitsOfBytes_cons, bitsOfBytes_nil, List.append_nil,
      bitsOf_clean s.wacc s.wcnt.toNat hlt hc, writtenBits, List.append_assoc]


/-- With the writer aligned the written bits are SOUT's. -/
theorem writtenBits_aligned {s : State} (h : s.wcnt = 0) : writtenBits s = bitsOfBytes s.sout := by
  simp [writtenBits, h]

/-! ### Fault entry -/

theorem faultEntry_err (k : ErrKind) (s : State) : (faultEntry k s).err = k.code := by
  unfold faultEntry
  split
  · rw [(push_step _ _).only]
  · rfl

/-- Fault entry writes ERR, the writer, SOUT and nothing else (R280). -/
theorem faultEntry_step (k : ErrKind) (s : State) : WriterStep { s with err := k.code } (faultEntry k s) := by
  unfold faultEntry
  split
  · exact (emptyWriter_step { s with err := k.code }).trans (push_step _ _)
  · exact WriterStep.refl _

/-- After fault entry the writer is empty (R280). -/
theorem faultEntry_wcnt (k : ErrKind) (s : State) : (faultEntry k s).wcnt = 0 := by
  unfold faultEntry
  split
  · rcases push_cases s.wacc { s with err := k.code, wacc := 0, wcnt := 0 } with ⟨_, h⟩ | ⟨_, h⟩ <;> rw [h] <;> rfl
  · rename_i h; simpa using h

/-- Where the push of fault entry does not fail, it pads the written bits as FLUSH does (R280). -/
theorem faultEntry_flush (k : ErrKind) {s : State} (hp : portsOk s) (hc : writerClean s) :
    writtenBits (faultEntry k s) = padTo8 (writtenBits s) := by
  have hf := flushWriter_ok hp hc
  obtain ⟨t, h1, h2, _⟩ := hf
  rw [← h2]
  by_cases h : s.wcnt = 0
  · rw [flushWriter, if_neg (by simp [h])] at h1
    cases h1
    rw [faultEntry, if_neg (by simp [h])]; rfl
  · rw [flushWriter, if_pos h, pushByte_ok (by exact hp)] at h1
    simp only [Run.ok.injEq, true_and] at h1
    rw [faultEntry, if_pos h, push_appends (by exact nextAccessFails_of_portsOk hp), ← h1]
    rfl

end Sys2Proof.Machine
end

