-- ==== Sys2Proof/Laws/Cells.lean ====
section
/-! SUPPORT. TMEM and ETAB as lists of cells: what is read after a write, and that every operation keeps the
canonical form (spec 10_state.md R30, R33). -/

namespace Sys2Proof.Machine

variable {α : Type}

/-! ### Cells -/

theorem cellFind_put (m : List (Nat × α)) (k : Nat) (x : α) (j : Nat) :
    cellFind (cellPut m k x) j = if k = j then some x else cellFind m j := by
  induction m with
  | nil => simp [cellPut, cellFind]
  | cons c m ih =>
    obtain ⟨a, y⟩ := c
    simp only [cellPut]
    split
    · simp [cellFind]
    · split
      · rename_i h; subst h; simp only [cellFind]; split <;> rfl
      · rename_i h1 h2
        simp only [cellFind, ih]
        by_cases ha : a = j
        · subst ha; simp [h2]
        · simp [ha]

theorem cellFind_drop (m : List (Nat × α)) (k j : Nat) :
    cellFind (cellDrop m k) j = if k = j then none else cellFind m j := by
  induction m with
  | nil => simp [cellDrop, cellFind]
  | cons c m ih =>
    obtain ⟨a, y⟩ := c
    simp only [cellDrop]
    by_cases ha : a = k
    · rw [if_pos ha, ih]; subst ha; simp only [cellFind]; split <;> rfl
    · rw [if_neg ha]
      simp only [cellFind, ih]
      by_cases hj : a = j
      · subst hj; simp [Ne.symm ha]
      · simp [hj]

theorem mem_cellPut {m : List (Nat × α)} {k : Nat} {x : α} {c : Nat × α} (h : c ∈ cellPut m k x) :
    c = (k, x) ∨ c ∈ m := by
  induction m with
  | nil => simpa [cellPut] using h
  | cons d m ih =>
    obtain ⟨a, y⟩ := d
    simp only [cellPut] at h
    split at h
    · simpa using h
    · split at h
      · rcases List.mem_cons.mp h with rfl | h
        · exact .inl rfl
        · exact .inr (List.mem_cons_of_mem _ h)
      · rcases List.mem_cons.mp h with rfl | h
        · exact .inr List.mem_cons_self
        · rcases ih h with rfl | h
          · exact .inl rfl
          · exact .inr (List.mem_cons_of_mem _ h)

theorem mem_cellDrop {m : List (Nat × α)} {k : Nat} {c : Nat × α} (h : c ∈ cellDrop m k) : c ∈ m := by
  induction m with
  | nil => simp [cellDrop] at h
  | cons d m ih =>
    obtain ⟨a, y⟩ := d
    simp only [cellDrop] at h
    split at h
    · exact List.mem_cons_of_mem _ (ih h)
    · rcases List.mem_cons.mp h with rfl | h
      · exact List.mem_cons_self
      · exact List.mem_cons_of_mem _ (ih h)

theorem cellPut_sorted {m : List (Nat × α)} (h : m.Pairwise (fun a b => a.1 < b.1)) (k : Nat) (x : α) :
    (cellPut m k x).Pairwise (fun a b => a.1 < b.1) := by
  induction m with
  | nil => simp [cellPut]
  | cons c m ih =>
    obtain ⟨a, y⟩ := c
    obtain ⟨h1, h2⟩ := List.pairwise_cons.mp h
    simp only [cellPut]
    split
    · rename_i hk
      refine List.pairwise_cons.mpr ⟨fun d hd => ?_, h⟩
      rcases List.mem_cons.mp hd with rfl | hd
      · exact hk
      · exact lt_trans hk (h1 d hd)
    · split
      · rename_i hk; subst hk
        exact List.pairwise_cons.mpr ⟨h1, h2⟩
      · rename_i hk1 hk2
        refine List.pairwise_cons.mpr ⟨fun d hd => ?_, ih h2⟩
        rcases mem_cellPut hd with rfl | hd
        · show a < k; omega
        · exact h1 d hd

theorem cellDrop_sorted {m : List (Nat × α)} (h : m.Pairwise (fun a b => a.1 < b.1)) (k : Nat) :
    (cellDrop m k).Pairwise (fun a b => a.1 < b.1) := by
  induction m with
  | nil => simp [cellDrop]
  | cons c m ih =>
    obtain ⟨a, y⟩ := c
    obtain ⟨h1, h2⟩ := List.pairwise_cons.mp h
    simp only [cellDrop]
    split
    · exact ih h2
    · exact List.pairwise_cons.mpr ⟨fun d hd => h1 d (mem_cellDrop hd), ih h2⟩

theorem mem_of_cellFind {m : List (Nat × α)} {k : Nat} {x : α} (h : cellFind m k = some x) : (k, x) ∈ m := by
  induction m with
  | nil => simp [cellFind] at h
  | cons c m ih =>
    obtain ⟨a, y⟩ := c
    simp only [cellFind] at h
    split at h
    · rename_i ha; subst ha; cases h; exact List.mem_cons_self
    · exact List.mem_cons_of_mem _ (ih h)

/-! ### TMEM -/

@[simp] theorem Memory.read_nil (i : NodeIdx) : Memory.read [] i = 0 := rfl

/-- A read after a write: the value written at its index, the old word elsewhere. -/
theorem Memory.read_write (m : Memory) (i : NodeIdx) (w : Word) (j : NodeIdx) :
    Memory.read (Memory.write m i w) j = if i = j then w else Memory.read m j := by
  have hij : (i.toNat = j.toNat) ↔ i = j := ⟨BitVec.eq_of_toNat_eq, fun h => by rw [h]⟩
  unfold Memory.read Memory.write
  split
  · rename_i hw
    rw [cellFind_drop]
    by_cases h : i = j
    · simp [h, hw]
    · rw [if_neg (fun e => h (hij.mp e)), if_neg h]
  · rw [cellFind_put]
    by_cases h : i = j
    · simp [h]
    · rw [if_neg (fun e => h (hij.mp e)), if_neg h]

theorem Memory.read_write_same (m : Memory) (i : NodeIdx) (w : Word) :
    Memory.read (Memory.write m i w) i = w := by
  rw [Memory.read_write, if_pos rfl]

theorem Memory.read_write_other (m : Memory) {i j : NodeIdx} (w : Word) (h : i ≠ j) :
    Memory.read (Memory.write m i w) j = Memory.read m j := by
  rw [Memory.read_write, if_neg h]

/-- Every write keeps the canonical form. -/
theorem Memory.wf_write {m : Memory} (h : Memory.wf m) (i : NodeIdx) (w : Word) :
    Memory.wf (Memory.write m i w) := by
  unfold Memory.write
  split
  · exact ⟨cellDrop_sorted h.1 _, fun c hc => h.2 c (mem_cellDrop hc)⟩
  · rename_i hw
    refine ⟨cellPut_sorted h.1 _ _, fun c hc => ?_⟩
    rcases mem_cellPut hc with rfl | hc
    · exact ⟨i.isLt, hw⟩
    · exact h.2 c hc

theorem Memory.wf_nil : Memory.wf [] := by decide

/-! ### ETAB -/

theorem ETab.find_put (t : ETab) (s : Sym) (p : Bits) (r : Sym) :
    ETab.find (ETab.put t s p) r = if s = r then some p else ETab.find t r := by
  have hsr : (s.toNat = r.toNat) ↔ s = r := ⟨BitVec.eq_of_toNat_eq, fun h => by rw [h]⟩
  unfold ETab.find ETab.put
  rw [cellFind_put]
  by_cases h : s = r
  · simp [h]
  · rw [if_neg (fun e => h (hsr.mp e)), if_neg h]

theorem ETab.wf_put {t : ETab} (h : ETab.wf t) {s : Sym} (hs : s ≤ Config.eos) (p : Bits) :
    ETab.wf (ETab.put t s p) := by
  refine ⟨cellPut_sorted h.1 _ _, fun c hc => ?_⟩
  rcases mem_cellPut hc with rfl | hc
  · have : s.toNat ≤ 256 := by simpa [BitVec.le_def] using hs
    show s.toNat < 257
    omega
  · exact h.2 c hc

theorem ETab.wf_nil : ETab.wf [] := by decide

end Sys2Proof.Machine
end

