-- ==== Sys2Proof/Laws/Trees.lean ====
section
/-! SUPPORT. Trees in TMEM: `Stores`, reading a tree out, the validity check's walk, and the serializer
(spec 40_tree.md R121 to R124, R130). -/

namespace Sys2Proof.Machine

/-! ### Trees held in TMEM -/

theorem Stores.congr {m m' : Memory} {i : NodeIdx} {t : CodeTree} {l : List NodeIdx} (h : Stores m i t l)
    (hm : ∀ j ∈ l, Memory.read m' j = Memory.read m j) : Stores m' i t l := by
  induction h with
  | leaf i sym w => exact .leaf i sym (by rw [hm i List.mem_cons_self]; exact w)
  | node i l r tl tr il ir w _ _ ihl ihr =>
    refine .node i l r tl tr il ir (by rw [hm i List.mem_cons_self]; exact w) (ihl fun j hj => hm j ?_)
      (ihr fun j hj => hm j ?_)
    · exact List.mem_cons_of_mem _ (List.mem_append_left _ hj)
    · exact List.mem_cons_of_mem _ (List.mem_append_right _ hj)

theorem Stores.length {m : Memory} {i : NodeIdx} {t : CodeTree} {l : List NodeIdx} (h : Stores m i t l) :
    l.length = t.size := by
  induction h with
  | leaf _ _ _ => rfl
  | node _ _ _ _ _ _ _ _ _ _ ihl ihr => simp only [List.length_cons, List.length_append, ihl, ihr, CodeTree.size]; omega

theorem CodeTree.size_pos (t : CodeTree) : 0 < t.size := by
  cases t <;> simp only [CodeTree.size] <;> omega

/-- Reading out a tree that TMEM holds (R121). -/
theorem Stores.treeWithin {m : Memory} {i : NodeIdx} {t : CodeTree} {l : List NodeIdx} (h : Stores m i t l) :
    ∀ {fuel : Nat}, t.size ≤ fuel → Sys2Proof.Machine.treeWithin fuel m i = some t := by
  induction h with
  | leaf i sym w =>
    intro fuel hf
    cases fuel with
    | zero => simp [CodeTree.size] at hf
    | succ f => simp [Sys2Proof.Machine.treeWithin, w]
  | node i l r tl tr il ir w _ _ ihl ihr =>
    intro fuel hf
    simp only [CodeTree.size] at hf
    cases fuel with
    | zero => omega
    | succ f =>
      simp only [Sys2Proof.Machine.treeWithin, w, nodeLeaf_nodeWord, nodeLeft_nodeWord, nodeRight_nodeWord]
      rw [ihl (by omega), ihr (by omega)]
      simp

/-- At most 1024 different node indices exist (R30). -/
theorem nodeIdx_nodup_length {l : List NodeIdx} (h : l.Nodup) : l.length ≤ 1024 := by
  have h1 : (l.map BitVec.toNat).Nodup := h.map fun a b hab => BitVec.eq_of_toNat_eq hab
  have h2 : l.map BitVec.toNat ⊆ List.range 1024 := by
    intro x hx
    obtain ⟨a, _, rfl⟩ := List.mem_map.mp hx
    exact List.mem_range.mpr a.isLt
  simpa using (h1.subperm h2).length_le

theorem Stores.treeAt {m : Memory} {i : NodeIdx} {t : CodeTree} {l : List NodeIdx} (h : Stores m i t l)
    (hn : l.Nodup) : Sys2Proof.Machine.treeAt m i = some t :=
  h.treeWithin (by rw [← h.length]; exact nodeIdx_nodup_length hn)

/-! ### The validity check -/

/-- All that `walk` says where it answers: TMEM holds a tree whose nodes and symbols it has added to its
sets, none of them twice (R123). -/
theorem walk_some {m : Memory} {fuel : Nat} {i : NodeIdx} {vis vis' : List NodeIdx} {seen seen' : List Sym}
    (h : walk m fuel i (vis, seen) = some (vis', seen')) :
    ∃ t l, Stores m i t l ∧ vis' = l.reverse ++ vis ∧ seen' = t.symbols.reverse ++ seen ∧
      (∀ x ∈ t.symbols, x ≤ Config.eos) ∧ (vis.Nodup → vis'.Nodup) ∧ (seen.Nodup → seen'.Nodup) := by
  induction fuel generalizing i vis vis' seen seen' with
  | zero => simp [walk] at h
  | succ f ih =>
    simp only [walk] at h
    split at h
    · cases h
    rename_i hv
    split at h
    · cases h
    rename_i hvis
    split at h
    · cases h
    rename_i hres
    have hv' : nodeV (Memory.read m i) = true := by simpa using hv
    have hres' : nodeReserved (Memory.read m i) = 0 := by simpa using hres
    split at h
    · rename_i hleaf
      split at h
      · cases h
      rename_i hlr
      split at h
      · cases h
      rename_i hle
      split at h
      · cases h
      rename_i hseen
      simp only [Option.some.injEq, Prod.mk.injEq] at h
      obtain ⟨rfl, rfl⟩ := h
      refine ⟨.leaf (nodeSym (Memory.read m i)), [i], .leaf _ _ (eq_leafWord hv' hleaf hres' (by simpa using hlr)),
        by simp, by simp [CodeTree.symbols], ?_, fun h => List.nodup_cons.mpr ⟨hvis, h⟩,
        fun h => List.nodup_cons.mpr ⟨hseen, h⟩⟩
      intro x hx
      simp only [CodeTree.symbols, List.mem_singleton] at hx
      subst hx
      exact BitVec.not_lt.mp hle
    · rename_i hleaf
      have hleaf' : nodeLeaf (Memory.read m i) = false := by simpa using hleaf
      cases hl : walk m f (nodeLeft (Memory.read m i)) (i :: vis, seen) with
      | none => rw [hl] at h; cases h
      | some sets =>
        obtain ⟨v1, s1⟩ := sets
        rw [hl] at h
        obtain ⟨tl, il, hsl, hv1, hs1, hel, hnv1, hns1⟩ := ih hl
        obtain ⟨tr, ir, hsr, hv2, hs2, her, hnv2, hns2⟩ := ih h
        refine ⟨.node tl tr, i :: (il ++ ir), .node i _ _ tl tr il ir (eq_nodeWord hv' hleaf' hres') hsl hsr, ?_, ?_, ?_,
          ?_, ?_⟩
        · rw [hv2, hv1]; simp
        · rw [hs2, hs1]; simp [CodeTree.symbols]
        · intro x hx
          rcases List.mem_append.mp hx with hx | hx
          · exact hel x hx
          · exact her x hx
        · intro hn; exact hnv2 (hnv1 (List.nodup_cons.mpr ⟨hvis, hn⟩))
        · intro hn; exact hns2 (hns1 hn)

/-- Where TMEM holds a tree whose nodes and symbols are all new, `walk` answers (R123). -/
theorem walk_of_stores {m : Memory} {i : NodeIdx} {t : CodeTree} {l : List NodeIdx} (h : Stores m i t l) :
    ∀ {fuel : Nat} {vis : List NodeIdx} {seen : List Sym}, t.size ≤ fuel → (l.reverse ++ vis).Nodup →
      (t.symbols.reverse ++ seen).Nodup → (∀ x ∈ t.symbols, x ≤ Config.eos) →
      walk m fuel i (vis, seen) = some (l.reverse ++ vis, t.symbols.reverse ++ seen) := by
  induction h with
  | leaf i sym w =>
    intro fuel vis seen hf hv hs he
    cases fuel with
    | zero => simp [CodeTree.size] at hf
    | succ f =>
      simp only [List.reverse_cons, List.reverse_nil, List.nil_append, List.cons_append, List.nodup_cons,
        CodeTree.symbols] at hv hs ⊢
      have he' : sym ≤ 256#9 := he sym (by simp [CodeTree.symbols])
      simp only [walk, w, nodeV_leafWord, nodeReserved_leafWord, nodeLeaf_leafWord, nodeLeafReserved_leafWord,
        nodeSym_leafWord]
      simp [hv.1, hs.1, he']
  | node i l r tl tr il ir w _ _ ihl ihr =>
    intro fuel vis seen hf hv hs he
    simp only [CodeTree.size] at hf
    simp only [CodeTree.symbols] at hs he ⊢
    have e1 : (i :: (il ++ ir)).reverse ++ vis = ir.reverse ++ (il.reverse ++ (i :: vis)) := by simp
    have e2 : (tl.symbols ++ tr.symbols).reverse ++ seen = tr.symbols.reverse ++ (tl.symbols.reverse ++ seen) := by simp
    rw [e1] at hv ⊢
    rw [e2] at hs ⊢
    have hv1 := (List.nodup_append.mp hv).2.1
    have hs1 := (List.nodup_append.mp hs).2.1
    have hi : i ∉ vis := (List.nodup_cons.mp (List.nodup_append.mp hv1).2.1).1
    cases fuel with
    | zero => omega
    | succ f =>
      have hl := ihl (fuel := f) (vis := i :: vis) (seen := seen) (by omega) hv1 hs1
        (fun x hx => he x (List.mem_append_left _ hx))
      have hr := ihr (fuel := f) (vis := il.reverse ++ (i :: vis)) (seen := tl.symbols.reverse ++ seen) (by omega) hv hs
        (fun x hx => he x (List.mem_append_right _ hx))
      simp only [walk, w, nodeV_nodeWord, nodeReserved_nodeWord, nodeLeaf_nodeWord, nodeLeft_nodeWord,
        nodeRight_nodeWord, hl, hr]
      simp [hi]

/-- What a passed check gives: TMEM holds a valid tree in different words (R122, R123). -/
theorem checkTree_stores {m : Memory} {r : NodeIdx} (h : checkTree m r = true) :
    ∃ t l, Stores m r t l ∧ l.Nodup ∧ t.valid = true := by
  unfold checkTree at h
  split at h
  · cases h
  rename_i hroot
  cases hw : walk m Config.nNode r ([], []) with
  | none => rw [hw] at h; cases h
  | some sets =>
    obtain ⟨vis, seen⟩ := sets
    rw [hw] at h
    obtain ⟨t, l, hs, hv, hsn, he, hnv, hns⟩ := walk_some hw
    have hmark : Config.eos ∈ seen := by simpa using h
    have hnv' := hnv List.nodup_nil
    have hns' := hns List.nodup_nil
    rw [hv] at hnv'
    rw [hsn] at hns' hmark
    simp only [List.append_nil, List.nodup_reverse, List.mem_reverse] at hnv' hns' hmark
    refine ⟨t, l, hs, hnv', ?_⟩
    cases t with
    | leaf sym =>
      exfalso
      cases hs with
      | leaf _ _ w => exact hroot (by rw [w]; simp)
    | node tl tr =>
      simp only [CodeTree.valid, Bool.true_and, Bool.and_eq_true, List.all_eq_true, decide_eq_true_eq]
      exact ⟨⟨fun x hx => he x hx, hns'⟩, by simpa using hmark⟩

/-- A passed check reads out a valid tree. -/
theorem checkTree_treeAt {m : Memory} {r : NodeIdx} (h : checkTree m r = true) :
    ∃ t, treeAt m r = some t ∧ t.valid = true := by
  obtain ⟨t, l, hs, hn, hv⟩ := checkTree_stores h
  exact ⟨t, hs.treeAt hn, hv⟩

/-- The parts of `CodeTree.valid`. -/
theorem CodeTree.valid_parts {t : CodeTree} (h : t.valid = true) :
    (∃ l r, t = .node l r) ∧ (∀ x ∈ t.symbols, x ≤ Config.eos) ∧ t.symbols.Nodup ∧ Config.eos ∈ t.symbols := by
  unfold CodeTree.valid at h
  simp only [Bool.and_eq_true, List.all_eq_true, decide_eq_true_eq] at h
  refine ⟨?_, h.1.1.2, h.1.2, by simpa using h.2⟩
  cases t with
  | leaf _ => exact absurd h.1.1.1 (by simp)
  | node l r => exact ⟨l, r, rfl⟩

/-- The check fails where TMEM holds, in different words, a tree that is not valid (R122, R123). -/
theorem checkTree_invalid {m : Memory} {r : NodeIdx} {t : CodeTree} {l : List NodeIdx} (h : Stores m r t l) (hn : l.Nodup)
    (hv : t.valid = false) : checkTree m r = false := by
  rw [← Bool.not_eq_true]
  intro hc
  obtain ⟨t', ht', hv'⟩ := checkTree_treeAt hc
  rw [h.treeAt hn] at ht'
  cases ht'
  rw [hv] at hv'; cases hv'

/-- All that `ensure_valid()` can do (R124). -/
theorem ensureValid_cases (s : State) :
    (s.tvalid = true ∧ ensureValid s = .ok () s) ∨
    (s.tvalid = false ∧ checkTree s.tmem s.root = true ∧ ensureValid s = .ok () { s with tvalid := true }) ∨
    (s.tvalid = false ∧ checkTree s.tmem s.root = false ∧ ensureValid s = .raise .invalidTree s) := by
  unfold ensureValid
  cases h : s.tvalid with
  | true => left; simp
  | false =>
    right
    cases hc : checkTree s.tmem s.root with
    | true => left; simp
    | false => right; simp

/-! ### The serializer -/

/-- `ser` writes the bits `enc` (R110, R130). -/
theorem serTree_eq (t : CodeTree) (s : State) : serTree t s = writeAll t.enc s := by
  induction t generalizing s with
  | leaf sym => rfl
  | node l r ihl ihr =>
    simp only [serTree, CodeTree.enc, writeAll]
    congr 1
    funext _ u
    rw [writeAll_append, ihl]
    congr 1
    funext _ v
    exact ihr v

/-- `tser_body()` writes the version and the tree, then flushes (R130). -/
theorem tserBody_eq {s : State} {t : CodeTree} (h : treeAt s.tmem s.root = some t) :
    tserBody s = (writeAll (bitsOf 8 Config.hdrVer ++ t.enc) s).andThen fun _ u => flushWriter u := by
  simp only [tserBody, withTree, h, writeBits, writeAll_append, andThen_assoc]
  congr 1
  funext _ u
  rw [serTree_eq]

theorem tserBody_ends (s : State) : (tserBody s).Ends (WriterStep s) := by
  cases h : treeAt s.tmem s.root with
  | none => simp [tserBody, withTree, h, Run.Ends]
  | some t =>
    rw [tserBody_eq h]
    exact (writeAll_ends _ s).andThen (fun _ h => h) fun _ u hu => (flushWriter_ends u).mono fun v hv => hu.trans hv

/-- From an aligned and clean writer, and where no access fails, `tser_body()` appends the header's bytes to
SOUT and leaves the writer empty (R130). -/
theorem tserBody_ok {s : State} {t : CodeTree} (h : treeAt s.tmem s.root = some t) (hp : portsOk s) (hc : writerClean s)
    (hw : s.wcnt = 0) :
    ∃ u, tserBody s = .ok () u ∧ WriterStep s u ∧ u.wacc = 0 ∧ u.wcnt = 0 ∧ u.sout = s.sout ++ packBytes t.hdr := by
  rw [tserBody_eq h]
  obtain ⟨v, hv, hvw, hvs⟩ := writeAll_ok (bitsOf 8 Config.hdrVer ++ t.enc) hp
  obtain ⟨u, hu, huw, hu0, hua, hus⟩ := flushWriter_ok (hvs.portsOk hp) (hvs.clean hc)
  refine ⟨u, by rw [hv]; exact hu, hvs.trans hus, hua, hu0, ?_⟩
  apply bitsOfBytes_injective
  rw [← writtenBits_aligned hu0, huw, hvw, writtenBits_aligned hw, bitsOfBytes_append]
  rw [CodeTree.hdr, bitsOfBytes_packBytes_padTo8]
  have e : ((bitsOfBytes s.sout ++ (bitsOf 8 Config.hdrVer ++ t.enc)).length) % 8 =
      (bitsOf 8 Config.hdrVer ++ t.enc).length % 8 := by
    rw [List.length_append, bitsOfBytes_length]; omega
  rw [padTo8, padTo8, e, List.append_assoc]

end Sys2Proof.Machine
end

