-- ==== Sys2Proof/Laws/Header.lean ====
section
/-! SUPPORT. The deserializer: what `hbits`, `parse` and the pad check do, forwards (a header parses to its
tree) and backwards (what parses is a header) (spec 40_tree.md R131, R133; 30_encoding.md R110, R111). -/

namespace Sys2Proof.Machine

/-- What the deserializer's procedures leave unchanged: they move the reader and write TMEM. -/
structure ParserStep (s t : State) : Prop where
  only : t = { s with rbuf := t.rbuf, rcnt := t.rcnt, sinPos := t.sinPos, portScript := t.portScript, tmem := t.tmem }
  answers : t.portScript <:+ s.portScript
  forward : s.sinPos ≤ t.sinPos
  inside : s.sinPos ≤ s.sinData.length → t.sinPos ≤ s.sinData.length
  tmemWf : Memory.wf s.tmem → Memory.wf t.tmem

theorem ParserStep.refl (s : State) : ParserStep s s := ⟨rfl, List.suffix_refl _, le_refl _, id, id⟩

theorem ParserStep.portsOk {s t : State} (h : ParserStep s t) (hs : portsOk s) : Sys2Proof.Machine.portsOk t :=
  portsOk_of_suffix h.answers hs

theorem ParserStep.trans {s t u : State} (h1 : ParserStep s t) (h2 : ParserStep t u) : ParserStep s u where
  only := by
    have e1 := h1.only
    have e2 := h2.only
    rw [e1] at e2
    exact e2
  answers := h2.answers.trans h1.answers
  forward := le_trans h1.forward h2.forward
  inside := fun h => by
    have e : t.sinData = s.sinData := by rw [h1.only]
    have := h2.inside (by rw [e]; exact h1.inside h)
    rwa [e] at this
  tmemWf := fun h => h2.tmemWf (h1.tmemWf h)

theorem ReaderStep.parser {s t : State} (h : ReaderStep s t) : ParserStep s t where
  only := by
    have e := h.only
    have et : t.tmem = s.tmem := by rw [e]
    rw [et]; exact e
  answers := h.answers
  forward := h.forward
  inside := h.inside
  tmemWf := fun hw => by
    have et : t.tmem = s.tmem := by rw [h.only]
    rwa [et]

theorem storeNode_step (i : Nat) (w : Word) (s : State) : ParserStep s (storeNode i w s) :=
  ⟨rfl, List.suffix_refl _, le_refl _, id, fun h => Memory.wf_write h _ _⟩

/-! ### On every path -/

theorem hbits_ends (n : Nat) (s : State) : (hbits n s).Ends (ReaderStep s) := (readBits_ends n 0 s).translate _ _

theorem parse_ends (fuel next : Nat) (s : State) : (parse fuel next s).Ends (ParserStep s) := by
  induction fuel generalizing next s with
  | zero => exact ParserStep.refl s
  | succ f ih =>
    unfold parse
    split
    · exact ParserStep.refl s
    · refine ((hbits_ends 1 s).mono fun t h => h.parser).andThen (fun _ h => h) fun m t ht => ?_
      split
      · refine ((hbits_ends 9 t).mono fun u h => ht.trans h.parser).andThen (fun _ h => h) fun v u hu => ?_
        split
        · exact hu
        · exact hu.trans (storeNode_step _ _ _)
      · refine ((ih (next + 1) t).mono fun u h => ht.trans h).andThen (fun _ h => h) fun l u hu => ?_
        refine ((ih l.2 u).mono fun v h => hu.trans h).andThen (fun _ h => h) fun r v hv => ?_
        exact hv.trans (storeNode_step _ _ _)

theorem checkPad_ends (fuel : Nat) (s : State) : (checkPad fuel s).Ends (ReaderStep s) := by
  induction fuel generalizing s with
  | zero => exact ReaderStep.refl s
  | succ f ih =>
    unfold checkPad
    split
    · exact ReaderStep.refl s
    · refine (hbits_ends 1 s).andThen (fun _ h => h) fun b t ht => ?_
      split
      · exact ht
      · exact (ih t).mono fun u h => ht.trans h

/-- On every path `tdes_body()` clears TVALID, TBLV and ROOT, and moves nothing but the reader and TMEM
otherwise (R131). -/
theorem tdesBody_ends (s : State) :
    (tdesBody s).Ends (ParserStep { s with tvalid := false, tblv := false, root := 0, tmem := [] }) := by
  refine Run.Ends.onRaise (P := ParserStep { s with tvalid := false, tblv := false, root := 0, tmem := [] }) ?_
    (fun t h => h) fun t h => ⟨?_, h.answers, h.forward, h.inside, fun _ => Memory.wf_nil⟩
  · refine ((hbits_ends 8 _).mono fun t h => h.parser).andThen (fun _ h => h) fun v t ht => ?_
    split
    · exact ht
    · refine ((parse_ends _ _ t).mono fun u h => ht.trans h).andThen (fun _ h => h) fun _ u hu => ?_
      exact (checkPad_ends 7 u).mono fun v hv => hu.trans hv.parser
  · have e := h.only
    show { t with tmem := [] } = _
    rw [e]; rfl

/-- The deserializer is never stuck. -/
theorem hbits_runs (n : Nat) (s : State) : (hbits n s).Runs := (readBits_runs n 0 s).translate _ _

theorem parse_runs (fuel next : Nat) (s : State) : (parse fuel next s).Runs := by
  induction fuel generalizing next s with
  | zero => trivial
  | succ f ih =>
    unfold parse
    split
    · trivial
    · refine (hbits_runs 1 s).andThen fun m t => ?_
      split
      · refine (hbits_runs 9 t).andThen fun v u => ?_
        split <;> trivial
      · exact (ih (next + 1) t).andThen fun l u => (ih l.2 u).andThen fun r v => trivial

theorem checkPad_runs (fuel : Nat) (s : State) : (checkPad fuel s).Runs := by
  induction fuel generalizing s with
  | zero => trivial
  | succ f ih =>
    unfold checkPad
    split
    · trivial
    · refine (hbits_runs 1 s).andThen fun b t => ?_
      split
      · trivial
      · exact ih t

theorem tdesBody_runs (s : State) : (tdesBody s).Runs := by
  unfold tdesBody
  refine Run.Runs.onRaise ((hbits_runs 8 _).andThen fun v t => ?_) _
  split
  · trivial
  · exact (parse_runs _ _ t).andThen fun _ u => checkPad_runs 7 u

/-- After any raise `tdes_body()` has cleared TMEM (R131). -/
theorem tdesBody_raise {s t : State} {k : ErrKind} (h : tdesBody s = .raise k t) : t.tmem = [] := by
  unfold tdesBody at h
  generalize hr : Run.andThen (hbits 8 (clearTmem { s with tvalid := false, tblv := false, root := 0 })) _ = r at h
  cases r with
  | ok a u => cases h
  | raise j u => simp only [onRaise_raise, Run.raise.injEq] at h; rw [← h.2]; rfl
  | stuck w => cases h

/-! ### Where no access fails: forwards -/

/-- `hbits(n)` returns the next n bits' value (R131). -/
theorem hbits_ok (n : Nat) (hn : n ≤ 32) {s : State} (hp : portsOk s) {p rest : Bits} (hl : p.length = n)
    (h : unreadBits s = p ++ rest) :
    ∃ t, hbits n s = .ok ((valueOf n p).setWidth 32) t ∧ unreadBits t = rest ∧ ReaderStep s t := by
  obtain ⟨t, ht, hu, hs⟩ := readBits_ok n 0 hp hl h
  refine ⟨t, ?_, hu, hs⟩
  rw [hbits, ht, foldl_shiftInBit p n hl hn]; rfl

/-- `hbits(n)` reports a short header as corrupt (R131). -/
theorem hbits_exhausted (n : Nat) {s : State} (hp : portsOk s) (h : (unreadBits s).length < n) :
    ∃ t, hbits n s = .raise .corruptHeader t ∧ unreadBits t = [] ∧ ReaderStep s t := by
  obtain ⟨t, ht, hu, hs⟩ := readBits_exhausted n 0 hp h
  exact ⟨t, by rw [hbits, ht]; rfl, hu, hs⟩

theorem hbits_one_ok {s : State} (hp : portsOk s) {b : Bool} {rest : Bits} (h : unreadBits s = b :: rest) :
    ∃ t, hbits 1 s = .ok ((BitVec.ofBool b).setWidth 32) t ∧ unreadBits t = rest ∧ ReaderStep s t := by
  obtain ⟨t, ht, hu, hs⟩ := hbits_ok 1 (by omega) hp (p := [b]) rfl h
  refine ⟨t, ?_, hu, hs⟩
  rw [ht]; cases b <;> rfl

theorem valueOf_symbol (sym : Sym) : ((valueOf 9 (bitsOf 9 sym)).setWidth 32).setWidth 9 = sym := by
  rw [valueOf_bitsOf]; revert sym; decide +kernel

theorem symbol_le (sym : Sym) : ((256 : Word) < (valueOf 9 (bitsOf 9 sym)).setWidth 32) ↔ Config.eos < sym := by
  rw [valueOf_bitsOf]; revert sym; decide +kernel

theorem mem_preorder {a n : Nat} {j : NodeIdx} (h : j ∈ preorder a n) (hb : a + n ≤ 1024) :
    a ≤ j.toNat ∧ j.toNat < a + n := by
  obtain ⟨k, hk, rfl⟩ := List.mem_map.mp h
  obtain ⟨h1, h2⟩ := List.mem_range'_1.mp hk
  rw [BitVec.toNat_ofNat, Nat.mod_eq_of_lt (by omega)]
  omega

theorem preorder_nodup {a n : Nat} (hb : a + n ≤ 1024) : (preorder a n).Nodup := by
  refine List.Nodup.map_on ?_ (List.nodup_range')
  intro x hx y hy hxy
  have h1 := (List.mem_range'_1.mp hx).2
  have h2 := (List.mem_range'_1.mp hy).2
  have := congrArg BitVec.toNat hxy
  simp only [BitVec.toNat_ofNat] at this
  rwa [Nat.mod_eq_of_lt (by omega), Nat.mod_eq_of_lt (by omega)] at this

theorem preorder_node (a m n : Nat) :
    preorder a (1 + m + n) = BitVec.ofNat 10 a :: (preorder (a + 1) m ++ preorder (a + 1 + m) n) := by
  have e : 1 + m + n = (m + n) + 1 := by omega
  rw [preorder, e, List.range'_succ, List.map_cons, preorder, preorder, ← List.map_append]
  congr 2
  rw [List.range'_append_1]

/-- The bits of a tree parse to that tree, stored in pre-order numbering from `next` (R131). -/
theorem parse_ok (t : CodeTree) :
    ∀ {fuel next : Nat} {s : State} {rest : Bits}, portsOk s → next + t.size ≤ 1024 → 1024 ≤ fuel + next →
      (∀ x ∈ t.symbols, x ≤ Config.eos) → unreadBits s = t.enc ++ rest →
      ∃ u, parse fuel next s = .ok (BitVec.ofNat 10 next, next + t.size) u ∧ unreadBits u = rest ∧ ParserStep s u ∧
        Stores u.tmem (BitVec.ofNat 10 next) t (preorder next t.size) ∧
        ∀ j : NodeIdx, (j.toNat < next ∨ next + t.size ≤ j.toNat) → Memory.read u.tmem j = Memory.read s.tmem j := by
  have ofNat_toNat : ∀ n : Nat, n < 1024 → (BitVec.ofNat 10 n).toNat = n := by
    intro n hn; rw [BitVec.toNat_ofNat]; omega
  induction t with
  | leaf sym =>
    intro fuel next s rest hp hb hf he hu
    simp only [CodeTree.size] at hb ⊢
    cases fuel with
    | zero => omega
    | succ f =>
      obtain ⟨t1, ht1, hu1, hs1⟩ := hbits_one_ok hp (rest := bitsOf 9 sym ++ rest) (b := true) (by rw [hu]; rfl)
      obtain ⟨t2, ht2, hu2, hs2⟩ := hbits_ok 9 (by omega) (hs1.portsOk hp) (bitsOf_length 9 sym) hu1
      have hle : ¬ ((256 : Word) < (valueOf 9 (bitsOf 9 sym)).setWidth 32) := by
        rw [symbol_le]; exact BitVec.not_lt.mpr (he sym (by simp [CodeTree.symbols]))
      refine ⟨storeNode next (leafWord sym) t2, ?_, hu2, (hs1.trans hs2).parser.trans (storeNode_step _ _ _), ?_, ?_⟩
      · rw [parse, if_neg (show ¬ next = Config.nNode by show ¬ next = 1024; omega), ht1, andThen_ok, if_pos (by rfl), ht2,
          andThen_ok, if_neg hle, valueOf_symbol]
      · exact .leaf _ _ (Memory.read_write_same _ _ _)
      · intro j hj
        have e : t2.tmem = s.tmem := by rw [(hs1.trans hs2).only]
        rw [storeNode_tmem, Memory.read_write_other _ _ ?_, e]
        rintro rfl
        rw [ofNat_toNat next (by omega)] at hj; omega
  | node l r ihl ihr =>
    intro fuel next s rest hp hb hf he hu
    simp only [CodeTree.size] at hb ⊢
    cases fuel with
    | zero => omega
    | succ f =>
      obtain ⟨t1, ht1, hu1, hs1⟩ := hbits_one_ok hp (rest := l.enc ++ (r.enc ++ rest)) (b := false)
        (by rw [hu]; simp [CodeTree.enc])
      obtain ⟨t2, ht2, hu2, hs2, hst2, hm2⟩ := ihl (fuel := f) (next := next + 1) (hs1.portsOk hp) (by omega) (by omega)
        (fun x hx => he x (List.mem_append_left _ hx)) hu1
      obtain ⟨t3, ht3, hu3, hs3, hst3, hm3⟩ := ihr (fuel := f) (next := next + 1 + l.size) (hs2.portsOk (hs1.portsOk hp))
        (by omega) (by omega) (fun x hx => he x (List.mem_append_right _ hx)) hu2
      have e1 : t1.tmem = s.tmem := by rw [hs1.only]
      refine ⟨storeNode next (nodeWord (BitVec.ofNat 10 (next + 1)) (BitVec.ofNat 10 (next + 1 + l.size))) t3, ?_, hu3,
        ((hs1.parser.trans hs2).trans hs3).trans (storeNode_step _ _ _), ?_, ?_⟩
      · rw [parse, if_neg (show ¬ next = Config.nNode by show ¬ next = 1024; omega), ht1, andThen_ok, if_neg (by decide), ht2,
          andThen_ok, ht3, andThen_ok]
        have e : next + 1 + l.size + r.size = next + (1 + l.size + r.size) := by omega
        rw [e]
      · rw [preorder_node, storeNode_tmem]
        have hne : ∀ j : NodeIdx, next + 1 ≤ j.toNat → BitVec.ofNat 10 next ≠ j := by
          rintro j hj rfl
          rw [ofNat_toNat next (by omega)] at hj; omega
        refine .node _ _ _ _ _ _ _ (Memory.read_write_same _ _ _) (hst2.congr fun j hj => ?_) (hst3.congr fun j hj => ?_)
        · have hb' := mem_preorder hj (by omega)
          rw [Memory.read_write_other _ _ (hne j hb'.1)]
          exact hm3 j (by omega)
        · have hb' := mem_preorder hj (by omega)
          rw [Memory.read_write_other _ _ (hne j (by omega))]
      · intro j hj
        rw [storeNode_tmem, Memory.read_write_other _ _ ?_, hm3 j (by omega), hm2 j (by omega), e1]
        rintro rfl
        rw [ofNat_toNat next (by omega)] at hj; omega

/-- RCNT is the number of unread bits up to the byte boundary (R36). -/
theorem rcnt_eq (s : State) : s.rcnt.toNat = (unreadBits s).length % 8 := by
  have := s.rcnt.isLt
  rw [unreadBits_length, bitsLeft]; omega

/-- A pad of zeros passes (R131). -/
theorem checkPad_ok (fuel : Nat) {s : State} (hp : portsOk s) (hf : s.rcnt.toNat ≤ fuel) {rest : Bits}
    (h : unreadBits s = List.replicate s.rcnt.toNat false ++ rest) :
    ∃ t, checkPad fuel s = .ok () t ∧ unreadBits t = rest ∧ t.rcnt = 0 ∧ ReaderStep s t := by
  induction fuel generalizing s with
  | zero =>
    have h0 : s.rcnt.toNat = 0 := by omega
    rw [h0] at h
    exact ⟨s, rfl, h, BitVec.eq_of_toNat_eq h0, ReaderStep.refl s⟩
  | succ f ih =>
    unfold checkPad
    by_cases hr : s.rcnt = 0
    · rw [if_pos hr]
      rw [hr] at h
      exact ⟨s, rfl, h, hr, ReaderStep.refl s⟩
    · rw [if_neg hr]
      have hne : s.rcnt.toNat ≠ 0 := fun e => hr (BitVec.eq_of_toNat_eq e)
      obtain ⟨k, hk⟩ := Nat.exists_eq_succ_of_ne_zero hne
      have h' : unreadBits s = false :: (List.replicate k false ++ rest) := by rw [h, hk]; rfl
      obtain ⟨t, ht, hu, hs⟩ := hbits_one_ok hp h'
      have hk' : t.rcnt.toNat = k := by
        have h1 := rcnt_eq t
        have h2 := rcnt_eq s
        have := s.rcnt.isLt
        rw [h'] at h2; rw [hu] at h1
        simp only [List.length_cons, List.length_append, List.length_replicate] at h1 h2
        omega
      obtain ⟨u, hu1, hu2, hu3, hu4⟩ := ih (hs.portsOk hp) (by omega) (by rw [hk']; exact hu)
      refine ⟨u, ?_, hu2, hu3, hs.trans hu4⟩
      rw [ht, andThen_ok, if_neg (by decide)]; exact hu1

/-! ### Backwards: what the procedures return tells what the bits were -/

theorem readBit_inv {s t : State} {b : Bool} (h : readBit s = .ok b t) : unreadBits s = b :: unreadBits t := by
  unfold readBit at h
  split at h
  · rename_i hr
    rcases pull_cases s with ⟨_, hpull⟩ | ⟨_, _, hpull⟩ | ⟨hl, _, hpull⟩ <;> rw [hpull] at h
    · cases h
    · cases h
    · simp only [Run.ok.injEq] at h
      obtain ⟨rfl, rfl⟩ := h
      have hr0 : s.rcnt.toNat = 0 := by rw [hr]; rfl
      rw [unreadBits, hr0, List.drop_eq_getElem_cons hl]
      rfl
  · rename_i hr
    simp only [Run.ok.injEq] at h
    obtain ⟨rfl, rfl⟩ := h
    have hk : s.rcnt.toNat = (s.rcnt - 1).toNat + 1 := by
      have : s.rcnt.toNat ≠ 0 := fun e => hr (BitVec.eq_of_toNat_eq e)
      have := s.rcnt.isLt
      rw [BitVec.toNat_sub]; simp; omega
    rw [unreadBits, hk]; rfl

theorem readBits_inv {n : Nat} {v r : Word} {s t : State} (h : readBits n v s = .ok r t) :
    ∃ p, p.length = n ∧ r = p.foldl shiftInBit v ∧ unreadBits s = p ++ unreadBits t := by
  induction n generalizing v s with
  | zero => simp only [readBits, Run.ok.injEq] at h; obtain ⟨rfl, rfl⟩ := h; exact ⟨[], rfl, rfl, rfl⟩
  | succ n ih =>
    rw [readBits] at h
    cases hb : readBit s with
    | ok b u =>
      rw [hb, andThen_ok] at h
      obtain ⟨p, hp, hr, hu⟩ := ih h
      exact ⟨b :: p, by simp [hp], hr, by rw [readBit_inv hb, hu]; rfl⟩
    | raise k u => rw [hb] at h; cases h
    | stuck w => rw [hb] at h; cases h

theorem hbits_inv {n : Nat} (hn : n ≤ 32) {r : Word} {s t : State} (h : hbits n s = .ok r t) :
    ∃ p, p.length = n ∧ r = (valueOf n p).setWidth 32 ∧ unreadBits s = p ++ unreadBits t := by
  unfold hbits at h
  cases hb : readBits n 0 s with
  | ok v u =>
    rw [hb, translate_ok] at h
    cases h
    obtain ⟨p, hp, hr, hu⟩ := readBits_inv hb
    exact ⟨p, hp, by rw [hr, foldl_shiftInBit p n hp hn], hu⟩
  | raise k u => rw [hb] at h; cases h
  | stuck w => rw [hb] at h; cases h

theorem hbits_one_inv {r : Word} {s t : State} (h : hbits 1 s = .ok r t) :
    ∃ b, r = (BitVec.ofBool b).setWidth 32 ∧ unreadBits s = b :: unreadBits t := by
  obtain ⟨p, hp, hr, hu⟩ := hbits_inv (by omega) h
  match p, hp with
  | [b], _ => exact ⟨b, by rw [hr]; cases b <;> rfl, hu⟩

/-- What parses is the bits of a tree whose symbols are all in the alphabet (R111, R131, R133). -/
theorem parse_inv {fuel next : Nat} {s u : State} {i : NodeIdx} {next' : Nat} (hb : next ≤ 1024)
    (h : parse fuel next s = .ok (i, next') u) :
    ∃ t : CodeTree, i = BitVec.ofNat 10 next ∧ next' = next + t.size ∧ next' ≤ 1024 ∧ (∀ x ∈ t.symbols, x ≤ Config.eos) ∧
      unreadBits s = t.enc ++ unreadBits u := by
  induction fuel generalizing next s u i next' with
  | zero => cases h
  | succ f ih =>
    rw [parse] at h
    split at h
    · cases h
    rename_i hn
    have hn' : next < 1024 := by
      have : next ≠ 1024 := hn
      omega
    cases hm : hbits 1 s with
    | raise k t => rw [hm] at h; cases h
    | stuck w => rw [hm] at h; cases h
    | ok m t =>
      rw [hm, andThen_ok] at h
      obtain ⟨b, hmb, hu1⟩ := hbits_one_inv hm
      split at h
      · rename_i hm1
        have hbt : b = true := by cases b with
          | true => rfl
          | false => rw [hmb] at hm1; exact absurd hm1 (by decide)
        subst hbt
        cases hv : hbits 9 t with
        | raise k t' => rw [hv] at h; cases h
        | stuck w => rw [hv] at h; cases h
        | ok v t' =>
          rw [hv, andThen_ok] at h
          split at h
          · cases h
          rename_i hle
          simp only [Run.ok.injEq, Prod.mk.injEq] at h
          obtain ⟨⟨rfl, rfl⟩, rfl⟩ := h
          obtain ⟨p, hp, hvp, hu2⟩ := hbits_inv (by omega) hv
          have hbits : bitsOf 9 (valueOf 9 p) = p := bitsOf_valueOf 9 p hp
          refine ⟨.leaf (valueOf 9 p), rfl, rfl, by omega, ?_, ?_⟩
          · intro x hx
            simp only [CodeTree.symbols, List.mem_singleton] at hx
            subst hx
            have := symbol_le (valueOf 9 p)
            rw [hbits, ← hvp] at this
            exact BitVec.not_lt.mp fun hlt => hle (this.mpr hlt)
          · show _ = true :: (bitsOf 9 (valueOf 9 p) ++ _)
            rw [hbits, hu1, hu2]; rfl
      · rename_i hm1
        have hbf : b = false := by cases b with
          | false => rfl
          | true => rw [hmb] at hm1; exact absurd (by decide) hm1
        subst hbf
        cases hl : parse f (next + 1) t with
        | raise k t' => rw [hl] at h; cases h
        | stuck w => rw [hl] at h; cases h
        | ok l t' =>
          rw [hl, andThen_ok] at h
          obtain ⟨tl, hil, hnl, hbl, hel, hul⟩ := ih (i := l.1) (next' := l.2) (by omega) hl
          cases hr : parse f l.2 t' with
          | raise k t'' => rw [hr] at h; cases h
          | stuck w => rw [hr] at h; cases h
          | ok r t'' =>
            rw [hr, andThen_ok] at h
            obtain ⟨tr, hir, hnr, hbr, her, hur⟩ := ih (i := r.1) (next' := r.2) hbl hr
            simp only [Run.ok.injEq, Prod.mk.injEq] at h
            obtain ⟨⟨rfl, rfl⟩, rfl⟩ := h
            refine ⟨.node tl tr, rfl, by rw [hnr, hnl]; simp only [CodeTree.size]; omega, hbr, ?_, ?_⟩
            · intro x hx
              rcases List.mem_append.mp hx with hx | hx
              · exact hel x hx
              · exact her x hx
            · have : unreadBits (storeNode next (nodeWord l.1 r.1) t'') = unreadBits t'' := rfl
              rw [this, hu1, hul, hur]; simp [CodeTree.enc]

/-- What passes the pad check is zeros up to the byte boundary (R131). -/
theorem checkPad_inv {fuel : Nat} {s t : State} (hf : s.rcnt.toNat ≤ fuel) (h : checkPad fuel s = .ok () t) :
    unreadBits s = List.replicate s.rcnt.toNat false ++ unreadBits t ∧ t.rcnt = 0 := by
  induction fuel generalizing s with
  | zero =>
    have h0 : s.rcnt.toNat = 0 := by omega
    simp only [checkPad, Run.ok.injEq, true_and] at h
    subst h
    exact ⟨by rw [h0]; rfl, BitVec.eq_of_toNat_eq h0⟩
  | succ f ih =>
    rw [checkPad] at h
    split at h
    · rename_i hr
      simp only [Run.ok.injEq, true_and] at h
      subst h
      exact ⟨by rw [hr]; rfl, hr⟩
    · rename_i hr
      cases hm : hbits 1 s with
      | raise k u => rw [hm] at h; cases h
      | stuck w => rw [hm] at h; cases h
      | ok m u =>
        rw [hm, andThen_ok] at h
        split at h
        · cases h
        rename_i hz
        obtain ⟨b, hmb, hu⟩ := hbits_one_inv hm
        have hbf : b = false := by cases b with
          | false => rfl
          | true => exact absurd (by rw [hmb]; decide) hz
        subst hbf
        have hne : s.rcnt.toNat ≠ 0 := fun e => hr (BitVec.eq_of_toNat_eq e)
        have hk : s.rcnt.toNat = u.rcnt.toNat + 1 := by
          have h1 := rcnt_eq u
          have h2 := rcnt_eq s
          have := s.rcnt.isLt
          rw [hu] at h2
          simp only [List.length_cons] at h2
          omega
        obtain ⟨h1, h2⟩ := ih (by omega) h
        exact ⟨by rw [hu, h1, hk]; rfl, h2⟩

/-- Where no access fails the deserializer raises nothing but `CorruptHeader` (R133). -/
theorem hbits_raises (n : Nat) {s : State} (hp : portsOk s) : (hbits n s).Raises (· = .corruptHeader) := by
  by_cases h : (unreadBits s).length < n
  · obtain ⟨t, ht, _, _⟩ := hbits_exhausted n hp h
    rw [ht]; rfl
  · obtain ⟨t, ht, _, _⟩ := readBits_ok n 0 hp (p := (unreadBits s).take n) (rest := (unreadBits s).drop n)
      (by simp; omega) (List.take_append_drop n _).symm
    rw [hbits, ht]; trivial

/-- With the reader aligned the unread bits are those of the bytes left in SIN. -/
theorem unreadBits_aligned {s : State} (h : s.rcnt = 0) : unreadBits s = bitsOfBytes (sinRest s) := by
  rw [unreadBits, h]; rfl

/-- With the reader aligned the unread bits tell the bytes left in SIN, and so the cursor. -/
theorem sinRest_of_unreadBits {s : State} (h : s.rcnt = 0) {x : List Byte} (hu : unreadBits s = bitsOfBytes x) :
    sinRest s = x := bitsOfBytes_injective ((unreadBits_aligned h).symm.trans hu)

/-- The bits of a header (R110). -/
theorem CodeTree.hdr_bits (t : CodeTree) :
    ∃ k < 8, bitsOfBytes (packBytes t.hdr) = bitsOf 8 Config.hdrVer ++ (t.enc ++ List.replicate k false) := by
  refine ⟨(8 - (bitsOf 8 Config.hdrVer ++ t.enc).length % 8) % 8, Nat.mod_lt _ (by decide), ?_⟩
  rw [CodeTree.hdr, bitsOfBytes_packBytes_padTo8, padTo8, List.append_assoc]

/-- From an aligned reader on the header of a tree that fits, `tdes_body()` stores the tree in pre-order numbering
and takes exactly the header's bytes (R131). -/
theorem tdesBody_ok {s : State} {t : CodeTree} {x : List Byte} (hp : portsOk s) (hr : s.rcnt = 0) (hz : t.size ≤ 1024)
    (he : ∀ sym ∈ t.symbols, sym ≤ Config.eos) (hx : sinRest s = packBytes t.hdr ++ x) :
    ∃ u, tdesBody s = .ok () u ∧ HoldsPreorder u.tmem t ∧ u.rcnt = 0 ∧ sinRest u = x ∧
      u.sinPos = s.sinPos + (packBytes t.hdr).length ∧
      ParserStep { s with tvalid := false, tblv := false, root := 0, tmem := [] } u := by
  obtain ⟨k, hk, hb⟩ := t.hdr_bits
  let s0 : State := clearTmem { s with tvalid := false, tblv := false, root := 0 }
  have hu : unreadBits s0 = bitsOf 8 Config.hdrVer ++ (t.enc ++ (List.replicate k false ++ bitsOfBytes x)) := by
    have : unreadBits s0 = unreadBits s := rfl
    rw [this, unreadBits_aligned hr, hx, bitsOfBytes_append, hb]; simp
  obtain ⟨s1, h1, hu1, hs1⟩ := hbits_ok 8 (by omega) (s := s0) hp (bitsOf_length 8 Config.hdrVer) hu
  obtain ⟨s2, h2, hu2, hs2, hst, hm⟩ := parse_ok t (fuel := Config.nNode) (next := 0) (hs1.portsOk hp) (by omega)
    (by simp [Config.nNode]) he hu1
  have hk2 : s2.rcnt.toNat = k := by
    rw [rcnt_eq, hu2]; simp; omega
  obtain ⟨s3, h3, hu3, hr3, hs3⟩ := checkPad_ok 7 (hs2.portsOk (hs1.portsOk hp)) (by omega) (rest := bitsOfBytes x)
    (by rw [hu2, hk2])
  have hsteps : ParserStep s0 s3 := (hs1.parser.trans hs2).trans hs3.parser
  have hbody : tdesBody s = .ok () s3 := by
    have hv : ((valueOf 8 (bitsOf 8 Config.hdrVer)).setWidth 32 : Word) = 1 := by decide
    unfold tdesBody
    rw [h1, andThen_ok, hv, if_neg (by simp), h2, andThen_ok, h3]; rfl
  have e3 : s3.tmem = s2.tmem := by rw [hs3.only]
  have e1 : s1.tmem = [] := by rw [hs1.only]; rfl
  have hrest := sinRest_of_unreadBits hr3 hu3
  refine ⟨s3, hbody, ⟨by rw [e3]; exact hst, fun j hj => ?_⟩, hr3, hrest, ?_, hsteps⟩
  · rw [e3, hm j (by omega), e1]; rfl
  · have hlen := congrArg List.length hx
    have hlen3 := congrArg List.length hrest
    have ed : s3.sinData = s.sinData := by rw [hsteps.only]; rfl
    have hpos : 0 < (packBytes t.hdr).length := by
      have := congrArg List.length hb
      rw [bitsOfBytes_length] at this; simp at this; omega
    simp only [sinRest, List.length_drop, List.length_append, ed] at hlen hlen3
    have hin := hsteps.inside (by show s.sinPos ≤ s.sinData.length; omega)
    have hin' : s3.sinPos ≤ s.sinData.length := hin
    omega

/-- Where no access fails the parse raises nothing but `CorruptHeader` (R133). -/
theorem parse_raises (fuel next : Nat) {s : State} (hp : portsOk s) : (parse fuel next s).Raises (· = .corruptHeader) := by
  induction fuel generalizing next s with
  | zero => rfl
  | succ f ih =>
    unfold parse
    split
    · rfl
    · refine Run.Raises.andThen_of (hbits_raises 1 hp) (hbits_ends 1 s) fun m t ht => ?_
      have hpt := ht.portsOk hp
      split
      · refine Run.Raises.andThen_of (hbits_raises 9 hpt) (hbits_ends 9 t) fun v u _ => ?_
        split
        · rfl
        · trivial
      · refine Run.Raises.andThen_of (ih (next + 1) hpt) (parse_ends f (next + 1) t) fun l u hu => ?_
        exact Run.Raises.andThen_of (ih l.2 (hu.portsOk hpt)) (parse_ends f l.2 u) fun r v _ => trivial

theorem checkPad_raises (fuel : Nat) {s : State} (hp : portsOk s) : (checkPad fuel s).Raises (· = .corruptHeader) := by
  induction fuel generalizing s with
  | zero => trivial
  | succ f ih =>
    unfold checkPad
    split
    · trivial
    · refine Run.Raises.andThen_of (hbits_raises 1 hp) (hbits_ends 1 s) fun b t ht => ?_
      split
      · rfl
      · exact ih (ht.portsOk hp)

/-- Where no access fails `tdes_body()` raises nothing but `CorruptHeader` (R133). -/
theorem tdesBody_raises {s : State} (hp : portsOk s) : (tdesBody s).Raises (· = .corruptHeader) := by
  unfold tdesBody
  refine Run.Raises.onRaise ?_ _
  refine Run.Raises.andThen_of (hbits_raises 8 hp) (hbits_ends 8 _) fun v t ht => ?_
  have hpt : portsOk t := ht.portsOk hp
  split
  · rfl
  · exact Run.Raises.andThen_of (parse_raises _ _ hpt) (parse_ends _ _ t) fun _ u hu => checkPad_raises 7 (hu.portsOk hpt)

/-- From an aligned reader, what `tdes_body()` accepts is the header of a tree that fits (R133). -/
theorem tdesBody_inv {s u : State} (hr : s.rcnt = 0) (h : tdesBody s = .ok () u) :
    ∃ (t : CodeTree) (x : List Byte), t.size ≤ 1024 ∧ (∀ sym ∈ t.symbols, sym ≤ Config.eos) ∧
      sinRest s = packBytes t.hdr ++ x := by
  unfold tdesBody at h
  cases h1 : hbits 8 (clearTmem { s with tvalid := false, tblv := false, root := 0 }) with
  | stuck w => rw [h1] at h; cases h
  | raise k t => rw [h1] at h; cases h
  | ok v s1 =>
    rw [h1, andThen_ok] at h
    split at h
    · cases h
    rename_i hv
    cases h2 : parse Config.nNode 0 s1 with
    | stuck w => rw [h2] at h; cases h
    | raise k t => rw [h2] at h; cases h
    | ok r s2 =>
      rw [h2, andThen_ok] at h
      cases h3 : checkPad 7 s2 with
      | stuck w => rw [h3] at h; cases h
      | raise k t => rw [h3] at h; cases h
      | ok a s3 =>
        obtain ⟨p, hp, hpv, hu1⟩ := hbits_inv (by omega) h1
        obtain ⟨t, _, hn, hb, he, hu2⟩ := parse_inv (i := r.1) (next' := r.2) (by omega) h2
        obtain ⟨hu3, hr3⟩ := checkPad_inv (by have := s2.rcnt.isLt; omega) h3
        refine ⟨t, sinRest s3, by omega, he, bitsOfBytes_injective ?_⟩
        have hp8 : p = bitsOf 8 Config.hdrVer := by
          rw [← bitsOf_valueOf 8 p hp]
          congr 1
          have hv' : (valueOf 8 p).setWidth 32 = (1 : Word) := by rw [← hpv]; simpa using hv
          have := congrArg (BitVec.setWidth 8) hv'
          simpa using this
        have e0 : unreadBits s = unreadBits (clearTmem { s with tvalid := false, tblv := false, root := 0 }) := rfl
        rw [← unreadBits_aligned hr, e0, hu1, hu2, hu3, hp8, unreadBits_aligned hr3, bitsOfBytes_append, CodeTree.hdr,
          bitsOfBytes_packBytes_padTo8, padTo8]
        have hk : (8 - (bitsOf 8 Config.hdrVer ++ t.enc).length % 8) % 8 = s2.rcnt.toNat := by
          have hl := congrArg List.length hu1
          rw [← e0, unreadBits_aligned hr, bitsOfBytes_length] at hl
          have h4 := rcnt_eq s2
          rw [hu2] at hl
          simp only [List.length_append, bitsOf_length, hp] at hl ⊢
          omega
        rw [hk]; simp

end Sys2Proof.Machine
end

