-- ==== Sys2Proof/Laws/Codes.lean ====
section
/-! SUPPORT. The codes of a tree, the table build, and the decode automaton as its inverse
(spec 41_table_builder.md R150, R151, R154; 42_decode_automaton.md R170, R171, R173, R175). -/

namespace Sys2Proof.Machine

/-! ### Codes -/

theorem CodeTree.code_isSome (t : CodeTree) (x : Sym) : (t.code x).isSome = true ↔ x ∈ t.symbols := by
  induction t with
  | leaf s =>
    simp only [CodeTree.code, CodeTree.symbols, List.mem_singleton]
    by_cases h : s = x
    · simp [h]
    · simp [h, Ne.symm h]
  | node l r ihl ihr =>
    simp only [CodeTree.code, CodeTree.symbols, List.mem_append, ← ihl, ← ihr]
    cases l.code x <;> cases r.code x <;> simp

theorem CodeTree.code_eq_none (t : CodeTree) (x : Sym) : t.code x = none ↔ x ∉ t.symbols := by
  rw [← CodeTree.code_isSome]
  cases t.code x <;> simp

/-- The two ways a symbol of an Internal node is coded (R150). -/
theorem CodeTree.code_node {l r : CodeTree} {x : Sym} {p : Bits} (h : (CodeTree.node l r).code x = some p) :
    (∃ q, l.code x = some q ∧ p = false :: q) ∨ (l.code x = none ∧ ∃ q, r.code x = some q ∧ p = true :: q) := by
  simp only [CodeTree.code] at h
  cases hl : l.code x with
  | some q => rw [hl] at h; left; exact ⟨q, rfl, by simpa using h.symm⟩
  | none =>
    rw [hl] at h
    right
    cases hr : r.code x with
    | some q => rw [hr] at h; exact ⟨rfl, q, rfl, by simpa using h.symm⟩
    | none => rw [hr] at h; cases h

/-- The code of an Internal root is not empty (R155). -/
theorem CodeTree.code_ne_nil {l r : CodeTree} {x : Sym} {p : Bits} (h : (CodeTree.node l r).code x = some p) : p ≠ [] := by
  rcases CodeTree.code_node h with ⟨q, _, rfl⟩ | ⟨_, q, _, rfl⟩ <;> simp

/-! ### The table build -/

/-- What the table build has put into ETAB: the path of each symbol of the tree, and nothing else changed
(R151). -/
theorem find_buildTable (t : CodeTree) (hn : t.symbols.Nodup) (p : Bits) (e : ETab) (x : Sym) :
    ETab.find (buildTable t p e) x =
      match t.code x with
      | some q => some (p ++ q)
      | none => ETab.find e x := by
  induction t generalizing p e with
  | leaf s =>
    simp only [buildTable, ETab.find_put, CodeTree.code]
    by_cases h : s = x <;> simp [h]
  | node l r ihl ihr =>
    simp only [CodeTree.symbols, List.nodup_append] at hn
    simp only [buildTable, ihr hn.2.1, ihl hn.1, CodeTree.code]
    cases hl : l.code x with
    | none => cases r.code x <;> simp
    | some q =>
      have hx : x ∈ l.symbols := (l.code_isSome x).mp (by rw [hl]; rfl)
      have hr : r.code x = none := (r.code_eq_none x).mpr fun hxr => hn.2.2 x hx x hxr rfl
      rw [hr]; simp

/-- `table(t)` maps each symbol to its code (R150, R151). -/
theorem find_tableOf {t : CodeTree} (hn : t.symbols.Nodup) (x : Sym) : ETab.find (tableOf t) x = t.code x := by
  rw [tableOf, find_buildTable t hn]
  cases t.code x <;> rfl

theorem wf_buildTable (t : CodeTree) (hs : ∀ x ∈ t.symbols, x ≤ Config.eos) (p : Bits) {e : ETab} (he : ETab.wf e) :
    ETab.wf (buildTable t p e) := by
  induction t generalizing p e with
  | leaf s => exact ETab.wf_put he (hs s (by simp [CodeTree.symbols])) p
  | node l r ihl ihr =>
    exact ihr (fun x hx => hs x (List.mem_append_right _ hx)) _ (ihl (fun x hx => hs x (List.mem_append_left _ hx)) _ he)

theorem wf_tableOf {t : CodeTree} (hs : ∀ x ∈ t.symbols, x ≤ Config.eos) : ETab.wf (tableOf t) :=
  wf_buildTable t hs [] ETab.wf_nil

theorem bldtabBody_eq {s : State} {t : CodeTree} (h : treeAt s.tmem s.root = some t) :
    bldtabBody s = .ok () { s with etab := tableOf t, tblv := true } := by
  simp [bldtabBody, withTree, h]

/-! ### The decode automaton -/

theorem treeWithin_leaf {fuel : Nat} {m : Memory} {i : NodeIdx} {s : Sym} (h : treeWithin fuel m i = some (.leaf s)) :
    nodeLeaf (Memory.read m i) = true ∧ nodeSym (Memory.read m i) = s := by
  cases fuel with
  | zero => cases h
  | succ f =>
    simp only [treeWithin] at h
    split at h
    · rename_i hl; cases h; exact ⟨hl, rfl⟩
    · split at h
      · cases h
      · split at h <;> cases h

theorem treeWithin_node {fuel : Nat} {m : Memory} {i : NodeIdx} {l r : CodeTree}
    (h : treeWithin fuel m i = some (.node l r)) :
    nodeLeaf (Memory.read m i) = false ∧ ∃ f, treeWithin f m (nodeLeft (Memory.read m i)) = some l ∧
      treeWithin f m (nodeRight (Memory.read m i)) = some r := by
  cases fuel with
  | zero => cases h
  | succ f =>
    simp only [treeWithin] at h
    split at h
    · cases h
    · rename_i hl
      split at h
      · cases h
      rename_i tl htl
      split at h
      · cases h
      rename_i tr htr
      cases h
      exact ⟨by simpa using hl, f, htl, htr⟩

theorem decodeFrom_ends (fuel : Nat) (cur : NodeIdx) (s : State) : (decodeFrom fuel cur s).Ends (ReaderStep s) := by
  induction fuel generalizing cur s with
  | zero => exact ReaderStep.refl s
  | succ f ih =>
    unfold decodeFrom
    refine ((readBit_ends s).translate _ _).andThen (fun _ h => h) fun b t ht => ?_
    simp only
    split
    · exact ht
    · exact (ih _ t).mono fun u h => ht.trans h

theorem decodeOne_ends (s : State) : (decodeOne s).Ends (ReaderStep s) := decodeFrom_ends _ _ s

theorem decodeFrom_runs (fuel : Nat) (cur : NodeIdx) (s : State) : (decodeFrom fuel cur s).Runs := by
  induction fuel generalizing cur s with
  | zero => trivial
  | succ f ih =>
    unfold decodeFrom
    refine ((readBit_runs s).translate _ _).andThen fun b t => ?_
    simp only
    split
    · trivial
    · exact ih _ t

/-- One turn of the automaton that has read its bit (R171). -/
theorem decodeFrom_step {n : Nat} {cur : NodeIdx} {s t : State} {b : Bool} (h : readBit s = .ok b t) (em : t.tmem = s.tmem) :
    decodeFrom (n + 1) cur s =
      if nodeLeaf (Memory.read s.tmem (childOf (Memory.read s.tmem cur) b)) then
        .ok (nodeSym (Memory.read s.tmem (childOf (Memory.read s.tmem cur) b))) t
      else decodeFrom n (childOf (Memory.read s.tmem cur) b) t := by
  rw [← em, decodeFrom, h]; rfl

/-- Where the next bits are the code of `x`, the automaton returns `x` and takes exactly those bits (R173). -/
theorem decodeFrom_ok (t : CodeTree) :
    ∀ {f fuel : Nat} {cur : NodeIdx} {s : State} {x : Sym} {p rest : Bits}, portsOk s → treeWithin f s.tmem cur = some t →
      t.code x = some p → p ≠ [] → unreadBits s = p ++ rest → p.length ≤ fuel →
      ∃ u, decodeFrom fuel cur s = .ok x u ∧ unreadBits u = rest ∧ ReaderStep s u := by
  induction t with
  | leaf y =>
    intro f fuel cur s x p rest hp ht hc hne hu hf
    exfalso
    simp only [CodeTree.code] at hc
    split at hc
    · cases hc; exact hne rfl
    · cases hc
  | node l r ihl ihr =>
    intro f fuel cur s x p rest hp ht hc hne hu hf
    obtain ⟨_, f', htl, htr⟩ := treeWithin_node ht
    cases fuel with
    | zero => exact absurd (List.length_eq_zero_iff.mp (by omega)) hne
    | succ n =>
      have key : ∀ (c : CodeTree) (b : Bool) (q : Bits), p = b :: q → c.code x = some q →
          treeWithin f' s.tmem (childOf (Memory.read s.tmem cur) b) = some c →
          (∀ {f fuel : Nat} {cur : NodeIdx} {s : State} {x : Sym} {p rest : Bits}, portsOk s →
            treeWithin f s.tmem cur = some c → c.code x = some p → p ≠ [] → unreadBits s = p ++ rest →
            p.length ≤ fuel → ∃ u, decodeFrom fuel cur s = .ok x u ∧ unreadBits u = rest ∧ ReaderStep s u) →
          ∃ u, decodeFrom (n + 1) cur s = .ok x u ∧ unreadBits u = rest ∧ ReaderStep s u := by
        intro c b q hpq hcq htc ih
        obtain ⟨t1, ht1, hu1, hs1⟩ := readBit_ok hp (b := b) (rest := q ++ rest) (by rw [hu, hpq]; rfl)
        have em : t1.tmem = s.tmem := by rw [hs1.only]
        rw [decodeFrom_step ht1 em]
        cases c with
        | leaf y =>
          obtain ⟨hl, hy⟩ := treeWithin_leaf htc
          simp only [CodeTree.code] at hcq
          split at hcq
          · rename_i hyx
            cases hcq
            rw [if_pos hl, hy, hyx]
            exact ⟨t1, rfl, by simpa using hu1, hs1⟩
          · cases hcq
        | node cl cr =>
          obtain ⟨hl, _⟩ := treeWithin_node htc
          rw [if_neg (by simp [hl])]
          obtain ⟨u, hu2, hu3, hu4⟩ := ih (fuel := n) (hs1.portsOk hp) (by rw [em]; exact htc) hcq
            (CodeTree.code_ne_nil hcq) hu1 (by rw [hpq] at hf; simpa using hf)
          exact ⟨u, hu2, hu3, hs1.trans hu4⟩
      rcases CodeTree.code_node hc with ⟨q, hq, hpq⟩ | ⟨_, q, hq, hpq⟩
      · exact key l false q hpq hq htl ihl
      · exact key r true q hpq hq htr ihr

/-- Where the bits run out before any code is complete, the automaton takes them all and raises
`TruncatedStream` (R175). -/
theorem decodeFrom_exhausted (t : CodeTree) :
    ∀ {f fuel : Nat} {cur : NodeIdx} {s : State}, portsOk s → treeWithin f s.tmem cur = some t → t.symbols.Nodup →
      (∀ x p, t.code x = some p → ¬ p <+: unreadBits s) → (unreadBits s).length < fuel →
      ∃ u, decodeFrom fuel cur s = .raise .truncatedStream u ∧ unreadBits u = [] ∧ ReaderStep s u := by
  induction t with
  | leaf y =>
    intro f fuel cur s hp ht hd hc hf
    exact absurd (List.nil_prefix) (hc y [] (by simp [CodeTree.code]))
  | node l r ihl ihr =>
    intro f fuel cur s hp ht hd hc hf
    obtain ⟨_, f', htl, htr⟩ := treeWithin_node ht
    obtain ⟨hdl, hdr, hdis⟩ := List.nodup_append.mp hd
    cases fuel with
    | zero => omega
    | succ n =>
      cases hu : unreadBits s with
      | nil =>
        refine ⟨s.useAnswer, ?_, hu, useAnswer_readerStep s⟩
        rw [decodeFrom, readBit_exhausted hp hu]; rfl
      | cons b rest =>
        obtain ⟨t1, ht1, hu1, hs1⟩ := readBit_ok hp hu
        have em : t1.tmem = s.tmem := by rw [hs1.only]
        have key : ∀ (c : CodeTree), treeWithin f' s.tmem (childOf (Memory.read s.tmem cur) b) = some c → c.symbols.Nodup →
            (∀ x p, c.code x = some p → ¬ p <+: rest) →
            (∀ {f fuel : Nat} {cur : NodeIdx} {s : State}, portsOk s → treeWithin f s.tmem cur = some c →
              c.symbols.Nodup → (∀ x p, c.code x = some p → ¬ p <+: unreadBits s) → (unreadBits s).length < fuel →
              ∃ u, decodeFrom fuel cur s = .raise .truncatedStream u ∧ unreadBits u = [] ∧ ReaderStep s u) →
            ∃ u, decodeFrom (n + 1) cur s = .raise .truncatedStream u ∧ unreadBits u = [] ∧ ReaderStep s u := by
          intro c htc hcd hcc ih
          rw [decodeFrom_step ht1 em]
          cases c with
          | leaf y => exact absurd (List.nil_prefix) (hcc y [] (by simp [CodeTree.code]))
          | node cl cr =>
            obtain ⟨hl, _⟩ := treeWithin_node htc
            rw [if_neg (by simp [hl])]
            obtain ⟨u, hu2, hu3, hu4⟩ := ih (fuel := n) (hs1.portsOk hp) (by rw [em]; exact htc) hcd
              (by rw [hu1]; exact hcc) (by rw [hu1]; rw [hu] at hf; simp at hf; omega)
            exact ⟨u, hu2, hu3, hs1.trans hu4⟩
        cases b with
        | false =>
          refine key l htl hdl (fun x p hx hpre => ?_) ihl
          exact hc x (false :: p) (by simp [CodeTree.code, hx]) (by rw [hu]; exact List.cons_prefix_cons.mpr ⟨rfl, hpre⟩)
        | true =>
          refine key r htr hdr (fun x p hx hpre => ?_) ihr
          have hxr : x ∈ r.symbols := (r.code_isSome x).mp (by rw [hx]; rfl)
          have hl : l.code x = none := (l.code_eq_none x).mpr fun hxl => hdis x hxl x hxr rfl
          exact hc x (true :: p) (by simp [CodeTree.code, hl, hx]) (by rw [hu]; exact List.cons_prefix_cons.mpr ⟨rfl, hpre⟩)

/-- Where the automaton starts at an Internal node and returns, it returns a symbol of the tree (R170, R171). -/
theorem decodeFrom_symbol {f fuel : Nat} {cur : NodeIdx} {s u : State} {x : Sym} {l r : CodeTree}
    (ht : treeWithin f s.tmem cur = some (.node l r)) (h : decodeFrom fuel cur s = .ok x u) :
    x ∈ (CodeTree.node l r).symbols := by
  induction fuel generalizing f cur s l r with
  | zero => cases h
  | succ n ih =>
    obtain ⟨_, f', htl, htr⟩ := treeWithin_node ht
    cases hb : readBit s with
    | raise k t => rw [decodeFrom, hb] at h; cases h
    | stuck w => rw [decodeFrom, hb] at h; cases h
    | ok b t =>
      have hs : ReaderStep s t := by have := readBit_ends s; rw [hb] at this; exact this
      have em : t.tmem = s.tmem := by rw [hs.only]
      rw [decodeFrom_step hb em] at h
      have key : ∀ c : CodeTree, treeWithin f' s.tmem (childOf (Memory.read s.tmem cur) b) = some c → x ∈ c.symbols := by
        intro c hc
        cases c with
        | leaf y =>
          obtain ⟨hl, hy⟩ := treeWithin_leaf hc
          rw [if_pos hl, hy] at h
          cases h; exact List.mem_singleton.mpr rfl
        | node cl cr =>
          obtain ⟨hl, _⟩ := treeWithin_node hc
          rw [if_neg (by simp [hl])] at h
          exact ih (by rw [em]; exact hc) h
      cases b with
      | false => exact List.mem_append_left _ (key l htl)
      | true => exact List.mem_append_right _ (key r htr)

/-- Where the automaton returns it has taken at least one bit (R170: one bit per transition). -/
theorem decodeFrom_takes {fuel : Nat} {cur : NodeIdx} {s u : State} {x : Sym} (h : decodeFrom fuel cur s = .ok x u) :
    ∃ b p, unreadBits s = b :: (p ++ unreadBits u) := by
  induction fuel generalizing cur s with
  | zero => cases h
  | succ f ih =>
    rw [decodeFrom] at h
    cases hb : readBit s with
    | raise k t => rw [hb] at h; cases h
    | stuck w => rw [hb] at h; cases h
    | ok b t =>
      rw [hb, translate_ok, andThen_ok] at h
      simp only at h
      have hu := readBit_inv hb
      split at h
      · simp only [Run.ok.injEq] at h
        obtain ⟨_, rfl⟩ := h
        exact ⟨b, [], by simpa using hu⟩
      · obtain ⟨b', p', hp'⟩ := ih h
        exact ⟨b, b' :: p', by rw [hu, hp']; rfl⟩

end Sys2Proof.Machine
end

