-- ==== Sys2Proof/Laws/Codec.lean ====
section
/-! SUPPORT. The loops of COMPRESS and DECOMPRESS: what they do where no access fails, and what every path
leaves unchanged (spec 43_stream_codec.md R191, R196, R199 to R201). -/

namespace Sys2Proof.Machine

/-! ### Codes of several symbols, and the artifact -/

theorem CodeTree.codes_append (t : CodeTree) (a b : List Sym) : t.codes (a ++ b) = (t.codes a).bind fun p => (t.codes b).map (p ++ ·) := by
  induction a with
  | nil => simp [CodeTree.codes]
  | cons x a ih =>
    simp only [List.cons_append, CodeTree.codes, ih]
    cases t.code x with
    | none => rfl
    | some p =>
      cases t.codes a with
      | none => rfl
      | some q => cases t.codes b <;> simp

/-- Every code has at least one bit (R155). -/
theorem CodeTree.codes_length {l r : CodeTree} : ∀ (ss : List Sym) (p : Bits), (CodeTree.node l r).codes ss = some p → ss.length ≤ p.length := by
  intro ss
  induction ss with
  | nil => intro p h; simp
  | cons x ss ih =>
    intro p h
    simp only [CodeTree.codes] at h
    cases hq : (CodeTree.node l r).code x with
    | none => rw [hq] at h; cases h
    | some q =>
      rw [hq] at h
      cases hr : (CodeTree.node l r).codes ss with
      | none => rw [hr] at h; cases h
      | some r' =>
        rw [hr] at h
        simp only [Option.map_some, Option.some.injEq] at h
        have := ih r' hr
        have h2 := CodeTree.code_ne_nil hq
        have h3 : q.length ≠ 0 := fun e => h2 (List.eq_nil_of_length_eq_zero e)
        rw [← h]; simp; omega

theorem CodeTree.codes_of_symbols {t : CodeTree} : ∀ (ss : List Sym), (∀ x ∈ ss, x ∈ t.symbols) → ∃ p, t.codes ss = some p := by
  intro ss
  induction ss with
  | nil => intro _; exact ⟨[], rfl⟩
  | cons x ss ih =>
    intro h
    obtain ⟨p, hp⟩ := ih fun y hy => h y (List.mem_cons_of_mem _ hy)
    have hx := (t.code_isSome x).mpr (h x List.mem_cons_self)
    obtain ⟨q, hq⟩ := Option.isSome_iff_exists.mp hx
    exact ⟨q ++ p, by rw [CodeTree.codes, hq, hp]; rfl⟩

/-- The payload of an artifact is the codes of the input and the marker's code (R112). -/
theorem CodeTree.codes_marker {t : CodeTree} {ss : List Sym} {w : Bits} (h : t.codes (ss ++ [Config.eos]) = some w) :
    ∃ p q, t.codes ss = some p ∧ t.code Config.eos = some q ∧ w = p ++ q := by
  rw [CodeTree.codes_append] at h
  cases hp : t.codes ss with
  | none => rw [hp] at h; cases h
  | some p =>
    cases hq : t.code Config.eos with
    | none => rw [hp, Option.bind_some, CodeTree.codes, hq] at h; cases h
    | some q =>
      rw [hp, Option.bind_some, CodeTree.codes, hq] at h
      exact ⟨p, q, rfl, rfl, by simpa [CodeTree.codes] using h.symm⟩

/-- The parts of an artifact (R112). -/
theorem CodeTree.artifact_parts {t : CodeTree} {input a : List Byte} (h : t.artifact input = some a) :
    ∃ p q, t.codes (input.map symOfByte) = some p ∧ t.code Config.eos = some q ∧ a = packBytes t.hdr ++ packBytes (padTo8 (p ++ q)) := by
  unfold CodeTree.artifact at h
  split at h
  · cases h
  · rename_i w hw
    obtain ⟨p, q, hp, hq, rfl⟩ := codes_marker hw
    exact ⟨p, q, hp, hq, (Option.some.inj h).symm⟩

/-- An artifact is one of those that differ in their pad bits only (R112, R200). -/
theorem CodeTree.artifact_anyPad {t : CodeTree} {input a : List Byte} (h : t.artifact input = some a) :
    t.ArtifactAnyPad input a := by
  unfold CodeTree.artifact at h
  split at h
  · cases h
  · rename_i w hw
    exact ⟨_, w, _, (Option.some.inj h).symm, hw, by rw [bitsOfBytes_packBytes_padTo8, padTo8],
      by rw [List.length_replicate]; omega⟩

/-! ### `emit_code` -/

theorem emitCode_ends (x : Sym) (s : State) : (emitCode x s).Ends (WriterStep s) := by
  unfold emitCode
  split
  · exact WriterStep.refl s
  · exact writeAll_ends _ s

theorem emitCode_runs (x : Sym) (s : State) : (emitCode x s).Runs := by
  unfold emitCode
  split
  · trivial
  · exact writeAll_runs _ s

theorem emitCode_ok {x : Sym} {s : State} {p : Bits} (hp : portsOk s) (h : ETab.find s.etab x = some p) :
    ∃ t, emitCode x s = .ok () t ∧ writtenBits t = writtenBits s ++ p ∧ WriterStep s t := by
  simp only [emitCode, h]
  exact writeAll_ok p hp

theorem emitCode_none {x : Sym} {s : State} (h : ETab.find s.etab x = none) : emitCode x s = .raise .noCode s := by
  simp [emitCode, h]

/-! ### Step 3 of `compress` -/

/-- What the coder's loop leaves unchanged: it moves the writer, SOUT and SIN's cursor. -/
structure CoderStep (s t : State) : Prop where
  only : t = { s with wacc := t.wacc, wcnt := t.wcnt, sout := t.sout, portScript := t.portScript, sinPos := t.sinPos }
  answers : t.portScript <:+ s.portScript
  grows : s.sout <+: t.sout
  clean : writerClean s → writerClean t
  forward : s.sinPos ≤ t.sinPos
  inside : s.sinPos ≤ s.sinData.length → t.sinPos ≤ s.sinData.length

theorem CoderStep.refl (s : State) : CoderStep s s :=
  ⟨rfl, List.suffix_refl _, List.prefix_refl _, id, le_refl _, id⟩

theorem CoderStep.portsOk {s t : State} (h : CoderStep s t) (hs : portsOk s) : Sys2Proof.Machine.portsOk t :=
  portsOk_of_suffix h.answers hs

theorem CoderStep.trans {s t u : State} (h1 : CoderStep s t) (h2 : CoderStep t u) : CoderStep s u where
  only := by
    have e1 := h1.only
    have e2 := h2.only
    rw [e1] at e2
    exact e2
  answers := h2.answers.trans h1.answers
  grows := h1.grows.trans h2.grows
  clean := fun h => h2.clean (h1.clean h)
  forward := le_trans h1.forward h2.forward
  inside := fun h => by
    have e : t.sinData = s.sinData := by rw [h1.only]
    have := h2.inside (by rw [e]; exact h1.inside h)
    rwa [e] at this

theorem WriterStep.coder {s t : State} (h : WriterStep s t) : CoderStep s t where
  only := by
    have e := h.only
    have ep : t.sinPos = s.sinPos := by rw [e]
    rw [ep]; exact e
  answers := h.answers
  grows := h.grows
  clean := h.clean
  forward := by rw [h.only]
  inside := fun hi => by rw [h.only]; exact hi

theorem pull_coder (s : State) : CoderStep s (pull s).2 := by
  rcases pull_cases s with ⟨_, h⟩ | ⟨_, _, h⟩ | ⟨hl, _, h⟩ <;> rw [h]
  · exact (useAnswer_writerStep s).coder
  · exact (useAnswer_writerStep s).coder
  · exact ⟨rfl, List.tail_suffix _, List.prefix_refl _, id, Nat.le_succ _, fun _ => hl⟩

theorem encodeInput_ends (fuel : Nat) (s : State) : (encodeInput fuel s).Ends (CoderStep s) := by
  induction fuel generalizing s with
  | zero => exact CoderStep.refl s
  | succ f ih =>
    have hp := pull_coder s
    unfold encodeInput
    rcases pull_cases s with ⟨_, h⟩ | ⟨_, _, h⟩ | ⟨hl, _, h⟩ <;> rw [h] at hp ⊢
    · exact hp
    · exact hp
    · refine ((emitCode_ends _ _).mono fun t ht => hp.trans ht.coder).andThen (fun _ h => h) fun _ t ht => ?_
      exact (ih t).mono fun u hu => ht.trans hu

theorem encodeInput_runs (fuel : Nat) (s : State) : (encodeInput fuel s).Runs := by
  induction fuel generalizing s with
  | zero => trivial
  | succ f ih =>
    unfold encodeInput
    rcases pull_cases s with ⟨_, h⟩ | ⟨_, _, h⟩ | ⟨_, _, h⟩ <;> rw [h]
    · trivial
    · trivial
    · exact (emitCode_runs _ _).andThen fun _ t => ih t

/-- Where every byte left in SIN has a code and no access fails, the codes are appended and SIN is exhausted
(R196). -/
theorem encodeInput_ok (tree : CodeTree) :
    ∀ {fuel : Nat} {s : State} {p : Bits}, portsOk s → (∀ x, ETab.find s.etab x = tree.code x) →
      s.sinPos ≤ s.sinData.length → s.sinData.length - s.sinPos < fuel →
      tree.codes ((s.sinData.drop s.sinPos).map symOfByte) = some p →
      ∃ t, encodeInput fuel s = .ok () t ∧ writtenBits t = writtenBits s ++ p ∧ t.sinPos = s.sinData.length ∧
        CoderStep s t := by
  intro fuel
  induction fuel with
  | zero => intro s p _ _ _ hf _; omega
  | succ f ih =>
    intro s p hp he hi hf hc
    have hps := pull_coder s
    unfold encodeInput
    rcases pull_cases s with ⟨hfail, _⟩ | ⟨_, hl, hpull⟩ | ⟨hl, _, hpull⟩
    · rw [nextAccessFails_of_portsOk hp] at hfail; cases hfail
    · rw [hpull] at hps ⊢
      rw [List.drop_eq_nil_of_le hl] at hc
      simp only [List.map_nil, CodeTree.codes, Option.some.injEq] at hc
      subst hc
      exact ⟨s.useAnswer, rfl, by simp [writtenBits], by show s.sinPos = _; omega, hps⟩
    · rw [hpull] at hps ⊢
      rw [List.drop_eq_getElem_cons hl, List.map_cons, CodeTree.codes] at hc
      cases hb : tree.code (symOfByte s.sinData[s.sinPos]) with
      | none => rw [hb] at hc; cases hc
      | some q =>
        rw [hb] at hc
        cases hr : tree.codes ((s.sinData.drop (s.sinPos + 1)).map symOfByte) with
        | none => rw [hr] at hc; cases hc
        | some r =>
          rw [hr] at hc
          simp only [Option.map_some, Option.some.injEq] at hc
          obtain ⟨t, ht, hw, hs⟩ := emitCode_ok (x := symOfByte s.sinData[s.sinPos])
            (s := { s.useAnswer with sinPos := s.sinPos + 1 }) (p := q) (hps.portsOk hp) (by rw [← hb]; exact he _)
          have et : t.etab = s.etab := by rw [hs.only]; rfl
          have ed : t.sinData = s.sinData := by rw [hs.only]; rfl
          have ep : t.sinPos = s.sinPos + 1 := by rw [hs.only]
          obtain ⟨u, hu, huw, hup, hus⟩ := ih (s := t) (p := r) (hs.portsOk (hps.portsOk hp)) (by rw [et]; exact he)
            (by rw [ed, ep]; exact hl) (by rw [ed, ep]; omega) (by rw [ed, ep]; exact hr)
          refine ⟨u, by simp only [ht, andThen_ok]; exact hu, ?_, by rw [hup, ed], hps.trans (hs.coder.trans hus)⟩
          rw [huw, hw, ← hc, List.append_assoc]
          rfl

/-- The first byte without a code stops the loop, after the codes of the bytes before it (R196). -/
theorem encodeInput_noCode (t : CodeTree) : ∀ (before after : List Byte) (b : Byte) (p : Bits) {fuel : Nat} {s : State}, portsOk s →
    (∀ x, ETab.find s.etab x = t.code x) → s.sinData.drop s.sinPos = before ++ b :: after → before.length < fuel →
    t.codes (before.map symOfByte) = some p → t.code (symOfByte b) = none →
    ∃ u, encodeInput fuel s = .raise .noCode u ∧ writtenBits u = writtenBits s ++ p ∧ u.sinPos = s.sinPos + before.length + 1 ∧ CoderStep s u := by
  intro before
  induction before with
  | nil =>
    intro after b p fuel s hp he hd hf hc hb
    cases fuel with
    | zero => omega
    | succ f =>
      simp only [List.map_nil, CodeTree.codes, Option.some.injEq] at hc
      subst hc
      have hx : s.sinData[s.sinPos]? = some b := by
        have := congrArg (fun l => l[0]?) hd
        simpa using this
      have hps := pull_coder s
      rw [pull_byte (nextAccessFails_of_portsOk hp) hx] at hps
      refine ⟨_, ?_, ?_, ?_, hps⟩
      · rw [encodeInput, pull_byte (nextAccessFails_of_portsOk hp) hx]
        simp only
        rw [emitCode_none]; rfl
        show ETab.find s.etab _ = none
        rw [he, hb]
      · simp [writtenBits]
      · simp
  | cons c before ih =>
    intro after b p fuel s hp he hd hf hc hb
    cases fuel with
    | zero => omega
    | succ f =>
      simp only [List.map_cons, CodeTree.codes] at hc
      cases hq : t.code (symOfByte c) with
      | none => rw [hq] at hc; cases hc
      | some q =>
        rw [hq] at hc
        cases hr : t.codes (before.map symOfByte) with
        | none => rw [hr] at hc; cases hc
        | some r =>
          rw [hr] at hc
          simp only [Option.map_some, Option.some.injEq] at hc
          have hx : s.sinData[s.sinPos]? = some c := by
            have := congrArg (fun l => l[0]?) hd
            simpa using this
          have hpull := pull_byte (nextAccessFails_of_portsOk hp) hx
          have hps := pull_coder s
          rw [hpull] at hps
          obtain ⟨v, hv1, hv2, hv3⟩ := emitCode_ok (x := symOfByte c) (s := { s.useAnswer with sinPos := s.sinPos + 1 }) (p := q)
            (hps.portsOk hp) (by rw [← hq]; exact he _)
          have et : v.etab = s.etab := by rw [hv3.only]; rfl
          have ed : v.sinData = s.sinData := by rw [hv3.only]; rfl
          have ep : v.sinPos = s.sinPos + 1 := by rw [hv3.only]
          obtain ⟨u, hu1, hu2, hu3, hu4⟩ := ih after b r (fuel := f) (s := v) (hv3.portsOk (hps.portsOk hp)) (by rw [et]; exact he)
            (by
              rw [ed, ep]
              have := congrArg (List.drop 1) hd
              simpa [List.drop_drop] using this) (by simp at hf; omega) hr hb
          refine ⟨u, ?_, ?_, ?_, hps.trans (hv3.coder.trans hu4)⟩
          · rw [encodeInput, hpull]; simp only [hv1, andThen_ok]; exact hu1
          · rw [hu2, hv2, ← hc, List.append_assoc]; rfl
          · rw [hu3, ep]; simp; omega

/-! ### Steps 2 to 5 of `decompress` -/

/-- What the decoder's loop leaves unchanged: it moves the reader and SOUT, and sets EOSSEEN or TRUNC. -/
structure DecoderStep (s t : State) : Prop where
  only : t = { s with
    rbuf := t.rbuf, rcnt := t.rcnt, sinPos := t.sinPos, portScript := t.portScript, sout := t.sout,
    eosseen := t.eosseen, trunc := t.trunc }
  answers : t.portScript <:+ s.portScript
  grows : s.sout <+: t.sout
  forward : s.sinPos ≤ t.sinPos
  inside : s.sinPos ≤ s.sinData.length → t.sinPos ≤ s.sinData.length

theorem DecoderStep.portsOk {s t : State} (h : DecoderStep s t) (hs : portsOk s) : Sys2Proof.Machine.portsOk t :=
  portsOk_of_suffix h.answers hs

theorem DecoderStep.trans {s t u : State} (h1 : DecoderStep s t) (h2 : DecoderStep t u) : DecoderStep s u where
  only := by
    have e1 := h1.only
    have e2 := h2.only
    rw [e1] at e2
    exact e2
  answers := h2.answers.trans h1.answers
  grows := h1.grows.trans h2.grows
  forward := le_trans h1.forward h2.forward
  inside := fun h => by
    have e : t.sinData = s.sinData := by rw [h1.only]
    have := h2.inside (by rw [e]; exact h1.inside h)
    rwa [e] at this

theorem ReaderStep.decoder {s t : State} (h : ReaderStep s t) : DecoderStep s t where
  only := by
    have e := h.only
    have e1 : t.sout = s.sout := by rw [e]
    have e2 : t.eosseen = s.eosseen := by rw [e]
    have e3 : t.trunc = s.trunc := by rw [e]
    rw [e1, e2, e3]; exact e
  answers := h.answers
  grows := by rw [h.only]
  forward := h.forward
  inside := h.inside

theorem push_decoder (b : Byte) (s : State) : DecoderStep s (push b s).2 := by
  rcases push_cases b s with ⟨_, h⟩ | ⟨_, h⟩ <;> rw [h]
  · exact (useAnswer_readerStep s).decoder
  · exact ⟨rfl, List.tail_suffix _, List.prefix_append _ _, le_refl _, id⟩

theorem setTrunc_decoder {s t : State} (h : DecoderStep s t) : DecoderStep s { t with trunc := true } :=
  h.trans ⟨rfl, List.suffix_refl _, List.prefix_refl _, le_refl _, id⟩

theorem setEosseen_decoder {s t : State} (h : DecoderStep s t) : DecoderStep s { t with eosseen := true, rcnt := 0 } :=
  h.trans ⟨rfl, List.suffix_refl _, List.prefix_refl _, le_refl _, id⟩

theorem decodePayload_ends (fuel : Nat) (s : State) : (decodePayload fuel s).Ends (DecoderStep s) := by
  induction fuel generalizing s with
  | zero => exact setTrunc_decoder (ReaderStep.refl s).decoder
  | succ f ih =>
    have hd := decodeOne_ends s
    unfold decodePayload
    cases h : decodeOne s with
    | stuck w => trivial
    | raise k t =>
      rw [h] at hd
      simp only
      split
      · exact setTrunc_decoder (ReaderStep.decoder hd)
      · exact ReaderStep.decoder hd
    | ok x t =>
      rw [h] at hd
      have hd' : DecoderStep s t := ReaderStep.decoder hd
      simp only
      split
      · exact setEosseen_decoder hd'
      · have hp := push_decoder (x.setWidth 8) t
        rcases push_cases (x.setWidth 8) t with ⟨_, h'⟩ | ⟨_, h'⟩ <;> rw [h'] at hp ⊢
        · exact hd'.trans hp
        · exact (ih _).mono fun u hu => hd'.trans (hp.trans hu)

theorem decodePayload_runs (fuel : Nat) (s : State) : (decodePayload fuel s).Runs := by
  induction fuel generalizing s with
  | zero => trivial
  | succ f ih =>
    have hr := decodeFrom_runs (bitsLeft s + 1) s.root s
    unfold decodePayload
    cases h : decodeOne s with
    | stuck w => rw [decodeOne] at h; rw [h] at hr; exact hr
    | raise k t =>
      simp only
      split <;> trivial
    | ok x t =>
      simp only
      split
      · trivial
      · rcases push_cases (x.setWidth 8) t with ⟨_, h'⟩ | ⟨_, h'⟩ <;> rw [h']
        · trivial
        · exact ih _

theorem symOfByte_ne_eos (b : Byte) : symOfByte b ≠ Config.eos := by
  revert b; decide +kernel

theorem symOfByte_setWidth (b : Byte) : (symOfByte b).setWidth 8 = b := by
  revert b; decide +kernel

theorem decodeOne_ok {s : State} {l r : CodeTree} (hp : portsOk s) (ht : treeAt s.tmem s.root = some (.node l r)) {x : Sym}
    {p rest : Bits} (hc : (CodeTree.node l r).code x = some p) (hu : unreadBits s = p ++ rest) :
    ∃ u, decodeOne s = .ok x u ∧ unreadBits u = rest ∧ ReaderStep s u := by
  refine decodeFrom_ok _ hp ht hc (CodeTree.code_ne_nil hc) hu ?_
  rw [← unreadBits_length, hu]; simp; omega

/-- One turn of the decoder's loop on a data byte's code (R199). -/
theorem decodePayload_byte {fuel : Nat} {s : State} {l r : CodeTree} (hp : portsOk s)
    (ht : treeAt s.tmem s.root = some (.node l r)) {b : Byte} {p rest : Bits}
    (hc : (CodeTree.node l r).code (symOfByte b) = some p) (hu : unreadBits s = p ++ rest) :
    ∃ u, decodePayload (fuel + 1) s = decodePayload fuel u ∧ unreadBits u = rest ∧ u.sout = s.sout ++ [b] ∧
      u.eosseen = s.eosseen ∧ u.trunc = s.trunc ∧ DecoderStep s u := by
  obtain ⟨t, ht1, ht2, ht3⟩ := decodeOne_ok hp ht hc hu
  have hpush : push ((symOfByte b).setWidth 8) t = (.ok, { t.useAnswer with sout := t.sout ++ [b] }) := by
    rcases push_cases ((symOfByte b).setWidth 8) t with ⟨hf, _⟩ | ⟨_, h⟩
    · rw [nextAccessFails_of_portsOk (ht3.portsOk hp)] at hf; cases hf
    · rw [h, symOfByte_setWidth]
  have hstep := push_decoder ((symOfByte b).setWidth 8) t
  rw [hpush] at hstep
  refine ⟨{ t.useAnswer with sout := t.sout ++ [b] }, ?_, ht2, ?_, ?_, ?_, (ReaderStep.decoder ht3).trans hstep⟩
  · rw [decodePayload, ht1]
    simp only [symOfByte_ne_eos, if_false, hpush]
  · show t.sout ++ [b] = _; rw [ht3.only]
  · show t.eosseen = _; rw [ht3.only]
  · show t.trunc = _; rw [ht3.only]

/-- The codes of data bytes at the head of the unread bits are decoded to SOUT, turn by turn (R199). -/
theorem decodePayload_bytes {l r : CodeTree} (input : List Byte) :
    ∀ {fuel : Nat} {s : State} {p rest : Bits}, portsOk s → treeAt s.tmem s.root = some (.node l r) →
      (CodeTree.node l r).codes (input.map symOfByte) = some p → unreadBits s = p ++ rest →
      ∃ u, decodePayload (fuel + input.length) s = decodePayload fuel u ∧ unreadBits u = rest ∧
        u.sout = s.sout ++ input ∧ u.eosseen = s.eosseen ∧ u.trunc = s.trunc ∧ DecoderStep s u := by
  induction input with
  | nil =>
    intro fuel s p rest hp ht hc hu
    simp only [List.map_nil, CodeTree.codes, Option.some.injEq] at hc
    subst hc
    exact ⟨s, rfl, hu, by simp, rfl, rfl, (ReaderStep.refl s).decoder⟩
  | cons b input ih =>
    intro fuel s p rest hp ht hc hu
    simp only [List.map_cons, CodeTree.codes] at hc
    cases hb : (CodeTree.node l r).code (symOfByte b) with
    | none => rw [hb] at hc; cases hc
    | some q =>
      rw [hb] at hc
      cases hr : (CodeTree.node l r).codes (input.map symOfByte) with
      | none => rw [hr] at hc; cases hc
      | some r' =>
        rw [hr] at hc
        simp only [Option.map_some, Option.some.injEq] at hc
        obtain ⟨t, h1, h2, h3, h4, h5, h6⟩ := decodePayload_byte (fuel := fuel + input.length) hp ht hb
          (rest := r' ++ rest) (by rw [hu, ← hc, List.append_assoc])
        have e1 : t.tmem = s.tmem := by rw [h6.only]
        have e2 : t.root = s.root := by rw [h6.only]
        obtain ⟨u, k1, k2, k3, k4, k5, k6⟩ := ih (fuel := fuel) (s := t) (h6.portsOk hp) (by rw [e1, e2]; exact ht) hr h2
        refine ⟨u, ?_, k2, by rw [k3, h3]; simp, by rw [k4, h4], by rw [k5, h5], h6.trans k6⟩
        rw [List.length_cons, ← Nat.add_assoc, h1, k1]

/-- The last turn on the marker's code (R200). -/
theorem decodePayload_marker {fuel : Nat} {s : State} {l r : CodeTree} (hp : portsOk s)
    (ht : treeAt s.tmem s.root = some (.node l r)) {p rest : Bits}
    (hc : (CodeTree.node l r).code Config.eos = some p) (hu : unreadBits s = p ++ rest) :
    ∃ u, decodePayload (fuel + 1) s = .ok () u ∧ u.rcnt = 0 ∧ unreadBits u = rest.drop (rest.length % 8) ∧
      u.sout = s.sout ∧ u.eosseen = true ∧ u.trunc = s.trunc ∧ DecoderStep s u := by
  obtain ⟨t, ht1, ht2, ht3⟩ := decodeOne_ok hp ht hc hu
  refine ⟨{ t with eosseen := true, rcnt := 0 }, ?_, rfl, ?_, ?_, rfl, ?_, setEosseen_decoder (ReaderStep.decoder ht3)⟩
  · rw [decodePayload, ht1]; simp
  · have hr := rcnt_eq t
    rw [ht2] at hr
    have hb : (bitsOf t.rcnt.toNat t.rbuf).length = t.rcnt.toNat := bitsOf_length _ _
    rw [← hr, ← ht2]
    conv_rhs => rw [unreadBits]
    rw [List.drop_append_of_le_length (by omega), List.drop_of_length_le (by omega)]
    rfl
  · show t.sout = _; rw [ht3.only]
  · show t.trunc = _; rw [ht3.only]

/-- The last turn where the bits run out (R201). -/
theorem decodePayload_truncated {fuel : Nat} {s : State} {t : CodeTree} (hp : portsOk s) (ht : treeAt s.tmem s.root = some t)
    (hn : t.symbols.Nodup) (hc : ∀ x p, t.code x = some p → ¬ p <+: unreadBits s) :
    ∃ u, decodePayload (fuel + 1) s = .ok () u ∧ unreadBits u = [] ∧
      u.sout = s.sout ∧ u.eosseen = s.eosseen ∧ u.trunc = true ∧ DecoderStep s u := by
  obtain ⟨v, hv1, hv2, hv3⟩ := decodeFrom_exhausted t (fuel := bitsLeft s + 1) hp ht hn hc
    (by rw [unreadBits_length]; omega)
  refine ⟨{ v with trunc := true }, ?_, hv2, ?_, ?_, rfl, setTrunc_decoder (ReaderStep.decoder hv3)⟩
  · rw [decodePayload, decodeOne, hv1]; simp
  · show v.sout = _; rw [hv3.only]
  · show v.eosseen = _; rw [hv3.only]

end Sys2Proof.Machine
end

