-- ==== Sys2Proof/Laws/Machine.lean ====
section
/-! SUPPORT. What a step can be: the inversion lemmas of `step`, `act`, `issue` and `hostWrite`, and what
every path of the composite commands' bodies leaves unchanged. -/

namespace Sys2Proof.Machine

/-! ### Each kind of step as an equation -/

/-- An offset names a whole word where it is a multiple of 4 (R61). -/
theorem wordAligned_iff (off : Offset) : wordAligned off = true ↔ off.toNat % 4 = 0 := by
  simp [wordAligned, ← BitVec.toNat_inj]

theorem step_idle {s : State} (h : s.actions = []) : step s = .next s := by
  rw [step, nextAction, h]

/-- A step performs the next action (D29). -/
theorem step_action {s : State} {a : Action} {rest : List Action} (h : s.actions = a :: rest) :
    step s = act a { s with actions := rest } := by
  rw [step, nextAction, h]

theorem act_issue (w : Word) (s : State) : act (.write cmdOffset w) s = issue w s := by
  rw [act, if_neg (by decide), if_pos rfl]

theorem act_write {off : Offset} (ha : off.toNat % 4 = 0) (hc : off ≠ cmdOffset) (v : Word) (s : State) :
    act (.write off v) s = .next (hostWrite off v s) := by
  rw [act, if_neg (by simp [(wordAligned_iff off).mpr ha]), if_neg hc]

theorem act_read {off : Offset} (ha : off.toNat % 4 = 0) (s : State) :
    act (.read off) s = .next { s with readLog := s.readLog ++ [hostRead off s] } := by
  rw [act, if_neg (by simp [(wordAligned_iff off).mpr ha])]

theorem act_misaligned {off : Offset} (ha : off.toNat % 4 ≠ 0) (v : Word) (s : State) :
    act (.write off v) s = .refused .misalignedAccess ∧ act (.read off) s = .refused .misalignedAccess := by
  have h : ¬wordAligned off = true := fun h => ha ((wordAligned_iff off).mp h)
  exact ⟨by rw [act, if_pos h], by rw [act, if_pos h]⟩

theorem issue_command {w : Word} {i : Instr} (h : decode w = .command i) (s : State) : issue w s = exec i s := by
  rw [issue, h]

theorem issue_illegal {w : Word} {why : Illegal} (h : decode w = .illegal why) (s : State) :
    issue w s = execIllegal s := by
  rw [issue, h]

/-- In the fault state every command but RST is ignored (R282). -/
theorem exec_fault {i : Instr} {s : State} (he : s.err ≠ 0) (hi : i ≠ .rst) : exec i s = .next s := by
  cases i
  case rst => exact absurd rfl hi
  all_goals
    simp only [exec, execNop, execRdbit, execRdbits, execWrbit, execWrbits, execFlush, execRdalign, execTser, execTdes,
      execBldtab, execEncsym, execCompress, execDec1, execDecompress]
    exact command_fault he

/-- In the fault state a host write that issues no command is dropped (R282). -/
theorem hostWrite_fault {s : State} (he : s.err ≠ 0) (off : Offset) (v : Word) : hostWrite off v s = s := if_pos he

/-! ### What a step can be -/

/-- If a step answers a next state, the host idled or one action was performed. -/
theorem step_next {s t : State} (h : step s = .next t) :
    (s.actions = [] ∧ t = s) ∨ ∃ a rest, s.actions = a :: rest ∧ act a { s with actions := rest } = .next t := by
  unfold step nextAction at h
  cases ha : s.actions with
  | nil => rw [ha] at h; cases h; exact .inl ⟨rfl, rfl⟩
  | cons a rest => rw [ha] at h; exact .inr ⟨a, rest, rfl, h⟩

/-- If an action answers a next state, it is one of these. -/
theorem act_next {a : Action} {s t : State} (h : act a s = .next t) :
    (∃ w, a = .write cmdOffset w ∧ issue w s = .next t) ∨
    (∃ off v, a = .write off v ∧ off ≠ cmdOffset ∧ t = hostWrite off v s) ∨
    (∃ off, a = .read off ∧ t = { s with readLog := s.readLog ++ [hostRead off s] }) ∨
    (∃ bytes, a = .feed bytes ∧ t = { s with sinData := s.sinData ++ bytes }) ∨
    (∃ answers, a = .ports answers ∧ t = { s with portScript := s.portScript ++ answers }) ∨
    (a = .reset ∧ t = softReset s) := by
  cases a with
  | write off v =>
    simp only [act] at h
    split at h
    · cases h
    · split at h
      · rename_i hc; subst hc; exact .inl ⟨v, rfl, h⟩
      · rename_i hc; cases h; exact .inr (.inl ⟨off, v, rfl, hc, rfl⟩)
  | read off =>
    simp only [act] at h
    split at h
    · cases h
    · cases h; exact .inr (.inr (.inl ⟨off, rfl, rfl⟩))
  | feed bytes => cases h; exact .inr (.inr (.inr (.inl ⟨bytes, rfl, rfl⟩)))
  | ports answers => cases h; exact .inr (.inr (.inr (.inr (.inl ⟨answers, rfl, rfl⟩))))
  | reset => cases h; exact .inr (.inr (.inr (.inr (.inr ⟨rfl, rfl⟩))))

/-- The issue of a word runs the decoded command, or enters the fault state, or is ignored in it (R95, R96,
R277, R282). -/
theorem issue_next {w : Word} {s t : State} (h : issue w s = .next t) :
    (∃ i, decode w = .command i ∧ exec i s = .next t) ∨
    (∃ why, decode w = .illegal why ∧ ((s.err ≠ 0 ∧ t = s) ∨ (s.err = 0 ∧ t = faultEntry .illegalCommand s))) := by
  unfold issue at h
  cases hd : decode w with
  | command i => rw [hd] at h; exact .inl ⟨i, rfl, h⟩
  | illegal why =>
    rw [hd] at h
    refine .inr ⟨why, rfl, ?_⟩
    rcases command_next h with ⟨he, ht⟩ | ⟨he, hb | ⟨k, u, hb, ht⟩⟩
    · exact .inl ⟨he, ht⟩
    · cases hb
    · cases hb; exact .inr ⟨he, ht⟩

/-- All that a host write other than a command's issue can do (R253). -/
theorem hostWrite_cases (off : Offset) (v : Word) (s : State) :
    hostWrite off v s = s ∨
    (s.err = 0 ∧ hostWrite off v s = { s with root := v.extractLsb' 0 10, tvalid := false, tblv := false }) ∨
    (s.err = 0 ∧ hostWrite off v s = { s with etidx := v.extractLsb' 0 9 }) ∨
    (s.err = 0 ∧ hostWrite off v s =
      { s with tmem := Memory.write s.tmem (tmemIndex off) v, tvalid := false, tblv := false }) := by
  unfold hostWrite
  split
  · exact .inl rfl
  · rename_i he
    have he' : s.err = 0 := by simpa using he
    split
    · exact .inr (.inl ⟨he', rfl⟩)
    · split
      · exact .inr (.inr (.inl ⟨he', rfl⟩))
      · split
        · exact .inr (.inr (.inr ⟨he', rfl⟩))
        · exact .inl rfl

/-! ### The composite commands' bodies, on every path -/

/-- What COMPRESS can write (R196): the writer, SOUT, SIN's cursor, ETAB, TBLV and TVALID. -/
structure CompressStep (s t : State) : Prop where
  only : t = { s with
    wacc := t.wacc, wcnt := t.wcnt, sout := t.sout, portScript := t.portScript, sinPos := t.sinPos,
    etab := t.etab, tblv := t.tblv, tvalid := t.tvalid }
  answers : t.portScript <:+ s.portScript
  grows : s.sout <+: t.sout
  clean : writerClean s → writerClean t
  forward : s.sinPos ≤ t.sinPos
  inside : s.sinPos ≤ s.sinData.length → t.sinPos ≤ s.sinData.length

theorem CompressStep.trans {s t u : State} (h1 : CompressStep s t) (h2 : CompressStep t u) : CompressStep s u where
  only := by
    have e1 := h1.only
    have e2 := h2.only
    rw [e1] at e2
    exact e2
  answers := h2.answers.trans h1.answers
  grows := h1.grows.trans h2.grows
  clean := fun h => h2.clean (h1.clean h)
  forward := le_trans h1.forward h2.forward
  inside := fun h => by
    have e : t.sinData = s.sinData := by rw [h1.only]
    have := h2.inside (by rw [e]; exact h1.inside h)
    rwa [e] at this

theorem CoderStep.compress {s t : State} (h : CoderStep s t) : CompressStep s t where
  only := by
    have e := h.only
    have e1 : t.etab = s.etab := by rw [e]
    have e2 : t.tblv = s.tblv := by rw [e]
    have e3 : t.tvalid = s.tvalid := by rw [e]
    rw [e1, e2, e3]; exact e
  answers := h.answers
  grows := h.grows
  clean := h.clean
  forward := h.forward
  inside := h.inside

theorem ensureValid_ends (s : State) : (ensureValid s).Ends fun t => t = { s with tvalid := t.tvalid } := by
  rcases ensureValid_cases s with ⟨_, h⟩ | ⟨_, _, h⟩ | ⟨_, _, h⟩ <;> rw [h] <;> exact rfl

theorem compressStep_of_table {s t : State} (h : t = { s with etab := t.etab, tblv := t.tblv, tvalid := t.tvalid }) :
    CompressStep s t := by
  refine ⟨?_, ?_, ?_, ?_, ?_, ?_⟩
  · rw [h]
  · rw [h]
  · rw [h]
  · rw [h]; exact id
  · rw [h]
  · rw [h]; exact id

theorem bldtabBody_ends (s : State) : (bldtabBody s).Ends (CompressStep s) := by
  cases h : treeAt s.tmem s.root with
  | none => simp [bldtabBody, withTree, h, Run.Ends]
  | some t => rw [bldtabBody_eq h]; exact compressStep_of_table rfl

theorem compressBody_ends (s : State) : (compressBody s).Ends (CompressStep s) := by
  unfold compressBody
  refine ((ensureValid_ends s).mono (Q := CompressStep s) fun t h => compressStep_of_table ?_).andThen (fun _ h => h)
    fun _ s1 h1 => ?_
  · rw [h]
  refine ((tserBody_ends s1).mono fun t h => h1.trans h.coder.compress).andThen (fun _ h => h) fun _ s2 h2 => ?_
  refine ((bldtabBody_ends s2).mono fun t h => h2.trans h).andThen (fun _ h => h) fun _ s3 h3 => ?_
  refine ((encodeInput_ends _ s3).mono fun t h => h3.trans h.compress).andThen (fun _ h => h) fun _ s4 h4 => ?_
  refine ((emitCode_ends _ s4).mono fun t h => h4.trans h.coder.compress).andThen (fun _ h => h) fun _ s5 h5 => ?_
  exact (flushWriter_ends s5).mono fun t h => h5.trans h.coder.compress

/-- What DECOMPRESS can write (R199): TMEM, ROOT, TVALID, TBLV, EOSSEEN, TRUNC, the reader, SIN's cursor and
SOUT. -/
structure DecompressStep (s t : State) : Prop where
  only : t = { s with
    tmem := t.tmem, root := t.root, tvalid := t.tvalid, tblv := t.tblv, eosseen := t.eosseen, trunc := t.trunc,
    rbuf := t.rbuf, rcnt := t.rcnt, sinPos := t.sinPos, sout := t.sout, portScript := t.portScript }
  answers : t.portScript <:+ s.portScript
  grows : s.sout <+: t.sout
  forward : s.sinPos ≤ t.sinPos
  inside : s.sinPos ≤ s.sinData.length → t.sinPos ≤ s.sinData.length
  tmemWf : Memory.wf s.tmem → Memory.wf t.tmem

theorem DecompressStep.trans {s t u : State} (h1 : DecompressStep s t) (h2 : DecompressStep t u) :
    DecompressStep s u where
  only := by
    have e1 := h1.only
    have e2 := h2.only
    rw [e1] at e2
    exact e2
  answers := h2.answers.trans h1.answers
  grows := h1.grows.trans h2.grows
  forward := le_trans h1.forward h2.forward
  inside := fun h => by
    have e : t.sinData = s.sinData := by rw [h1.only]
    have := h2.inside (by rw [e]; exact h1.inside h)
    rwa [e] at this
  tmemWf := fun h => h2.tmemWf (h1.tmemWf h)

theorem ParserStep.decompress {s t : State} (h : ParserStep s t) : DecompressStep s t where
  only := by
    have e := h.only
    have e1 : t.root = s.root := by rw [e]
    have e2 : t.tvalid = s.tvalid := by rw [e]
    have e3 : t.tblv = s.tblv := by rw [e]
    have e4 : t.eosseen = s.eosseen := by rw [e]
    have e5 : t.trunc = s.trunc := by rw [e]
    have e6 : t.sout = s.sout := by rw [e]
    rw [e1, e2, e3, e4, e5, e6]; exact e
  answers := h.answers
  grows := by rw [h.only]
  forward := h.forward
  inside := h.inside
  tmemWf := h.tmemWf

theorem DecoderStep.decompress {s t : State} (h : DecoderStep s t) : DecompressStep s t where
  only := by
    have e := h.only
    have e1 : t.root = s.root := by rw [e]
    have e2 : t.tvalid = s.tvalid := by rw [e]
    have e3 : t.tblv = s.tblv := by rw [e]
    have e4 : t.tmem = s.tmem := by rw [e]
    rw [e1, e2, e3, e4]; exact e
  answers := h.answers
  grows := h.grows
  forward := h.forward
  inside := h.inside
  tmemWf := fun hw => by
    have e4 : t.tmem = s.tmem := by rw [h.only]
    rwa [e4]

theorem decompressBody_ends (s : State) : (decompressBody s).Ends (DecompressStep s) := by
  unfold decompressBody
  have h0 : DecompressStep s
      { s with eosseen := false, trunc := false, tvalid := false, tblv := false, root := 0, tmem := [] } :=
    ⟨rfl, List.suffix_refl _, List.prefix_refl _, le_refl _, id, fun _ => Memory.wf_nil⟩
  refine ((tdesBody_ends _).mono (Q := DecompressStep s) fun t h => h0.trans h.decompress).andThen (fun _ h => h)
    fun _ s1 h1 => ?_
  refine ((ensureValid_ends s1).mono (Q := DecompressStep s) fun t h => ?_).andThen (fun _ h => h) fun _ s2 h2 => ?_
  · refine h1.trans ⟨?_, ?_, ?_, ?_, ?_, ?_⟩
    · rw [h]
    · rw [h]
    · rw [h]
    · rw [h]
    · rw [h]; exact id
    · rw [h]; exact id
  · exact (decodePayload_ends _ s2).mono fun t h => h2.trans h.decompress

end Sys2Proof.Machine
end

