-- ==== Sys2Proof/Laws/Raises.lean ====
section
/-! SUPPORT. The error kinds each procedure can raise, on every path (spec 60_exceptions.md R270 to R278), and
how `require` and `command` pass a body's facts on (00_scope.md R11). -/

namespace Sys2Proof.Machine

/-! ### `require` and `command` -/

theorem requireElse_ends {c : Prop} [Decidable c] {k : ErrKind} {f : State → Run Unit} {P : State → Prop} {s : State} (h0 : P s) (h : (f s).Ends P) :
    (requireElse c k f s).Ends P := by
  unfold requireElse; split
  · exact h
  · exact h0

theorem requireElse_runs {c : Prop} [Decidable c] {k : ErrKind} {f : State → Run Unit} {s : State} (h : (f s).Runs) : (requireElse c k f s).Runs := by
  unfold requireElse; split
  · exact h
  · trivial

theorem requireElse_raises {c : Prop} [Decidable c] {k : ErrKind} {f : State → Run Unit} {P : ErrKind → Prop} {s : State} (hk : P k) (h : (f s).Raises P) : (requireElse c k f s).Raises P := by
  unfold requireElse; split
  · exact h
  · exact hk

/-- What a command leaves, from what its body ends in (R280, R282). -/
theorem command_ends {body : State → Run Unit} {P : State → Prop} {s t : State} (hb : (body s).Ends P) (h : command body s = .next t) :
    t = s ∨ (s.err = 0 ∧ P t) ∨ (s.err = 0 ∧ ∃ k u, P u ∧ t = faultEntry k u) := by
  rcases command_next h with ⟨_, rfl⟩ | ⟨h0, h' | ⟨k, u, h', rfl⟩⟩
  · exact .inl rfl
  · rw [h'] at hb; exact .inr (.inl ⟨h0, hb⟩)
  · rw [h'] at hb; exact .inr (.inr ⟨h0, k, u, hb, rfl⟩)

theorem ensureValid_runs (s : State) : (ensureValid s).Runs := by
  rcases ensureValid_cases s with ⟨_, e⟩ | ⟨_, _, e⟩ | ⟨_, _, e⟩ <;> rw [e] <;> trivial

/-! ### The kinds -/

theorem Run.Raises.translate {α : Type} {r : Run α} {P Q : ErrKind → Prop} {a b : ErrKind} (h : r.Raises P) (hq : ∀ k, P k → Q (if k = a then b else k)) : (r.translate a b).Raises Q := by
  cases r <;> first | exact hq _ h | trivial

theorem readBit_raises (s : State) : (readBit s).Raises (· ∈ [.bitsExhausted, .ioError]) := by
  unfold readBit; split
  · rcases pull_cases s with ⟨_, h⟩ | ⟨_, _, h⟩ | ⟨_, _, h⟩ <;> rw [h]
    · simp [Run.Raises]
    · simp [Run.Raises]
    · trivial
  · trivial

theorem readBits_raises (n : Nat) (v : Word) (s : State) : (readBits n v s).Raises (· ∈ [.bitsExhausted, .ioError]) := by
  induction n generalizing v s with
  | zero => trivial
  | succ n ih => exact (readBit_raises s).andThen fun b t => ih _ t

theorem hbits_kinds (n : Nat) (s : State) : (hbits n s).Raises (· ∈ [.corruptHeader, .ioError]) :=
  Run.Raises.translate (readBits_raises n 0 s) fun k hk => by simp at hk ⊢; rcases hk with rfl | rfl <;> simp

theorem pushByte_raises (x : Byte) (s : State) : (pushByte x s).Raises (· ∈ [.ioError]) := by
  unfold pushByte
  rcases push_cases x s with ⟨_, h⟩ | ⟨_, h⟩ <;> rw [h] <;> simp [Run.Raises]

theorem writeBit_raises (b : Bool) (s : State) : (writeBit b s).Raises (· ∈ [.ioError]) := by
  unfold writeBit; split
  · exact pushByte_raises _ _
  · trivial

theorem writeAll_raises (p : Bits) (s : State) : (writeAll p s).Raises (· ∈ [.ioError]) := by
  induction p generalizing s with
  | nil => trivial
  | cons b p ih => exact (writeBit_raises b s).andThen fun _ t => ih t

theorem flushWriter_raises (s : State) : (flushWriter s).Raises (· ∈ [.ioError]) := by
  unfold flushWriter; split
  · exact pushByte_raises _ _
  · trivial

theorem ensureValid_raises (s : State) : (ensureValid s).Raises (· ∈ [.invalidTree]) := by
  rcases ensureValid_cases s with ⟨_, h⟩ | ⟨_, _, h⟩ | ⟨_, _, h⟩ <;> rw [h] <;> simp [Run.Raises]

theorem tserBody_raises (s : State) : (tserBody s).Raises (· ∈ [.ioError]) := by
  cases ht : treeAt s.tmem s.root with
  | none => rw [tserBody, withTree, ht]; trivial
  | some t => rw [tserBody_eq ht]; exact (writeAll_raises _ s).andThen fun _ u => flushWriter_raises u

theorem bldtabBody_raises (s : State) : (bldtabBody s).Raises (· ∈ []) := by
  cases ht : treeAt s.tmem s.root with
  | none => rw [bldtabBody, withTree, ht]; trivial
  | some t => rw [bldtabBody_eq ht]; trivial

theorem parse_kinds (f n : Nat) (s : State) : (parse f n s).Raises (· ∈ [.corruptHeader, .ioError]) := by
  induction f generalizing n s with
  | zero => simp [parse, Run.Raises]
  | succ f ih =>
    unfold parse; split
    · simp [Run.Raises]
    · refine (hbits_kinds 1 s).andThen fun m t => ?_
      split
      · refine (hbits_kinds 9 t).andThen fun v u => ?_
        split <;> simp [Run.Raises]
      · exact (ih _ t).andThen fun l u => (ih _ u).andThen fun _ _ => trivial

theorem checkPad_kinds (f : Nat) (s : State) : (checkPad f s).Raises (· ∈ [.corruptHeader, .ioError]) := by
  induction f generalizing s with
  | zero => trivial
  | succ f ih =>
    unfold checkPad; split
    · trivial
    · refine (hbits_kinds 1 s).andThen fun m t => ?_
      split
      · simp [Run.Raises]
      · exact ih t

theorem tdesBody_kinds (s : State) : (tdesBody s).Raises (· ∈ [.corruptHeader, .ioError]) := by
  unfold tdesBody
  refine Run.Raises.onRaise ((hbits_kinds 8 _).andThen fun v t => ?_) _
  split
  · simp [Run.Raises]
  · exact (parse_kinds _ _ t).andThen fun _ u => checkPad_kinds _ u

theorem decodeFrom_raises (f : Nat) (c : NodeIdx) (s : State) : (decodeFrom f c s).Raises (· ∈ [.truncatedStream, .ioError]) := by
  induction f generalizing c s with
  | zero => simp [decodeFrom, Run.Raises]
  | succ f ih =>
    unfold decodeFrom
    refine Run.Raises.andThen (Run.Raises.translate (readBit_raises s) fun k hk => by simp at hk ⊢; rcases hk with rfl | rfl <;> simp) fun b t => ?_
    simp only
    split
    · trivial
    · exact ih _ t

theorem emitCode_raises (x : Sym) (s : State) : (emitCode x s).Raises (· ∈ [.noCode, .ioError]) := by
  unfold emitCode; split
  · simp [Run.Raises]
  · exact (writeAll_raises _ s).mono fun k h => by simp at h ⊢; exact .inr h

theorem encodeInput_raises (f : Nat) (s : State) : (encodeInput f s).Raises (· ∈ [.noCode, .ioError]) := by
  induction f generalizing s with
  | zero => trivial
  | succ f ih =>
    unfold encodeInput
    rcases pull_cases s with ⟨_, h⟩ | ⟨_, _, h⟩ | ⟨_, _, h⟩ <;> rw [h]
    · simp [Run.Raises]
    · trivial
    · exact (emitCode_raises _ _).andThen fun _ t => ih t

theorem decodePayload_raises (f : Nat) (s : State) : (decodePayload f s).Raises (· ∈ [.ioError]) := by
  induction f generalizing s with
  | zero => trivial
  | succ f ih =>
    have hr := decodeFrom_raises (bitsLeft s + 1) s.root s
    unfold decodePayload
    cases h : decodeOne s with
    | stuck w => trivial
    | raise k t =>
      rw [decodeOne] at h; rw [h] at hr
      simp only
      split
      · trivial
      · rename_i hk
        have : k ∈ [ErrKind.truncatedStream, .ioError] := hr
        simp [hk] at this
        simp [Run.Raises, this]
    | ok x t =>
      simp only
      split
      · trivial
      · rcases push_cases (x.setWidth 8) t with ⟨_, h'⟩ | ⟨_, h'⟩ <;> rw [h']
        · simp [Run.Raises]
        · exact ih _

end Sys2Proof.Machine
end

