-- ==== Sys2Proof/Laws/Answers.lean ====
section
/-! SUPPORT. The answers of the ports along a run (spec 20_memory.md R76, 60_exceptions.md R275): a piece of pseudocode
ends normally, or raises another kind than `IoError`, only where every access it made succeeded, and raises `IoError` right
after one that failed. -/

namespace Sys2Proof.Machine

variable {α β : Type}

/-! ### Runs -/

theorem AllSucceeded.refl (l : List Bool) : AllSucceeded l l := ⟨[], rfl, by simp⟩

theorem AllSucceeded.trans {a b c : List Bool} (h1 : AllSucceeded a b) (h2 : AllSucceeded b c) : AllSucceeded a c := by
  obtain ⟨u, rfl, hu⟩ := h1
  obtain ⟨v, rfl, hv⟩ := h2
  exact ⟨u ++ v, by simp, fun x hx => (List.mem_append.mp hx).elim (hu x) (hv x)⟩

/-- What the answers are where a raise of `k` leaves the script `l`: an `IoError` has used up a failure as its last. -/
def answersAtRaise (k : ErrKind) (l : List Bool) : List Bool := if k = .ioError then true :: l else l

/-- From the script `b` on, the run reports each failed access, and at once. -/
def Run.Answers (r : Run α) (b : List Bool) : Prop :=
  match r with
  | .ok _ t => AllSucceeded b t.portScript
  | .raise k t => AllSucceeded b (answersAtRaise k t.portScript)
  | .stuck _ => True

theorem Run.Answers.andThen {r : Run α} {f : α → State → Run β} {b : List Bool} (h : r.Answers b)
    (hf : ∀ a t, (f a t).Answers t.portScript) : (r.andThen f).Answers b := by
  cases r with
  | ok a t =>
    have h2 := hf a t
    show (f a t).Answers b
    cases hr : f a t with
    | ok c u => rw [hr] at h2; exact AllSucceeded.trans h h2
    | raise k u => rw [hr] at h2; exact AllSucceeded.trans h h2
    | stuck w => trivial
  | raise k t => exact h
  | stuck w => trivial

theorem Run.Answers.translate {r : Run α} {b : List Bool} (h : r.Answers b) {x y : ErrKind} (hx : x ≠ .ioError)
    (hy : y ≠ .ioError) : (r.translate x y).Answers b := by
  cases r with
  | ok a t => exact h
  | stuck w => trivial
  | raise k t =>
    show AllSucceeded b (answersAtRaise (if k = x then y else k) t.portScript)
    have h' : AllSucceeded b (answersAtRaise k t.portScript) := h
    split
    · rename_i hk
      rw [answersAtRaise, if_neg (hk ▸ hx)] at h'
      rwa [answersAtRaise, if_neg hy]
    · exact h'

theorem Run.Answers.onRaise {r : Run α} {b : List Bool} (h : r.Answers b) {f : State → State}
    (hf : ∀ t, (f t).portScript = t.portScript) : (r.onRaise f).Answers b := by
  cases r with
  | ok a t => exact h
  | stuck w => trivial
  | raise k t =>
    show AllSucceeded b (answersAtRaise k (f t).portScript)
    rw [hf]; exact h

theorem Run.Answers.onLeave {r : Run α} {b : List Bool} (h : r.Answers b) {f : State → State}
    (hf : ∀ t, (f t).portScript = t.portScript) : (r.onLeave f).Answers b := by
  cases r with
  | stuck w => trivial
  | ok a t =>
    show AllSucceeded b (f t).portScript
    rw [hf]; exact h
  | raise k t =>
    show AllSucceeded b (answersAtRaise k (f t).portScript)
    rw [hf]; exact h

theorem requireElse_answers {c : Prop} [Decidable c] {k : ErrKind} (hk : k ≠ .ioError) {f : State → Run Unit} {s : State}
    (h : (f s).Answers s.portScript) : (requireElse c k f s).Answers s.portScript := by
  unfold requireElse; split
  · exact h
  · show AllSucceeded _ (answersAtRaise k s.portScript)
    rw [answersAtRaise, if_neg hk]; exact .refl _

/-! ### The ports -/

theorem allSucceeded_tail {s : State} (h : nextAccessFails s = false) : AllSucceeded s.portScript s.portScript.tail := by
  unfold nextAccessFails at h
  cases hp : s.portScript with
  | nil => exact .refl _
  | cons a l => rw [hp] at h; exact ⟨[a], rfl, by simpa using h⟩

theorem allSucceeded_failed {s : State} (h : nextAccessFails s = true) :
    AllSucceeded s.portScript (true :: s.portScript.tail) := by
  unfold nextAccessFails at h
  cases hp : s.portScript with
  | nil => rw [hp] at h; cases h
  | cons a l => rw [hp] at h; obtain rfl : a = true := h; exact .refl _

/-! ### The procedures -/

theorem readBit_answers (s : State) : (readBit s).Answers s.portScript := by
  unfold readBit; split
  · rcases pull_cases s with ⟨hf, h⟩ | ⟨hf, _, h⟩ | ⟨_, hf, h⟩ <;> rw [h]
    · exact allSucceeded_failed hf
    · exact allSucceeded_tail hf
    · exact allSucceeded_tail hf
  · exact AllSucceeded.refl _

theorem readBits_answers (n : Nat) (v : Word) (s : State) : (readBits n v s).Answers s.portScript := by
  induction n generalizing v s with
  | zero => exact AllSucceeded.refl _
  | succ n ih => exact (readBit_answers s).andThen fun b t => ih _ t

theorem pushByte_answers (x : Byte) (s : State) : (pushByte x s).Answers s.portScript := by
  unfold pushByte
  rcases push_cases x s with ⟨hf, h⟩ | ⟨hf, h⟩ <;> rw [h]
  · exact allSucceeded_failed hf
  · exact allSucceeded_tail hf

theorem writeBit_answers (b : Bool) (s : State) : (writeBit b s).Answers s.portScript := by
  unfold writeBit; split
  · exact pushByte_answers _ { s with wacc := 0, wcnt := 0 }
  · exact AllSucceeded.refl _

theorem writeAll_answers (p : Bits) (s : State) : (writeAll p s).Answers s.portScript := by
  induction p generalizing s with
  | nil => exact AllSucceeded.refl _
  | cons b p ih => exact (writeBit_answers b s).andThen fun _ t => ih t

theorem flushWriter_answers (s : State) : (flushWriter s).Answers s.portScript := by
  unfold flushWriter; split
  · exact pushByte_answers _ { s with wacc := 0, wcnt := 0 }
  · exact AllSucceeded.refl _

theorem ensureValid_answers (s : State) : (ensureValid s).Answers s.portScript := by
  rcases ensureValid_cases s with ⟨_, h⟩ | ⟨_, _, h⟩ | ⟨_, _, h⟩ <;> rw [h] <;> exact AllSucceeded.refl _

theorem tserBody_answers (s : State) : (tserBody s).Answers s.portScript := by
  cases ht : treeAt s.tmem s.root with
  | none => rw [tserBody, withTree, ht]; trivial
  | some t => rw [tserBody_eq ht]; exact (writeAll_answers _ s).andThen fun _ u => flushWriter_answers u

theorem bldtabBody_answers (s : State) : (bldtabBody s).Answers s.portScript := by
  cases ht : treeAt s.tmem s.root with
  | none => rw [bldtabBody, withTree, ht]; trivial
  | some t => rw [bldtabBody_eq ht]; exact AllSucceeded.refl _

theorem hbits_answers (n : Nat) (s : State) : (hbits n s).Answers s.portScript :=
  (readBits_answers n 0 s).translate (by decide) (by decide)

theorem parse_answers (f n : Nat) (s : State) : (parse f n s).Answers s.portScript := by
  induction f generalizing n s with
  | zero => exact AllSucceeded.refl _
  | succ f ih =>
    unfold parse; split
    · exact AllSucceeded.refl _
    · refine (hbits_answers 1 s).andThen fun m t => ?_
      split
      · refine (hbits_answers 9 t).andThen fun v u => ?_
        split <;> exact AllSucceeded.refl _
      · exact (ih _ t).andThen fun l u => (ih _ u).andThen fun _ v => AllSucceeded.refl v.portScript

theorem checkPad_answers (f : Nat) (s : State) : (checkPad f s).Answers s.portScript := by
  induction f generalizing s with
  | zero => exact AllSucceeded.refl _
  | succ f ih =>
    unfold checkPad; split
    · exact AllSucceeded.refl _
    · refine (hbits_answers 1 s).andThen fun m t => ?_
      split
      · exact AllSucceeded.refl _
      · exact ih t

theorem tdesBody_answers (s : State) : (tdesBody s).Answers s.portScript := by
  unfold tdesBody
  refine Run.Answers.onRaise ((hbits_answers 8 (clearTmem { s with tvalid := false, tblv := false, root := 0 })).andThen
    fun v t => ?_) fun _ => rfl
  split
  · exact AllSucceeded.refl _
  · exact (parse_answers _ _ t).andThen fun _ u => checkPad_answers _ u

theorem decodeFrom_answers (f : Nat) (c : NodeIdx) (s : State) : (decodeFrom f c s).Answers s.portScript := by
  induction f generalizing c s with
  | zero => exact AllSucceeded.refl _
  | succ f ih =>
    unfold decodeFrom
    refine ((readBit_answers s).translate (by decide) (by decide)).andThen fun b t => ?_
    simp only
    split
    · exact AllSucceeded.refl _
    · exact ih _ t

theorem emitCode_answers (x : Sym) (s : State) : (emitCode x s).Answers s.portScript := by
  unfold emitCode; split
  · exact AllSucceeded.refl _
  · exact writeAll_answers _ s

theorem encodeInput_answers (f : Nat) (s : State) : (encodeInput f s).Answers s.portScript := by
  induction f generalizing s with
  | zero => exact AllSucceeded.refl _
  | succ f ih =>
    unfold encodeInput
    rcases pull_cases s with ⟨hf, h⟩ | ⟨hf, _, h⟩ | ⟨_, hf, h⟩ <;> rw [h]
    · exact allSucceeded_failed hf
    · exact allSucceeded_tail hf
    · refine Run.Answers.andThen ?_ fun _ t => ih t
      have h2 := emitCode_answers (symOfByte s.sinData[s.sinPos]) { s.useAnswer with sinPos := s.sinPos + 1 }
      generalize emitCode _ _ = r at h2
      cases r with
      | ok a t => exact (allSucceeded_tail hf).trans h2
      | raise k t => exact (allSucceeded_tail hf).trans h2
      | stuck w => trivial

theorem compressBody_answers (s : State) : (compressBody s).Answers s.portScript := by
  unfold compressBody
  exact (ensureValid_answers s).andThen fun _ s => (tserBody_answers s).andThen fun _ s =>
    (bldtabBody_answers s).andThen fun _ s => (encodeInput_answers _ s).andThen fun _ s =>
      (emitCode_answers _ s).andThen fun _ s => flushWriter_answers s

theorem decodePayload_answers (f : Nat) (s : State) : (decodePayload f s).Answers s.portScript := by
  induction f generalizing s with
  | zero => exact AllSucceeded.refl _
  | succ f ih =>
    have hd : (decodeOne s).Answers s.portScript := decodeFrom_answers _ _ s
    unfold decodePayload
    cases h : decodeOne s with
    | stuck w => trivial
    | raise k t =>
      rw [h] at hd
      simp only
      split
      · rename_i hk; subst hk; exact hd
      · exact hd
    | ok x t =>
      rw [h] at hd
      have hd' : AllSucceeded s.portScript t.portScript := hd
      simp only
      split
      · exact hd'
      · rcases push_cases (x.setWidth 8) t with ⟨hf, h'⟩ | ⟨hf, h'⟩ <;> rw [h']
        · exact hd'.trans (allSucceeded_failed hf)
        · have h2 := ih { t.useAnswer with sout := t.sout ++ [x.setWidth 8] }
          simp only
          generalize decodePayload f _ = r at h2
          cases r with
          | ok a u => exact hd'.trans ((allSucceeded_tail hf).trans h2)
          | raise k u => exact hd'.trans ((allSucceeded_tail hf).trans h2)
          | stuck w => trivial

theorem decompressBody_answers (s : State) : (decompressBody s).Answers s.portScript := by
  unfold decompressBody
  exact (tdesBody_answers { s with eosseen := false, trunc := false }).andThen fun _ s =>
    (ensureValid_answers s).andThen fun _ s => decodePayload_answers _ s

end Sys2Proof.Machine
end

