-- ==== Sys2Proof/Laws/Encoding.lean ====
section
/-! SUPPORT. The fields of a command word: taking them out and putting them together are inverse
(spec 30_encoding.md R91). -/

namespace Sys2Proof

/-- The fields of the word packed from fields (R91). -/
theorem fieldsOf_packFields (f : Fields) : fieldsOf (packFields f) = f := by
  obtain ⟨opc, mbz, n, arg⟩ := f
  simp only [fieldsOf, packFields, Fields.mk.injEq]
  refine ⟨?_, ?_, ?_, ?_⟩ <;>
    (apply BitVec.eq_of_getLsbD_eq
     intro i hi
     simp only [BitVec.getLsbD_extractLsb', BitVec.getLsbD_append])
  · have h1 : ¬ (24 + i < 16) := by omega
    have h2 : ¬ (24 + i - 16 < 5) := by omega
    have h3 : ¬ (24 + i - 16 - 5 < 3) := by omega
    have h4 : 24 + i - 16 - 5 - 3 = i := by omega
    simp only [h1, h2, h3, h4, hi, if_false, decide_true, Bool.true_and]
  · have h1 : ¬ (21 + i < 16) := by omega
    have h2 : ¬ (21 + i - 16 < 5) := by omega
    have h3 : 21 + i - 16 - 5 < 3 := by omega
    have h4 : 21 + i - 16 - 5 = i := by omega
    simp only [h1, h2, h4, hi, if_false, if_true, decide_true, Bool.true_and]
  · have h1 : ¬ (16 + i < 16) := by omega
    have h4 : 16 + i - 16 = i := by omega
    simp only [h1, h4, hi, if_false, if_true, decide_true, Bool.true_and]
  · have h4 : 0 + i = i := by omega
    simp only [h4, hi, if_true, decide_true, Bool.true_and]

/-- The word packed from the fields of a word (R91). -/
theorem packFields_fieldsOf (w : Word) : packFields (fieldsOf w) = w := by
  apply BitVec.eq_of_getLsbD_eq
  intro i hi
  simp only [fieldsOf, packFields, BitVec.getLsbD_extractLsb', BitVec.getLsbD_append]
  by_cases h1 : i < 16
  · simp only [h1, if_true, decide_true, Bool.true_and, Nat.zero_add]
  · by_cases h2 : i - 16 < 5
    · have h3 : 16 + (i - 16) = i := by omega
      simp only [h1, h2, h3, if_true, if_false, decide_true, Bool.true_and]
    · by_cases h4 : i - 16 - 5 < 3
      · have h5 : 21 + (i - 16 - 5) = i := by omega
        simp only [h1, h2, h4, h5, if_true, if_false, decide_true, Bool.true_and]
      · have h6 : i - 16 - 5 - 3 < 8 := by omega
        have h7 : 24 + (i - 16 - 5 - 3) = i := by omega
        simp only [h1, h2, h4, h6, h7, if_false, decide_true, Bool.true_and]

/-- The fields of a command's word (R92, R94). -/
theorem fieldsOf_encode (i : Instr) : fieldsOf (encode i) = encodeFields i := fieldsOf_packFields _

/-- A word is its fields. -/
theorem word_eq_of_fields {v w : Word} (h : fieldsOf v = fieldsOf w) : v = w := by
  rw [← packFields_fieldsOf v, h, packFields_fieldsOf]

/-- A word whose bits from `k` up are 0 is its low `k` bits. -/
theorem setWidth_low {a : BitVec 16} {k m : Nat} (hk : 16 ≤ k + m) (h : a.extractLsb' k m = 0) :
    (a.extractLsb' 0 k).setWidth 16 = a := by
  apply BitVec.eq_of_getLsbD_eq
  intro i hi
  by_cases hik : i < k
  · simp [hi, hik]
  · have hb := congrArg (fun v => v.getLsbD (i - k)) h
    have e : k + (i - k) = i := by omega
    have e' : i - k < m := by omega
    simp [e, e'] at hb
    simp [hb, hik]

/-- Nine bits below seven zeros. -/
theorem zeros_append (v : BitVec 9) : 0#7 ++ v = v.setWidth 16 := by
  apply BitVec.eq_of_getLsbD_eq
  intro i hi
  simp only [BitVec.getLsbD_append, BitVec.getLsbD_setWidth, hi, decide_true, Bool.true_and]
  split
  · rfl
  · rw [BitVec.getLsbD_of_ge v i (by omega)]; simp

/-- What format Z accepts (R92). -/
theorem formatZ_command {f : Fields} {i j : Instr} (h : formatZ f i = .command j) (hc : countField i = 0) (ha : argField i = 0) (ho : f.opc = opcode i)
    (hw : wellFormed i = true) :
    j = i ∧ encodeFields j = f ∧ wellFormed j = true := by
  unfold formatZ at h
  split at h
  · rename_i hh; cases h
    obtain ⟨o, m, n, a⟩ := f
    obtain ⟨h1, h2, h3⟩ := hh
    simp only at h1 h2 h3 ho
    refine ⟨rfl, ?_, hw⟩
    simp [encodeFields, hc, ha, h1, h2, h3, ho]
  · cases h

/-- What format N accepts (R92). -/
theorem formatN_command {f : Fields} {j : Instr} (h : formatN f .rdbits = .command j) (ho : f.opc = 2) :
    j = .rdbits f.n ∧ encodeFields j = f ∧ wellFormed j = true := by
  unfold formatN at h
  split at h
  · cases h
  · split at h
    · rename_i hh hw; cases h
      obtain ⟨o, m, n, a⟩ := f
      simp only [not_not] at hh ho hw ⊢
      simp [encodeFields, opcode, countField, argField, hh, ho, hw, wellFormed]
    · cases h

/-- What format V accepts (R92). -/
theorem formatV_command {f : Fields} {j : Instr} (h : formatV f .wrbits = .command j) (ho : f.opc = 4) :
    j = .wrbits f.arg f.n ∧ encodeFields j = f ∧ wellFormed j = true := by
  unfold formatV at h
  split at h
  · cases h
  · split at h
    · rename_i hh hw; cases h
      obtain ⟨o, m, n, a⟩ := f
      simp only [not_not] at hh ho hw ⊢
      simp [encodeFields, opcode, countField, argField, hh, ho, hw, wellFormed]
    · cases h

/-- What format B accepts (R92). -/
theorem formatB_command {f : Fields} {j : Instr} (h : formatB f .wrbit = .command j) (ho : f.opc = 3) :
    j = .wrbit (f.arg.getLsbD 0) ∧ encodeFields j = f ∧ wellFormed j = true := by
  unfold formatB at h
  split at h
  · rename_i hh; cases h
    obtain ⟨o, m, n, a⟩ := f
    obtain ⟨h1, h2, h3⟩ := hh
    simp only at h1 h2 h3 ho
    refine ⟨rfl, ?_, rfl⟩
    simp only [encodeFields, opcode, countField, argField, Fields.mk.injEq, h1, h2, ho, true_and]
    have hb : BitVec.ofBool (a.getLsbD 0) = a.extractLsb' 0 1 := by
      apply BitVec.eq_of_getLsbD_eq
      intro i hi
      obtain rfl : i = 0 := by omega
      simp
    have hw : (BitVec.ofBool (a.getLsbD 0)).setWidth 16 = a := by rw [hb]; exact setWidth_low (by omega) h3
    cases hc : a.getLsbD 0 <;> rw [hc] at hw <;> exact hw
  · cases h

/-- What format S accepts (R92, R97). -/
theorem formatS_command {f : Fields} {j : Instr} (h : formatS f .encsym = .command j) (ho : f.opc = 0x21) :
    j = .encsym (f.arg.extractLsb' 0 9) ∧ encodeFields j = f ∧ wellFormed j = true := by
  unfold formatS at h
  split at h
  · cases h
  · split at h
    · rename_i hh hw; cases h
      obtain ⟨o, m, n, a⟩ := f
      simp only [not_not] at hh ho hw ⊢
      obtain ⟨h1, h2, h3⟩ := hh
      refine ⟨trivial, ?_, hw⟩
      simp only [encodeFields, opcode, countField, argField, Fields.mk.injEq, h1, h2, ho, true_and]
      exact (zeros_append _).trans (setWidth_low (by omega) h3)
    · cases h

/-- If fields decode to a command, they are the fields of that command's word, it is well formed, and its operands
are those of R93. -/
theorem decodeFields_command {f : Fields} {j : Instr} (h : decodeFields f = .command j) :
    encodeFields j = f ∧ wellFormed j = true ∧
    (∀ n, j = .rdbits n → n = f.n) ∧ (∀ b, j = .wrbit b → b = f.arg.getLsbD 0) ∧
    (∀ v n, j = .wrbits v n → v = f.arg ∧ n = f.n) ∧ (∀ s, j = .encsym s → s = f.arg.extractLsb' 0 9) := by
  unfold decodeFields at h
  by_cases ho : f.opc = 0x00
  · rw [if_pos ho] at h
    obtain ⟨rfl, h1, h2⟩ := formatZ_command h rfl rfl ho rfl
    refine ⟨h1, h2, ?_, ?_, ?_, ?_⟩ <;> simp
  rw [if_neg ho] at h; clear ho
  by_cases ho : f.opc = 0x01
  · rw [if_pos ho] at h
    obtain ⟨rfl, h1, h2⟩ := formatZ_command h rfl rfl ho rfl
    refine ⟨h1, h2, ?_, ?_, ?_, ?_⟩ <;> simp
  rw [if_neg ho] at h; clear ho
  by_cases ho : f.opc = 0x02
  · rw [if_pos ho] at h
    obtain ⟨rfl, h1, h2⟩ := formatN_command h ho
    refine ⟨h1, h2, ?_, ?_, ?_, ?_⟩ <;> simp
  rw [if_neg ho] at h; clear ho
  by_cases ho : f.opc = 0x03
  · rw [if_pos ho] at h
    obtain ⟨rfl, h1, h2⟩ := formatB_command h ho
    refine ⟨h1, h2, ?_, ?_, ?_, ?_⟩ <;> simp
  rw [if_neg ho] at h; clear ho
  by_cases ho : f.opc = 0x04
  · rw [if_pos ho] at h
    obtain ⟨rfl, h1, h2⟩ := formatV_command h ho
    refine ⟨h1, h2, ?_, ?_, ?_, ?_⟩ <;> simp
  rw [if_neg ho] at h; clear ho
  by_cases ho : f.opc = 0x05
  · rw [if_pos ho] at h
    obtain ⟨rfl, h1, h2⟩ := formatZ_command h rfl rfl ho rfl
    refine ⟨h1, h2, ?_, ?_, ?_, ?_⟩ <;> simp
  rw [if_neg ho] at h; clear ho
  by_cases ho : f.opc = 0x06
  · rw [if_pos ho] at h
    obtain ⟨rfl, h1, h2⟩ := formatZ_command h rfl rfl ho rfl
    refine ⟨h1, h2, ?_, ?_, ?_, ?_⟩ <;> simp
  rw [if_neg ho] at h; clear ho
  by_cases ho : f.opc = 0x10
  · rw [if_pos ho] at h
    obtain ⟨rfl, h1, h2⟩ := formatZ_command h rfl rfl ho rfl
    refine ⟨h1, h2, ?_, ?_, ?_, ?_⟩ <;> simp
  rw [if_neg ho] at h; clear ho
  by_cases ho : f.opc = 0x11
  · rw [if_pos ho] at h
    obtain ⟨rfl, h1, h2⟩ := formatZ_command h rfl rfl ho rfl
    refine ⟨h1, h2, ?_, ?_, ?_, ?_⟩ <;> simp
  rw [if_neg ho] at h; clear ho
  by_cases ho : f.opc = 0x20
  · rw [if_pos ho] at h
    obtain ⟨rfl, h1, h2⟩ := formatZ_command h rfl rfl ho rfl
    refine ⟨h1, h2, ?_, ?_, ?_, ?_⟩ <;> simp
  rw [if_neg ho] at h; clear ho
  by_cases ho : f.opc = 0x21
  · rw [if_pos ho] at h
    obtain ⟨rfl, h1, h2⟩ := formatS_command h ho
    refine ⟨h1, h2, ?_, ?_, ?_, ?_⟩ <;> simp
  rw [if_neg ho] at h; clear ho
  by_cases ho : f.opc = 0x22
  · rw [if_pos ho] at h
    obtain ⟨rfl, h1, h2⟩ := formatZ_command h rfl rfl ho rfl
    refine ⟨h1, h2, ?_, ?_, ?_, ?_⟩ <;> simp
  rw [if_neg ho] at h; clear ho
  by_cases ho : f.opc = 0x30
  · rw [if_pos ho] at h
    obtain ⟨rfl, h1, h2⟩ := formatZ_command h rfl rfl ho rfl
    refine ⟨h1, h2, ?_, ?_, ?_, ?_⟩ <;> simp
  rw [if_neg ho] at h; clear ho
  by_cases ho : f.opc = 0x31
  · rw [if_pos ho] at h
    obtain ⟨rfl, h1, h2⟩ := formatZ_command h rfl rfl ho rfl
    refine ⟨h1, h2, ?_, ?_, ?_, ?_⟩ <;> simp
  rw [if_neg ho] at h; clear ho
  by_cases ho : f.opc = 0xFF
  · rw [if_pos ho] at h
    obtain ⟨rfl, h1, h2⟩ := formatZ_command h rfl rfl ho rfl
    refine ⟨h1, h2, ?_, ?_, ?_, ?_⟩ <;> simp
  rw [if_neg ho] at h; clear ho
  cases h

theorem append_eq_append {a b : Nat} (x x' : BitVec a) (y y' : BitVec b) : (x ++ y = x' ++ y') ↔ x = x' ∧ y = y' := by
  constructor
  · intro h
    constructor
    · have := congrArg (fun v => v.extractLsb' b a) h
      simpa [BitVec.extractLsb'_append_eq_left] using this
    · have := congrArg (fun v => v.setWidth b) h
      simpa [BitVec.setWidth_append] using this
  · rintro ⟨rfl, rfl⟩; rfl

/-- A mask and a pattern of R94 field by field. -/
theorem packFields_and (f : Fields) (mo po : BitVec 8) (mm pm : BitVec 3) (mn pn : BitVec 5) (ma pa : BitVec 16) :
   (packFields f &&& (mo ++ mm ++ mn ++ ma) = (po ++ pm ++ pn ++ pa)) ↔
     (f.opc &&& mo = po) ∧ (f.mbz &&& mm = pm) ∧ (f.n &&& mn = pn) ∧ (f.arg &&& ma = pa) := by
  show ((f.opc ++ f.mbz ++ f.n ++ f.arg : BitVec (8+3+5+16)) &&& (mo ++ mm ++ mn ++ ma : BitVec (8+3+5+16)) = po ++ pm ++ pn ++ pa) ↔ _
  simp only [BitVec.and_append, append_eq_append, and_assoc]

end Sys2Proof
end

