-- ==== Sys2Proof/Laws/PerInstr.lean ====
section
/-! SUPPORT. Statements about every command as syntax, one lemma per constructor. -/

/-- OPC and the must-be-zero bits of a command's word (spec 30_encoding.md R91, R92, R94). -/
def Sys2Proof.Laws.EncodedOpcode.Statement (i : Sys2Proof.Instr) : Prop :=
  (Sys2Proof.encode i).extractLsb' 24 8 = Sys2Proof.opcode i ∧ (Sys2Proof.encode i).extractLsb' 21 3 = 0

namespace Sys2Proof.Laws.EncodedOpcode

theorem of_fields (i : Sys2Proof.Instr) : Statement i :=
  ⟨congrArg Fields.opc (fieldsOf_encode i), congrArg Fields.mbz (fieldsOf_encode i)⟩

theorem nop : Statement .nop := of_fields _
theorem rdbit : Statement .rdbit := of_fields _
theorem rdbits (n : BitVec 5) : Statement (.rdbits n) := of_fields _
theorem wrbit (b : Bool) : Statement (.wrbit b) := of_fields _
theorem wrbits (v : BitVec 16) (n : BitVec 5) : Statement (.wrbits v n) := of_fields _
theorem flush : Statement .flush := of_fields _
theorem rdalign : Statement .rdalign := of_fields _
theorem tser : Statement .tser := of_fields _
theorem tdes : Statement .tdes := of_fields _
theorem bldtab : Statement .bldtab := of_fields _
theorem encsym (s : Sym) : Statement (.encsym s) := of_fields _
theorem compress : Statement .compress := of_fields _
theorem dec1 : Statement .dec1 := of_fields _
theorem decompress : Statement .decompress := of_fields _
theorem rst : Statement .rst := of_fields _

end Sys2Proof.Laws.EncodedOpcode
end

