-- ==== Sys2Proof/Tests/Slice0.lean ====
section
/-! SUPPORT. Small tests. Every expected result is a vector of spec/95_test_vectors.md (V1 to V33), or a rule's own
words; and, for every statement that has hypotheses, a witness that meets them. -/

namespace Sys2Proof.Tests

-- The kernel evaluations run one after the other: each thread of Lean takes its own stack of memory.
set_option Elab.async false

open Sys2Proof Sys2Proof.Machine

/-! ### Helpers -/

/-- An outcome is a next state that meets `p`. -/
def nextMeets (o : Host.Outcome State Fault Refusal) (p : State → Bool) : Bool :=
  match o with
  | .next t => p t
  | .fault _ => false
  | .refused _ => false

/-- From reset with bytes in SIN. -/
def withSin (bytes : List Byte) : State := { State.reset with sinData := bytes }

/-- The words of T1 (95_test_vectors.md section 1). -/
def words1 : Memory :=
  [(0, 0x80000402), (1, 0xC0000061), (2, 0x80000C04), (3, 0xC0000062), (4, 0xC0000100)]

/-- T1 (95_test_vectors.md section 1). -/
def tree1 : CodeTree := .node (.leaf 97) (.node (.leaf 98) (.leaf 256))

/-- T1 loaded, bytes in SIN. -/
def loaded (bytes : List Byte) : State := { withSin bytes with tmem := words1 }

/-- T1 loaded and BLDTAB done (V18). -/
def tabled : State :=
  { loaded [] with
    tvalid := true, tblv := true, etab := [(97, [false]), (98, [true, false]), (256, [true, true])] }

/-- The host's next action is the issue of `w`. -/
def issuing (s : State) (w : Word) : State := { s with actions := [.write 0x0000 w] }

/-! ### WellFormed: ill-formed terms are refused (30_encoding.md R94, R96, R97) -/

theorem test_wf_rdbits_17 : wellFormed (.rdbits 17) = false := by decide
theorem test_wf_rdbits_16 : wellFormed (.rdbits 16) = true := by decide
theorem test_wf_wrbits_31 : wellFormed (.wrbits 0 31) = false := by decide
theorem test_wf_encsym_257 : wellFormed (.encsym 257) = false := by decide
theorem test_wf_encsym_256 : wellFormed (.encsym 256) = true := by decide

/-! ### Decoding: words written out bit by bit from R91 to R94 (V3, V4) -/

theorem test_decode_nop : decode 0b00000000000000000000000000000000 = .command .nop := by decide
theorem test_decode_rdbit : decode 0b00000001000000000000000000000000 = .command .rdbit := by decide
theorem test_decode_rdbits : decode 0b00000010000100000000000000000000 = .command (.rdbits 16) := by decide
theorem test_decode_wrbit : decode 0b00000011000000000000000000000001 = .command (.wrbit true) := by decide
theorem test_decode_wrbits : decode 0b00000100000001010000000000001011 = .command (.wrbits 0x000B 5) := by decide
theorem test_decode_flush : decode 0b00000101000000000000000000000000 = .command .flush := by decide
theorem test_decode_rdalign : decode 0b00000110000000000000000000000000 = .command .rdalign := by decide
theorem test_decode_tser : decode 0b00010000000000000000000000000000 = .command .tser := by decide
theorem test_decode_tdes : decode 0b00010001000000000000000000000000 = .command .tdes := by decide
theorem test_decode_bldtab : decode 0b00100000000000000000000000000000 = .command .bldtab := by decide
theorem test_decode_encsym : decode 0b00100001000000000000000100000000 = .command (.encsym 256) := by decide
theorem test_decode_compress : decode 0b00100010000000000000000000000000 = .command .compress := by decide
theorem test_decode_dec1 : decode 0b00110000000000000000000000000000 = .command .dec1 := by decide
theorem test_decode_decompress : decode 0b00110001000000000000000000000000 = .command .decompress := by decide
theorem test_decode_rst : decode 0b11111111000000000000000000000000 = .command .rst := by decide
theorem test_decode_reserved : decode 0x32000000 = .illegal .reservedOpcode := by decide
theorem test_decode_mbz : decode 0x10010000 = .illegal .mustBeZero := by decide
theorem test_decode_count : decode 0x04110000 = .illegal .countTooLarge := by decide
theorem test_decode_symbol : decode 0x21000101 = .illegal .notASymbol := by decide
theorem test_decode_table_word : decodeTableWord 32 0x21000061 = some (.encsym 97) := by decide

/-- No word is selected by two rows of the opcode map (R95). -/
theorem test_rows_disjoint :
    opcodeMap.Pairwise fun a b => (a.pattern ^^^ b.pattern) &&& a.mask &&& b.mask ≠ 0 := by
  decide +kernel

/-! ### Steps: at most two a command -/

/-- V3, R250. -/
theorem test_step_nop : nextMeets (step (issuing (loaded [0x58]) 0x00000000)) (fun t => t = loaded [0x58]) = true := by
  decide +kernel
/-- V8. -/
theorem test_step_rdbit :
    nextMeets (step (issuing (withSin [0x58]) 0x01000000)) (fun t => statusView t = 0x00700000 ∧ t.result = 0) = true := by
  decide +kernel
/-- V10: RDBIT at the end of SIN. -/
theorem test_step_rdbit_exhausted :
    nextMeets (step (issuing State.reset 0x01000000)) (fun t => statusView t = 0x00001004 ∧ t.result = 0) = true := by
  decide +kernel
/-- V9. -/
theorem test_step_rdbits :
    nextMeets (step (issuing (withSin [0xAA, 0x80]) 0x02070000))
      (fun t => t.result = 0x55 ∧ statusView t = 0x00100000) = true := by
  decide +kernel
/-- V10: the bits left are consumed, RESULT is kept. -/
theorem test_step_rdbits_exhausted :
    nextMeets (step (issuing { withSin [0xF0] with sinPos := 1, rbuf := 0xF0, rcnt := 4, result := 0xF } 0x02080000))
      (fun t => t.result = 0xF ∧ statusView t = 0x00001004) = true := by
  decide +kernel
/-- V5: the bits 0101 1 are in the writer, a 1 is added. -/
theorem test_step_wrbit :
    nextMeets (step (issuing { State.reset with wacc := 0x50, wcnt := 4 } 0x03000001))
      (fun t => t.wacc = 0x58 ∧ statusView t = 0x00051000) = true := by
  decide +kernel
/-- V5: the eighth bit pushes the byte. -/
theorem test_step_wrbit_pushes :
    nextMeets (step (issuing { State.reset with wacc := 0xFE, wcnt := 7 } 0x03000001))
      (fun t => t.sout = [0xFF] ∧ t.wacc = 0 ∧ t.wcnt = 0) = true := by
  decide +kernel
/-- V6: bits 15:3 of the value are ignored. -/
theorem test_step_wrbits :
    nextMeets (step (issuing State.reset 0x0403FFFD)) (fun t => t.wacc = 0xA0 ∧ t.wcnt = 3) = true := by
  decide +kernel
/-- V6: WRBIT 1, then sixteen ones. -/
theorem test_step_wrbits_across_bytes :
    nextMeets (step (issuing { State.reset with wacc := 0x80, wcnt := 1 } 0x0410FFFF))
      (fun t => t.sout = [0xFF, 0xFF] ∧ t.wacc = 0x80 ∧ statusView t = 0x00011000) = true := by
  decide +kernel
/-- V7. -/
theorem test_step_flush :
    nextMeets (step (issuing { State.reset with wacc := 0x58, wcnt := 5 } 0x05000000))
      (fun t => t.sout = [0x58] ∧ t.wcnt = 0) = true := by
  decide +kernel
/-- V11. -/
theorem test_step_rdalign :
    nextMeets (step (issuing { withSin [0x58, 0x61] with sinPos := 1, rbuf := 0x58, rcnt := 5 } 0x06000000))
      (fun t => t.rcnt = 0 ∧ t.sinPos = 1) = true := by
  decide +kernel
/-- V12. -/
theorem test_step_tser :
    nextMeets (step (issuing (loaded []) 0x10000000))
      (fun t => t.sout = [0x01, 0x4C, 0x29, 0x8B, 0x00] ∧ statusView t = 0x00001100) = true := by
  decide +kernel
/-- V33: the first push, of fault entry, fails; the error is the misalignment. -/
theorem test_step_tser_misaligned :
    nextMeets (step (issuing { State.reset with wacc := 0xA0, wcnt := 3, portScript := [true] } 0x10000000))
      (fun t => t.sout = [] ∧ statusView t = 0x00001008) = true := by
  decide +kernel
/-- V13. -/
theorem test_step_tdes :
    nextMeets (step (issuing (withSin [0x01, 0x4C, 0x29, 0x8B, 0x00, 0x58]) 0x11000000))
      (fun t => t.tmem = words1 ∧ t.sinPos = 5 ∧ statusView t = 0) = true := by
  decide +kernel
/-- V15: a pad bit is 1. -/
theorem test_step_tdes_corrupt :
    nextMeets (step (issuing (withSin [0x01, 0x4C, 0x31, 0x8B, 0x00, 0x58]) 0x11000000))
      (fun t => t.tmem = [] ∧ t.sinPos = 4 ∧ statusView t = 0x00100001) = true := by
  decide +kernel
/-- V18. -/
theorem test_step_bldtab :
    nextMeets (step (issuing (loaded []) 0x20000000)) (fun t => statusView t = 0x00001300 ∧ t = tabled) = true := by
  decide +kernel
/-- V16: a cycle. -/
theorem test_step_bldtab_cycle :
    nextMeets (step (issuing { State.reset with tmem := [(0, 0x80000400), (1, 0xC0000100)] } 0x20000000))
      (fun t => statusView t = 0x00001002 ∧ t.etab = []) = true := by
  decide +kernel
/-- P3: the code of the marker after those of 'b' and 'a'. -/
theorem test_step_encsym :
    nextMeets (step (issuing { tabled with wacc := 0x80, wcnt := 3 } 0x21000100))
      (fun t => t.wacc = 0x98 ∧ t.wcnt = 5) = true := by
  decide +kernel
/-- V1. -/
theorem test_step_compress :
    nextMeets (step (issuing (loaded [0x61, 0x62]) 0x22000000))
      (fun t => t.sout = [0x01, 0x4C, 0x29, 0x8B, 0x00, 0x58] ∧ statusView t = 0x00001100) = true := by
  decide +kernel
/-- V33: the second pull fails. -/
theorem test_step_compress_io :
    nextMeets (step (issuing { loaded [0x61, 0x62] with portScript := [false, false, false, false, false, false, true] }
        0x22000000))
      (fun t => t.sout = [0x01, 0x4C, 0x29, 0x8B, 0x00, 0x00] ∧ t.sinPos = 1 ∧ statusView t = 0x00000105) = true := by
  decide +kernel
/-- P4: the second DEC1. -/
theorem test_step_dec1 :
    nextMeets (step (issuing { loaded [0x58] with sinPos := 1, rbuf := 0x58, rcnt := 7, tvalid := true } 0x30000000))
      (fun t => t.result = 0x62 ∧ statusView t = 0x00500100) = true := by
  decide +kernel
/-- V1, V27: the artifact is followed by a byte that stays in SIN. -/
theorem test_step_decompress :
    nextMeets (step (issuing (withSin [0x01, 0x4C, 0x29, 0x8B, 0x00, 0x5F, 0xAA]) 0x31000000))
      (fun t => t.sout = [0x61, 0x62] ∧ t.sinPos = 6 ∧ statusView t = 0x00000500) = true := by
  decide +kernel
/-- R201: the header alone, no marker. -/
theorem test_step_decompress_lenient :
    nextMeets (step (issuing (withSin [0x01, 0x4C, 0x29, 0x8B, 0x00]) 0x31000000))
      (fun t => t.sout = [] ∧ statusView t = 0x00001900) = true := by
  decide +kernel
/-- V31. -/
theorem test_step_rst :
    nextMeets (step (issuing { loaded [0x58] with err := 2, sout := [0xA0] } 0xFF000000))
      (fun t => t = { withSin [0x58] with sout := [0xA0] }) = true := by
  decide +kernel
/-- V4: fault entry flushes. -/
theorem test_step_illegal :
    nextMeets (step (issuing { State.reset with wacc := 0x80, wcnt := 1 } 0x07000000))
      (fun t => t.err = 7 ∧ t.sout = [0x80] ∧ t.wcnt = 0) = true := by
  decide +kernel
/-- The very next step runs the word placed. -/
theorem test_withFetchWord :
    nextMeets (step (State.reset.withFetchWord 32 0x03000001)) (fun t => t.wacc = 0x80 ∧ t.wcnt = 1) = true := by
  decide +kernel
/-- V32: all 32 bits of TMEM[1023] are stored, ROOT keeps ten. -/
theorem test_host_tmem :
    nextMeets (step { State.reset with actions := [.write 0x1FFC 0xFFFFFFFF] })
      (fun t => hostRead 0x1FFC t = 0xFFFFFFFF) = true := by
  decide +kernel
theorem test_host_root :
    nextMeets (step { State.reset with actions := [.write 0x000C 0xFFFFFFFF] })
      (fun t => hostRead 0x000C t = 0x000003FF) = true := by
  decide +kernel
/-- V18: the window at 'b'. -/
theorem test_window_b :
    hostRead 0x0014 { tabled with etidx := 98 } = 0x80000002 ∧
      hostRead 0x0020 { tabled with etidx := 98 } = 0x80000000 ∧ hostRead 0x003C { tabled with etidx := 98 } = 0 := by
  decide +kernel

/-! ### Witnesses: for each statement that has hypotheses, a state and operands that meet them all -/

/-- The header of T1 (V12). -/
def header1 : List Byte := [0x01, 0x4C, 0x29, 0x8B, 0x00]

/-- T1 loaded, with three bits in the writer and a port that fails next. -/
def failing : State := { loaded [0x61] with wacc := 0xA0, wcnt := 3, portScript := [true] }

theorem stores_tree1 : Stores words1 0 tree1 [0, 1, 2, 3, 4] :=
  .node 0 1 2 _ _ [1] [2, 3, 4] (by decide +kernel) (.leaf 1 97 (by decide +kernel))
    (.node 2 3 4 _ _ [3] [4] (by decide +kernel) (.leaf 3 98 (by decide +kernel)) (.leaf 4 256 (by decide +kernel)))

theorem holds_loaded (bytes : List Byte) : HoldsTree (loaded bytes) tree1 :=
  ⟨_, stores_tree1, by decide, by decide⟩

theorem aligned_loaded (bytes : List Byte) : AlignedStart (loaded bytes) :=
  ⟨rfl, rfl, rfl, rfl, Nat.zero_le _, by simp [loaded, withSin, State.reset]⟩

theorem aligned_withSin (bytes : List Byte) : AlignedStart (withSin bytes) :=
  ⟨rfl, rfl, rfl, rfl, Nat.zero_le _, by simp [withSin, State.reset]⟩

theorem witness_DecodeOfEncode :
    wellFormed (.rdbits 16) = true ∧ wellFormed (.wrbits 0xFFFF 16) = true ∧ wellFormed (.encsym 256) = true := by decide

theorem witness_EncodeOfDecode : decode 0x0410FFFF = .command (.wrbits 0xFFFF 16) := by decide

theorem witness_DecodeFollowsOpcodeMap :
    decode 0x02100000 = .command (.rdbits 16) ∧ decode 0x03000000 = .command (.wrbit false) ∧
    decode 0x0400FFFF = .command (.wrbits 0xFFFF 0) ∧ decode 0x21000100 = .command (.encsym 256) ∧
    decode 0x21000101 = .illegal .notASymbol := by decide

theorem witness_StepRunsIssuedCommand :
    (issuing State.reset 0x22000000).actions = .write 0x0000 0x22000000 :: [] ∧ decode 0x22000000 = .command .compress := by
  decide

theorem witness_StepBetweenCommands :
    State.reset.actions = [] ∧ { State.reset with actions := [.feed [0x61]] }.actions = .feed [0x61] :: [] ∧
    { State.reset with actions := [.ports [true]] }.actions = .ports [true] :: [] ∧ (0x1FFF : Offset).toNat % 4 ≠ 0 ∧
    { State.reset with actions := [.write 0x1FFF 0] }.actions = .write 0x1FFF 0 :: [] ∧ (0x0001 : Offset).toNat % 4 ≠ 0 ∧
    { State.reset with actions := [.read 0x0001] }.actions = .read 0x0001 :: [] := by decide

theorem witness_IllegalWordEntersFaultState :
    (issuing failing 0x07000000).err = 0 ∧ (issuing failing 0x07000000).actions = .write 0x0000 0x07000000 :: [] ∧
    decode 0x07000000 = .illegal .reservedOpcode := by decide

theorem witness_FaultEntryWritesErrAndFlushes :
    State.reset.wcnt = 0 ∧ ({ State.reset with wcnt := 7 }.wcnt ≠ 0 ∧ nextAccessFails { State.reset with wcnt := 7 } = false) ∧
    failing.wcnt ≠ 0 ∧ nextAccessFails failing = true := by decide

/-- A write of an illegal word, a write to TMEM, a read and a command, all in the fault state (V31). -/
theorem witness_FaultStateIgnoresAllButRst :
    { State.reset with err := 8, actions := [.write 0x0000 0xFF000001] }.err ≠ 0 ∧ (0x0000 : Offset).toNat % 4 = 0 ∧
    (0x1FFC : Offset).toNat % 4 = 0 ∧ ¬((0x0000 : Offset) = 0x0000 ∧ (0xFF000001 : Word) = 0xFF000000) ∧
    ¬((0x1FFC : Offset) = 0x0000 ∧ (0xFF000000 : Word) = 0xFF000000) ∧ Instr.compress ≠ .rst := by decide

/-- ERR changes: at an illegal word, at RST, at a hardware reset. -/
theorem witness_ErrHoldsFirstErrorUntilReset :
    nextMeets (step (issuing State.reset 0x07000000)) (fun t => t.err ≠ 0) = true ∧
    nextMeets (step (issuing { State.reset with err := 8 } 0xFF000000)) (fun t => t.err ≠ 8) = true ∧
    nextMeets (step { State.reset with err := 1, actions := [.reset] }) (fun t => t.err ≠ 1) = true := by decide +kernel

theorem witness_RstResetsBlock : { failing with actions := [.reset] }.actions = .reset :: [] := by decide

theorem witness_SinEmptyForetellsExhaustion :
    (withSin [0x58]).err = 0 ∧ portsOk (withSin [0x58]) ∧ sinEmpty (withSin [0x58]) = false ∧
    State.reset.err = 0 ∧ portsOk State.reset ∧ sinEmpty State.reset = true := by decide

/-- The ends of each window of the map (R62): ETCODE0 and ETCODE7, the first and the last unmapped word between
the windows, the first and the last word of TMEM. -/
theorem witness_HostReadMap :
    (0 < 8 ∧ 7 < 8) ∧ (0x0040 ≤ 0x0040 ∧ 0x0FFC ≤ 0x0FFC) ∧ (0 < 1024 ∧ 1023 < 1024) ∧
    BitVec.ofNat 13 (0x0020 + 4 * 7) = (0x003C : Offset) ∧ BitVec.ofNat 13 (0x1000 + 4 * 1023) = (0x1FFC : Offset) ∧
    (0x1FFC : Offset).toNat % 4 = 0 ∧
    { State.reset with actions := [.read 0x1FFC] }.actions = .read 0x1FFC :: [] := by decide

theorem witness_HostWriteMap :
    { State.reset with actions := [.write 0x000C 1023] }.actions = .write 0x000C 1023 :: [] ∧
    { State.reset with actions := [.write 0x0010 511] }.actions = .write 0x0010 511 :: [] ∧
    { State.reset with actions := [.write 0x1000 0] }.actions = .write (BitVec.ofNat 13 (0x1000 + 4 * 0)) 0 :: [] ∧
    { State.reset with actions := [.write 0x1FFC 1] }.actions = .write (BitVec.ofNat 13 (0x1000 + 4 * 1023)) 1 :: [] ∧
    (0x0004 % 4 = 0 ∧ 0x0008 % 4 = 0 ∧ 0x0014 % 4 = 0 ∧ 0x0FFC % 4 = 0) ∧
    { State.reset with actions := [.write 0x0014 5] }.actions = .write (BitVec.ofNat 13 0x0014) 5 :: [] ∧
    { State.reset with actions := [.write 0x0FFC 5] }.actions = .write (BitVec.ofNat 13 0x0FFC) 5 :: [] ∧
    State.reset.err = 0 := by decide

/-- ETIDX at 256, at 257, and at a symbol without a code (V18); a path of 256 bits. -/
theorem witness_EtabWindowShowsEntry :
    State.reset.tblv = false ∧ 256 < ({ tabled with etidx := 257 }.etidx).toNat ∧ ETab.find tabled.etab 99 = none ∧
    { tabled with etidx := 256 }.tblv = true ∧ ({ tabled with etidx := 256 }.etidx).toNat ≤ 256 ∧
    ETab.find tabled.etab 256 = some [true, true] ∧ [true, true].length ≤ 256 ∧ (List.replicate 256 true).length ≤ 256 := by
  decide +kernel

theorem witness_NopAndRdalignEffects : { withSin [0x58] with rcnt := 5 }.err = 0 := by decide

theorem witness_RdbitReadsNextBit :
    { State.reset with rcnt := 1 }.err = 0 ∧ { State.reset with rcnt := 1 }.rcnt ≠ 0 ∧
    ((withSin [0x58]).rcnt = 0 ∧ nextAccessFails (withSin [0x58]) = false ∧ (withSin [0x58]).sinData[0]? = some 0x58) ∧
    (State.reset.rcnt = 0 ∧ nextAccessFails State.reset = false ∧ State.reset.sinData[0]? = none) ∧
    { State.reset with portScript := [true] }.rcnt = 0 ∧ nextAccessFails { State.reset with portScript := [true] } = true := by
  decide

/-- The smallest and the largest count RDBITS has, and 31, which the operand's five bits can hold. -/
theorem witness_RdbitsReturnsField :
    (withSin [0x12, 0x34, 0x56, 0x78]).err = 0 ∧ portsOk (withSin [0x12, 0x34, 0x56, 0x78]) ∧
    (0 : BitVec 5).toNat ≤ (unreadBits State.reset).length ∧ (16 : BitVec 5).toNat ≤ (unreadBits (withSin [0x12, 0x34])).length ∧
    (31 : BitVec 5).toNat ≤ (unreadBits (withSin [0x12, 0x34, 0x56, 0x78])).length := by decide +kernel

theorem witness_RdbitsExhaustion :
    State.reset.err = 0 ∧ portsOk State.reset ∧ (unreadBits State.reset).length < (1 : BitVec 5).toNat ∧
    (withSin [0x12]).err = 0 ∧ portsOk (withSin [0x12]) ∧ (unreadBits (withSin [0x12])).length < (16 : BitVec 5).toNat := by
  decide +kernel

theorem witness_WritesAppendBits :
    { State.reset with wacc := 0xFE, wcnt := 7 }.err = 0 ∧ portsOk { State.reset with wacc := 0xFE, wcnt := 7 } := by decide

theorem witness_WrbitPushFailure :
    { failing with wcnt := 7 }.err = 0 ∧ { failing with wcnt := 7 }.wcnt = 7 ∧
    nextAccessFails { failing with wcnt := 7 } = true := by decide

theorem witness_FlushPadsAndPushes :
    (State.reset.err = 0 ∧ State.reset.wcnt = 0) ∧
    (tabled.err = 0 ∧ { tabled with wacc := 0x80, wcnt := 1 }.wcnt ≠ 0 ∧
      nextAccessFails { tabled with wacc := 0x80, wcnt := 1 } = false ∧ portsOk { tabled with wacc := 0x80, wcnt := 1 } ∧
      writerClean { tabled with wacc := 0x80, wcnt := 1 }) ∧
    failing.err = 0 ∧ failing.wcnt ≠ 0 ∧ nextAccessFails failing = true := by decide

/-- T1's symbol 'a' after its marker bit (V9). -/
theorem witness_ReadBitsInvertsWriteBits :
    State.reset.err = 0 ∧ portsOk State.reset ∧ (withSin [0x98, 0x40]).err = 0 ∧ portsOk (withSin [0x98, 0x40]) ∧
    (10 : BitVec 5).toNat ≤ 16 ∧ (16 : BitVec 5).toNat ≤ 16 ∧
    unreadBits (withSin [0x98, 0x40]) = bitsOf 10 (0x261 : BitVec 16) ++ [false, false, false, false, false, false] := by
  decide +kernel

theorem witness_CheckDecidesValidTree : ValidRoot words1 0 ∧ checkTree words1 1 = false :=
  ⟨⟨tree1, _, stores_tree1, by decide, by decide⟩, by decide +kernel⟩

theorem witness_ValidTreeBounds : tree1.valid = true ∧ tree1.code 256 = some [true, true] := by decide

theorem witness_HeaderSelfDelimiting :
    tree1.enc ++ [true] = tree1.enc ++ [true] ∧ packBytes tree1.hdr = packBytes tree1.hdr ∧ packBytes tree1.hdr = header1 := by
  decide +kernel

theorem witness_TserWritesHeader :
    (loaded [0x61]).err = 0 ∧ (loaded [0x61]).wcnt = 0 ∧ writerClean (loaded [0x61]) ∧ portsOk (loaded [0x61]) ∧
    HoldsTree (loaded [0x61]) tree1 :=
  ⟨rfl, rfl, by decide, by decide, holds_loaded _⟩

/-- T1's header and a byte after it (V13). -/
theorem witness_TdesParsesHeader :
    (withSin (header1 ++ [0x58])).err = 0 ∧ (withSin (header1 ++ [0x58])).rcnt = 0 ∧ portsOk (withSin (header1 ++ [0x58])) ∧
    tree1.size ≤ 1024 ∧ (∀ sym ∈ tree1.symbols, sym ≤ Config.eos) ∧
    sinRest (withSin (header1 ++ [0x58])) = packBytes tree1.hdr ++ [0x58] := by decide +kernel

/-- Both sides: a header (V13), and none (V15). -/
theorem witness_TdesAcceptsExactlyHeaders :
    (withSin header1).err = 0 ∧ (withSin header1).rcnt = 0 ∧ portsOk (withSin header1) ∧
    sinRest (withSin header1) = packBytes tree1.hdr ++ [] ∧
    nextMeets (exec .tdes (withSin header1)) (fun t => t.err = 0) = true ∧
    nextMeets (exec .tdes (withSin [0x01, 0xC0, 0x20])) (fun t => t.err = 1) = true := by decide +kernel

theorem witness_TdesFailureClearsTree :
    (loaded [0x02]).err = 0 ∧ (loaded [0x02]).rcnt = 0 ∧ (loaded [0x02]).wcnt = 0 ∧
    nextMeets (exec .tdes (loaded [0x02])) (fun t => t.err ≠ 0) = true := by decide +kernel

theorem witness_TreeRoundTrip :
    (loaded []).err = 0 ∧ (loaded []).wcnt = 0 ∧ writerClean (loaded []) ∧ portsOk (loaded []) ∧
    HoldsTree (loaded []) tree1 ∧ (withSin (header1 ++ [0x58])).err = 0 ∧ (withSin (header1 ++ [0x58])).rcnt = 0 ∧
    portsOk (withSin (header1 ++ [0x58])) ∧ sinRest (withSin (header1 ++ [0x58])) = header1 ++ [0x58] ∧
    (withSin (header1 ++ [0x58])).wcnt = 0 ∧ writerClean (withSin (header1 ++ [0x58])) :=
  ⟨rfl, rfl, (aligned_loaded _).clean, (aligned_loaded _).ports, holds_loaded _, rfl, rfl, (aligned_withSin _).ports, rfl,
    rfl, (aligned_withSin _).clean⟩

theorem witness_MisalignedCommandsRefused :
    failing.err = 0 ∧ failing.wcnt ≠ 0 ∧ { loaded [0x58] with rcnt := 7 }.err = 0 ∧ { loaded [0x58] with rcnt := 7 }.rcnt ≠ 0 ∧
    failing.tblv = false := by decide

/-- A Leaf at the root (V16): no valid tree, whatever tree the words are read as. -/
theorem not_valid_leaf_root : ¬ValidRoot [(0, 0xC0000100)] 0 := by
  rintro ⟨t, visited, h, _, hv⟩
  cases h with
  | leaf _ _ _ => simp [CodeTree.valid] at hv
  | node _ l r _ _ _ _ w _ _ =>
    have h2 := congrArg nodeLeaf w
    rw [nodeLeaf_nodeWord] at h2
    exact absurd h2 (by decide +kernel)

/-- An invalid tree in TMEM, the header of an invalid tree (V16), and an empty SIN, which begins with no header (V15). -/
theorem witness_InvalidTreeRaised :
    { State.reset with tmem := [(0, 0xC0000100)] }.err = 0 ∧ { State.reset with tmem := [(0, 0xC0000100)] }.tvalid = false ∧
    { State.reset with tmem := [(0, 0xC0000100)] }.wcnt = 0 ∧ { State.reset with tmem := [(0, 0xC0000100)] }.rcnt = 0 ∧
    ¬ValidRoot { State.reset with tmem := [(0, 0xC0000100)] }.tmem { State.reset with tmem := [(0, 0xC0000100)] }.root ∧
    (withSin [0x01, 0xC0, 0x00]).err = 0 ∧ (withSin [0x01, 0xC0, 0x00]).wcnt = 0 ∧ (withSin [0x01, 0xC0, 0x00]).rcnt = 0 ∧
    portsOk (withSin [0x01, 0xC0, 0x00]) ∧ (CodeTree.leaf 256).size ≤ 1024 ∧
    (∀ sym ∈ (CodeTree.leaf 256).symbols, sym ≤ Config.eos) ∧ (CodeTree.leaf 256).valid = false ∧
    sinRest (withSin [0x01, 0xC0, 0x00]) = packBytes (CodeTree.leaf 256).hdr ++ [] ∧
    ¬∃ (t : CodeTree) (x : List Byte), t.size ≤ 1024 ∧ (∀ sym ∈ t.symbols, sym ≤ Config.eos) ∧
      sinRest State.reset = packBytes t.hdr ++ x := by
  refine ⟨rfl, rfl, rfl, rfl, not_valid_leaf_root, rfl, rfl, rfl, (aligned_withSin _).ports, by decide, by decide, by decide,
    by decide +kernel, ?_⟩
  rintro ⟨t, x, _, _, h⟩
  have h0 := congrArg List.length h
  obtain ⟨k, _, hb⟩ := t.hdr_bits
  have h1 := congrArg List.length hb
  simp only [List.length_append, bitsOfBytes_length, bitsOf_length] at h1
  simp only [sinRest, State.reset, List.drop_nil, List.length_nil, List.length_append] at h0
  omega

/-- A header that carries an invalid tree (V16), and an empty SIN (V15). -/
theorem test_decompress_bad_header :
    nextMeets (exec .decompress (withSin [0x01, 0xC0, 0x00])) (fun t => t.tmem = [(0, 0xC0000100)] ∧ t.sinPos = 3 ∧
      statusView t = 0x00001002 ∧ t.sout = []) = true ∧
    nextMeets (exec .decompress State.reset) (fun t => t.err = 1 ∧ t.tmem = []) = true := by decide +kernel

theorem witness_BldtabBuildsTable : (loaded []).err = 0 ∧ HoldsTree (loaded []) tree1 := ⟨rfl, holds_loaded _⟩

/-- The second state differs from the first in its table, its reader and RESULT. -/
theorem witness_BldtabIdempotent :
    (loaded []).err = 0 ∧ nextMeets (exec .bldtab (loaded [])) (fun u => u = tabled ∧ u.err = 0) = true ∧
    { tabled with rcnt := 3, result := 5 }.err = 0 ∧ { tabled with rcnt := 3, result := 5 }.tmem = (loaded []).tmem ∧
    { tabled with rcnt := 3, result := 5 }.root = (loaded []).root ∧
    nextMeets (exec .bldtab { tabled with rcnt := 3, result := 5 }) (fun u => u.err = 0) = true := by decide +kernel

theorem witness_CodesPrefixFree :
    tree1.valid = true ∧ tree1.code 98 = some [true, false] ∧ tree1.code 256 = some [true, true] ∧ (98 : Sym) ≠ 256 := by
  decide

theorem witness_EncsymAppendsCode :
    tabled.err = 0 ∧ tabled.tblv = true ∧ portsOk tabled ∧ ETab.find tabled.etab 98 = some [true, false] ∧
    ETab.find tabled.etab 99 = none := by decide +kernel

/-- 'b' from the bits 10 of the byte 98 (P4). -/
theorem witness_Dec1ReturnsSymbol :
    (loaded [0x98]).err = 0 ∧ portsOk (loaded [0x98]) ∧ HoldsTree (loaded [0x98]) tree1 ∧
    tree1.code 98 = some [true, false] ∧ unreadBits (loaded [0x98]) = [true, false] ++ [false, true, true, false, false, false] :=
  ⟨rfl, by decide, holds_loaded _, by decide, by decide +kernel⟩

/-- One bit 1 left: no code of T1 begins a sequence of one 1 (R175). -/
theorem witness_Dec1TruncatedStream :
    { loaded [] with rbuf := 0x01, rcnt := 1 }.err = 0 ∧ portsOk { loaded [] with rbuf := 0x01, rcnt := 1 } ∧
    HoldsTree { loaded [] with rbuf := 0x01, rcnt := 1 } tree1 ∧
    ∀ x p, tree1.code x = some p → ¬(p <+: unreadBits { loaded [] with rbuf := 0x01, rcnt := 1 }) := by
  refine ⟨rfl, by decide, holds_loaded [], ?_⟩
  have h : ∀ x : Sym, ((tree1.code x).map fun p => decide (p <+: [true])).getD false = false := by decide +kernel
  intro x p hx hp
  have h2 := h x
  rw [hx] at h2
  exact absurd (show p <+: [true] from hp) (of_decide_eq_false h2)

/-- V1. -/
theorem witness_CompressWritesArtifact :
    AlignedStart (loaded [0x61, 0x62]) ∧ HoldsTree (loaded [0x61, 0x62]) tree1 ∧
    tree1.artifact (sinRest (loaded [0x61, 0x62])) = some (header1 ++ [0x58]) :=
  ⟨aligned_loaded _, holds_loaded _, by decide +kernel⟩

/-- 'a', then 'c', which T1 does not carry, then 'b'. -/
theorem witness_CompressStopsAtUncodedByte :
    AlignedStart (loaded [0x61, 0x63, 0x62]) ∧ HoldsTree (loaded [0x61, 0x63, 0x62]) tree1 ∧
    sinRest (loaded [0x61, 0x63, 0x62]) = [0x61] ++ 0x63 :: [0x62] ∧
    tree1.codes ([(0x61 : Byte)].map symOfByte) = some [false] ∧ tree1.code (symOfByte 0x63) = none :=
  ⟨aligned_loaded _, holds_loaded _, rfl, by decide, by decide⟩

theorem witness_CompressDropsTable :
    (tabled.err = 0 ∧ tabled.wcnt = 0 ∧ tabled.rcnt = 0) ∧
    nextMeets (exec .compress tabled) (fun t => t.err = 0) = true ∧
    nextMeets (exec .compress { tabled with sinData := [0x63] }) (fun t => t.err = 6) = true := by decide +kernel

/-- The payload byte of V1 and V27 with its three pad bits 0, and all of them 1. -/
theorem anyPad_58_5F :
    tree1.ArtifactAnyPad [0x61, 0x62] (header1 ++ [0x58]) ∧ tree1.ArtifactAnyPad [0x61, 0x62] (header1 ++ [0x5F]) :=
  ⟨⟨[0x58], [false, true, false, true, true], [false, false, false], by decide +kernel, by decide +kernel, by decide +kernel,
      by decide⟩,
    ⟨[0x5F], [false, true, false, true, true], [true, true, true], by decide +kernel, by decide +kernel, by decide +kernel,
      by decide⟩⟩

/-- V27, and the same with pad bits that are not 0. -/
theorem witness_DecompressReadsArtifact :
    AlignedStart (withSin (header1 ++ [0x58] ++ [0xAA])) ∧ tree1.valid = true ∧
    tree1.ArtifactAnyPad [0x61, 0x62] (header1 ++ [0x58]) ∧
    sinRest (withSin (header1 ++ [0x58] ++ [0xAA])) = (header1 ++ [0x58]) ++ [0xAA] ∧
    AlignedStart (withSin (header1 ++ [0x5F] ++ [0xAA])) ∧ tree1.ArtifactAnyPad [0x61, 0x62] (header1 ++ [0x5F]) ∧
    sinRest (withSin (header1 ++ [0x5F] ++ [0xAA])) = (header1 ++ [0x5F]) ++ [0xAA] :=
  ⟨aligned_withSin _, by decide, anyPad_58_5F.1, rfl, aligned_withSin _, anyPad_58_5F.2, rfl⟩

/-- T1's header and the payload 01: seven times 'a', and a bit 1 that is no whole code. -/
theorem witness_DecompressLenientEnd :
    AlignedStart (withSin (header1 ++ [0x01])) ∧ tree1.valid = true ∧
    sinRest (withSin (header1 ++ [0x01])) = packBytes tree1.hdr ++ [0x01] ∧
    bitsOfBytes [0x01] = List.replicate 7 false ++ [true] ∧
    tree1.codes ((List.replicate 7 (0x61 : Byte)).map symOfByte) = some (List.replicate 7 false) ∧
    ∀ sym q, tree1.code sym = some q → ¬(q <+: [true]) := by
  refine ⟨aligned_withSin _, by decide, by decide +kernel, by decide +kernel, by decide +kernel, ?_⟩
  have h : ∀ x : Sym, ((tree1.code x).map fun p => decide (p <+: [true])).getD false = false := by decide +kernel
  intro x p hx hp
  have h2 := h x
  rw [hx] at h2
  exact absurd hp (of_decide_eq_false h2)

/-- The bytes read back are V1's, with the pad bits COMPRESS wrote and with others. -/
theorem witness_CodecRoundTrip :
    AlignedStart (loaded [0x61, 0x62]) ∧ HoldsTree (loaded [0x61, 0x62]) tree1 ∧
    (∀ b ∈ sinRest (loaded [0x61, 0x62]), symOfByte b ∈ tree1.symbols) ∧
    AlignedStart (withSin (header1 ++ [0x58, 0xAA])) ∧
    tree1.ArtifactAnyPad (sinRest (loaded [0x61, 0x62])) (header1 ++ [0x58]) ∧
    sinRest (withSin (header1 ++ [0x58, 0xAA])) = (header1 ++ [0x58]) ++ [0xAA] ∧
    AlignedStart (withSin (header1 ++ [0x5F, 0xAA])) ∧
    tree1.ArtifactAnyPad (sinRest (loaded [0x61, 0x62])) (header1 ++ [0x5F]) ∧
    sinRest (withSin (header1 ++ [0x5F, 0xAA])) = (header1 ++ [0x5F]) ++ [0xAA] :=
  ⟨aligned_loaded _, holds_loaded _, by decide, aligned_withSin _, anyPad_58_5F.1, rfl, aligned_withSin _, anyPad_58_5F.2,
    rfl⟩

/-- V2. -/
theorem witness_EmptyInputRoundTrip :
    AlignedStart (loaded []) ∧ HoldsTree (loaded []) tree1 ∧ sinRest (loaded []) = [] ∧
    AlignedStart (withSin (header1 ++ [0xC0])) ∧
    sinRest (withSin (header1 ++ [0xC0])) = packBytes tree1.hdr ++ packBytes (padTo8 [true, true]) :=
  ⟨aligned_loaded _, holds_loaded _, rfl, aligned_withSin _, by decide +kernel⟩

theorem witness_DecompressEndsWithOneFlag :
    (withSin header1).err = 0 ∧ nextMeets (exec .decompress (withSin header1)) (fun t => t.err = 0 ∧ t.trunc) = true ∧
    nextMeets (exec .decompress (withSin (header1 ++ [0x58]))) (fun t => t.err = 0 ∧ t.eosseen) = true := by decide +kernel

/-- Both commands, without an error and with one. -/
theorem witness_ReaderCommandsFrame :
    nextMeets (exec .rdbit (withSin [0x58])) (fun t => t.err = 0) = true ∧
    nextMeets (exec .rdbit failing) (fun t => t.err ≠ failing.err) = true ∧
    nextMeets (exec (.rdbits 16) (withSin [0x12, 0x34])) (fun t => t.err = 0) = true ∧
    nextMeets (exec (.rdbits 16) (withSin [0x12])) (fun t => t.err ≠ 0) = true := by decide +kernel

theorem witness_Dec1Frame :
    nextMeets (exec .dec1 (loaded [0x58])) (fun t => t.err = 0) = true ∧
    nextMeets (exec .dec1 (loaded [])) (fun t => t.err ≠ 0) = true := by decide +kernel

theorem witness_WriterCommandsFrame :
    nextMeets (exec .flush failing) (fun t => t.err = 5) = true ∧ nextMeets (exec (.wrbit true) failing) (fun t => t.err = 0) = true ∧
    nextMeets (exec (.wrbits 0xFF 8) failing) (fun t => t.err = 5) = true ∧
    nextMeets (exec (.encsym 98) tabled) (fun t => t.wcnt = 2) = true := by decide +kernel

theorem witness_TserBldtabFrame :
    nextMeets (exec .tser (loaded [])) (fun t => t.err = 0) = true ∧ nextMeets (exec .bldtab (loaded [])) (fun t => t.err = 0) = true ∧
    nextMeets (exec .bldtab State.reset) (fun t => t.err ≠ State.reset.err) = true := by decide +kernel

theorem witness_CompositeCommandsFrame :
    nextMeets (exec .tdes (withSin header1)) (fun t => t.err = 0) = true ∧
    nextMeets (exec .compress (loaded [0x61])) (fun t => t.err = 0) = true ∧
    nextMeets (exec .decompress (withSin header1)) (fun t => t.err = 0) = true ∧
    nextMeets (exec .tdes State.reset) (fun t => t.err ≠ State.reset.err) = true ∧
    nextMeets (exec .decompress State.reset) (fun t => t.err ≠ State.reset.err) = true := by decide +kernel

/-- Each end: an error of the bits, none, and, after a header of five bytes and one byte of payload, the push or the pull
that fails. -/
theorem witness_ErrorKindsByCommand :
    State.reset.err = 0 ∧ nextMeets (exec .rdbit State.reset) (fun t => t.err = 4) = true ∧
    nextMeets (exec .nop State.reset) (fun t => t.err = 0) = true ∧
    nextMeets (exec .decompress { withSin (header1 ++ [0x58]) with portScript := List.replicate 6 false ++ [true] })
      (fun t => t.err = 5 ∧ t.sout = [] ∧ t.portScript = []) = true ∧
    nextMeets (exec .decompress { withSin (header1 ++ [0x58]) with portScript := List.replicate 5 false ++ [true] })
      (fun t => t.err = 5 ∧ t.trunc = false ∧ t.portScript = []) = true := by decide +kernel

/-- Each of the four commands that write RESULT changes it, DEC1 from a state that meets the invariant. -/
theorem witness_ResultWrittenByThreeCommands :
    nextMeets (exec .rdbit (withSin [0x80])) (fun t => t.result ≠ (withSin [0x80]).result) = true ∧
    nextMeets (exec (.rdbits 16) (withSin [0xFF, 0xFF])) (fun t => t.result ≠ State.reset.result) = true ∧
    nextMeets (exec .dec1 (loaded [0xC0])) (fun t => t.result ≠ State.reset.result) = true ∧
    nextMeets (exec .rst { State.reset with result := 1 }) (fun t => t.result ≠ 1) = true ∧
    StateInv (loaded [0xC0]) :=
  ⟨by decide +kernel, by decide +kernel, by decide +kernel, by decide +kernel,
    ⟨by decide, by decide, by decide, by decide, by decide, by decide, by decide, by decide⟩⟩

theorem witness_TreeChangeDropsTable :
    nextMeets (step (issuing (withSin header1) 0x11000000)) (fun t => t.tmem ≠ []) = true ∧
    nextMeets (step { tabled with actions := [.write 0x000C 1] }) (fun t => t.root ≠ tabled.root) = true := by decide +kernel

theorem witness_StreamsOnlyGrow :
    nextMeets (step (issuing (loaded [0x61]) 0x22000000)) (fun t => t.sinPos = 1) = true := by decide +kernel

/-- Reset meets the invariant, and so does a state with T1, its table and a partial byte. -/
theorem witness_EveryCommandEnds : StateInv State.reset ∧ StateInv { tabled with wacc := 0x80, wcnt := 1 } := by
  refine ⟨⟨by decide, by decide, by decide, by decide, by decide, by decide, by decide, by decide⟩, ?_⟩
  exact ⟨by decide, by decide, by decide, by decide, by decide, by decide, fun _ => by decide +kernel,
    fun _ => ⟨rfl, by decide +kernel⟩⟩

theorem witness_InvariantKeptByStep :
    StateInv (issuing { tabled with wacc := 0x80, wcnt := 1 } 0x21000061) ∧
    nextMeets (step (issuing { tabled with wacc := 0x80, wcnt := 1 } 0x21000061)) (fun t => t.wcnt = 2) = true :=
  ⟨⟨by decide, by decide, by decide, by decide, by decide, by decide, fun _ => by decide +kernel,
    fun _ => ⟨rfl, by decide +kernel⟩⟩, by decide +kernel⟩

end Sys2Proof.Tests
end

section
/-! PROOFS. The bounds that follow from the invariants of a tree (spec 00_scope.md R7): a binary tree has one Leaf
more than Internal nodes and no path longer than the number of its Internal nodes, and the Leaves of a valid tree
carry different symbols of an alphabet of 257. -/

namespace Sys2Proof.Machine

/-- One Leaf more than Internal nodes. -/
theorem CodeTree.size_add_one (t : CodeTree) : t.size + 1 = 2 * t.symbols.length := by
  induction t with
  | leaf _ => rfl
  | node l r ihl ihr =>
    simp only [CodeTree.size, CodeTree.symbols, List.length_append]
    omega

theorem CodeTree.symbols_length_pos (t : CodeTree) : 0 < t.symbols.length := by
  have hsize := t.size_add_one
  omega

/-- Each Internal node on a path has at least one Leaf off the path. -/
theorem CodeTree.code_length_lt {t : CodeTree} {x : Sym} {p : Bits} (h : t.code x = some p) :
    p.length < t.symbols.length := by
  induction t generalizing p with
  | leaf s =>
    simp only [CodeTree.code, Option.ite_none_right_eq_some, Option.some.injEq] at h
    obtain ⟨_, rfl⟩ := h
    exact Nat.zero_lt_one
  | node l r ihl ihr =>
    have hl := l.symbols_length_pos
    have hr := r.symbols_length_pos
    simp only [CodeTree.symbols, List.length_append]
    rcases CodeTree.code_node h with ⟨q, hq, rfl⟩ | ⟨_, q, hq, rfl⟩
    · have := ihl hq
      rw [List.length_cons]; omega
    · have := ihr hq
      rw [List.length_cons]; omega

/-- Different symbols of the alphabet: as many as the alphabet has at most. -/
theorem length_le_nSym {ss : List Sym} (hn : ss.Nodup) (hs : ∀ x ∈ ss, x ≤ Config.eos) : ss.length ≤ Config.nSym := by
  have hsub : ss.map BitVec.toNat ⊆ List.range Config.nSym := by
    intro n hmem
    obtain ⟨x, hx, rfl⟩ := List.mem_map.mp hmem
    exact List.mem_range.mpr (Nat.lt_succ_of_le (BitVec.le_def.mp (hs x hx)))
  have hnodup : (ss.map BitVec.toNat).Nodup := hn.map fun _ _ => BitVec.eq_of_toNat_eq
  simpa using (hnodup.subperm hsub).length_le

theorem CodeTree.valid_symbols_length_le {t : CodeTree} (h : t.valid = true) : t.symbols.length ≤ Config.nSym := by
  obtain ⟨_, hs, hn, _⟩ := CodeTree.valid_parts h
  exact length_le_nSym hn hs

/-- The root of a valid tree is Internal, so that no code is empty (R155). -/
theorem CodeTree.valid_code_length_pos {t : CodeTree} (h : t.valid = true) {x : Sym} {p : Bits} (hc : t.code x = some p) :
    0 < p.length := by
  obtain ⟨⟨l, r, rfl⟩, _⟩ := CodeTree.valid_parts h
  exact List.length_pos_iff.mpr (CodeTree.code_ne_nil hc)

/-- Settles O26: the alphabet bounds the Leaves, and the number of Leaves bounds the nodes and every path. -/
theorem validTreeBounds : Obligations.ValidTreeBounds := by
  intro t h
  have hleaves : t.symbols.length ≤ 257 := CodeTree.valid_symbols_length_le h
  have hsize := t.size_add_one
  refine ⟨hleaves, hsize, by omega, fun x p hc => ⟨CodeTree.valid_code_length_pos h hc, ?_⟩⟩
  have hlt := CodeTree.code_length_lt hc
  omega

end Sys2Proof.Machine
end


section
/-! PROOFS. What everything but a reset keeps, as one relation: the part of the invariant that speaks of TMEM, ETAB and their
flags is kept all along a command's body, and each procedure's frame is a `BlockStep` (spec 10_state.md R23 to R25, R38;
20_memory.md R72 to R75). -/

namespace Sys2Proof.Machine

variable {α β : Type}

theorem Run.Ends.and {r : Run α} {P Q : State → Prop} (hP : r.Ends P) (hQ : r.Ends Q) : r.Ends fun t => P t ∧ Q t := by
  cases r with
  | ok a t => exact ⟨hP, hQ⟩
  | raise k t => exact ⟨hP, hQ⟩
  | stuck w => trivial

/-- A premise that does not speak of the state a run ends in. -/
theorem Run.Ends.of_imp {r : Run α} {p : Prop} {P : State → Prop} (h : p → r.Ends P) : r.Ends fun t => p → P t := by
  cases r with
  | ok a t => exact h
  | raise k t => exact h
  | stuck w => trivial

/-! ### The tree and its table along a command's body -/

/-- The clauses of `StateInv` about TMEM, ROOT, TVALID, TBLV and ETAB, on their values. -/
structure TreeClauses (tmem : Memory) (root : NodeIdx) (tvalid tblv : Bool) (etab : ETab) : Prop where
  tmemWf : Memory.wf tmem
  etabWf : ETab.wf etab
  tvalidSound : tvalid = true → checkTree tmem root = true
  tblvSound : tblv = true → tvalid = true ∧ (treeAt tmem root).map tableOf = some etab

/-- The part of the invariant that holds inside a command's body too. -/
abbrev TreeInv (s : State) : Prop := TreeClauses s.tmem s.root s.tvalid s.tblv s.etab

theorem StateInv.treeInv {s : State} (h : StateInv s) : TreeInv s :=
  ⟨h.tmemWf, h.etabWf, h.tvalidSound, h.tblvSound⟩

theorem CoderStep.treeInv {s t : State} (h : CoderStep s t) (hs : TreeInv s) : TreeInv t := by
  rw [h.only]; exact hs

theorem DecoderStep.treeInv {s t : State} (h : DecoderStep s t) (hs : TreeInv s) : TreeInv t := by
  rw [h.only]; exact hs

/-- With TVALID and TBLV cleared nothing ties ETAB to TMEM and ROOT any more. -/
theorem TreeInv.of_cleared {s : State} (hm : Memory.wf s.tmem) (he : ETab.wf s.etab) (hv : s.tvalid = false)
    (hb : s.tblv = false) : TreeInv s :=
  ⟨hm, he, fun h => absurd (hv.symm.trans h) (by decide), fun h => absurd (hb.symm.trans h) (by decide)⟩

/-- Dropping the table keeps the rest (R25). -/
theorem TreeInv.dropTable {s : State} (h : TreeInv s) : TreeInv { s with tblv := false } :=
  ⟨h.tmemWf, h.etabWf, h.tvalidSound, fun hb => absurd hb (by decide : ¬(false = true))⟩

/-- A body that begins with `ensure_valid()`: it goes on with TVALID = 1, which is sound (R24, R124). -/
theorem ensureValid_then {s : State} {f : State → Run β} {P : State → Prop} (hraise : P s)
    (hf : (TreeInv s → TreeInv { s with tvalid := true }) → (f { s with tvalid := true }).Ends P) :
    ((ensureValid s).andThen fun _ t => f t).Ends P := by
  rcases ensureValid_cases s with ⟨hv, h⟩ | ⟨_, hc, h⟩ | ⟨_, _, h⟩ <;> rw [h]
  · have hs : { s with tvalid := true } = s := by rw [← hv]
    rw [hs] at hf
    exact hf id
  · exact hf fun hs => ⟨hs.tmemWf, hs.etabWf, fun _ => hc, fun hb => ⟨rfl, (hs.tblvSound hb).2⟩⟩
  · exact hraise

/-- The table build makes TBLV = 1 sound (R25, R151). -/
theorem bldtabBody_treeInv {s : State} (hs : TreeInv s) (hv : s.tvalid = true) : (bldtabBody s).Ends TreeInv := by
  obtain ⟨tree, ht, hvalid⟩ := checkTree_treeAt (hs.tvalidSound hv)
  rw [bldtabBody_eq ht]
  exact ⟨hs.tmemWf, wf_tableOf (CodeTree.valid_parts hvalid).2.1, hs.tvalidSound, fun _ => ⟨hv, by rw [ht]; rfl⟩⟩

theorem compressBody_treeInv {s : State} (hs : TreeInv s) : (compressBody s).Ends TreeInv := by
  refine ensureValid_then hs fun hvalid => ?_
  refine ((tserBody_ends _).mono (Q := fun t => TreeInv t ∧ t.tvalid = true) fun t h =>
    ⟨h.coder.treeInv (hvalid hs), by rw [h.only]⟩).andThen (fun _ h => h.1) fun _ t ht => ?_
  refine (bldtabBody_treeInv ht.1 ht.2).andThen (fun _ h => h) fun _ u hu => ?_
  refine ((encodeInput_ends _ u).mono fun v h => h.treeInv hu).andThen (fun _ h => h) fun _ v hv => ?_
  refine ((emitCode_ends _ v).mono fun w h => h.coder.treeInv hv).andThen (fun _ h => h) fun _ w hw => ?_
  exact (flushWriter_ends w).mono fun x h => h.coder.treeInv hw

/-- After the deserializer there is no table, and no tree taken for valid (R131). -/
theorem tdesBody_cleared (s : State) :
    (tdesBody s).Ends fun t => t.tblv = false ∧ (TreeInv s → TreeInv t) :=
  (tdesBody_ends s).mono fun t h =>
    have hb : t.tblv = false := by rw [h.only]
    have hv : t.tvalid = false := by rw [h.only]
    have he : t.etab = s.etab := by rw [h.only]
    ⟨hb, fun hs => .of_cleared (h.tmemWf Memory.wf_nil) (he ▸ hs.etabWf) hv hb⟩

theorem decompressBody_cleared (s : State) :
    (decompressBody s).Ends fun t => t.tblv = false ∧ (TreeInv s → TreeInv t) := by
  refine (tdesBody_cleared _).andThen (fun _ h => h) fun _ t ⟨hb, htree⟩ => ?_
  refine ensureValid_then ⟨hb, htree⟩ fun hvalid => ?_
  exact (decodePayload_ends _ _).mono fun u h =>
    ⟨by rw [h.only]; exact hb, fun hs => h.treeInv (hvalid (htree hs))⟩

/-! ### `BlockStep` -/

/-- What everything but a reset keeps from `s` to `t`, ERR's value among it. RESULT is kept where `r` is false. -/
structure BlockStep (r : Bool) (s t : State) : Prop where
  err : t.err = s.err
  result : r = false → t.result = s.result
  /-- SIN's bytes change only by appending (R74). -/
  feeds : s.sinData <+: t.sinData
  forward : s.sinPos ≤ t.sinPos
  inside : s.sinPos ≤ s.sinData.length → t.sinPos ≤ t.sinData.length
  grows : s.sout <+: t.sout
  clean : writerClean s → writerClean t
  /-- Whatever touches the tree leaves no table in force (R79). -/
  dropsTable : (t.tmem = s.tmem ∧ t.root = s.root) ∨ t.tblv = false
  treeInv : TreeInv s → TreeInv t

theorem BlockStep.refl (r : Bool) (s : State) : BlockStep r s s :=
  ⟨rfl, fun _ => rfl, List.prefix_refl _, le_refl _, id, List.prefix_refl _, id, .inl ⟨rfl, rfl⟩, id⟩

theorem CompressStep.block {r : Bool} {s t : State} (h : CompressStep s t) (htree : TreeInv s → TreeInv t) :
    BlockStep r s t where
  err := by rw [h.only]
  result := fun _ => by rw [h.only]
  feeds := by rw [h.only]
  forward := h.forward
  inside := fun hs => by
    have e : t.sinData = s.sinData := by rw [h.only]
    rw [e]; exact h.inside hs
  grows := h.grows
  clean := h.clean
  dropsTable := .inl ⟨by rw [h.only], by rw [h.only]⟩
  treeInv := htree

theorem DecompressStep.block {r : Bool} {s t : State} (h : DecompressStep s t)
    (hdrop : (t.tmem = s.tmem ∧ t.root = s.root) ∨ t.tblv = false) (htree : TreeInv s → TreeInv t) :
    BlockStep r s t where
  err := by rw [h.only]
  result := fun _ => by rw [h.only]
  feeds := by rw [h.only]
  forward := h.forward
  inside := fun hs => by
    have e : t.sinData = s.sinData := by rw [h.only]
    rw [e]; exact h.inside hs
  grows := h.grows
  clean := fun hs => by rw [h.only]; exact hs
  dropsTable := hdrop
  treeInv := htree

theorem WriterStep.block {r : Bool} {s t : State} (h : WriterStep s t) : BlockStep r s t :=
  h.coder.compress.block h.coder.treeInv

theorem DecoderStep.block {r : Bool} {s t : State} (h : DecoderStep s t) : BlockStep r s t :=
  h.decompress.block (.inl ⟨by rw [h.only], by rw [h.only]⟩) h.treeInv

theorem ReaderStep.block {r : Bool} {s t : State} (h : ReaderStep s t) : BlockStep r s t := h.decoder.block

/-- The three commands that write RESULT write it last (R29). -/
theorem BlockStep.setResult {s t : State} (h : BlockStep true s t) (v : Word) :
    BlockStep true s { t with result := v } :=
  { h with result := fun hr => absurd hr (by decide) }

end Sys2Proof.Machine
end

section
/-! PROOFS. Every command and every step as a `BlockStep`, and the statements that hold of every step: the invariant, the
order of errors, the table in force, the streams. -/

namespace Sys2Proof.Machine

/-! ### The commands -/

theorem tserBody_block {r : Bool} {s : State} (hvalid : TreeInv s → TreeInv { s with tvalid := true }) :
    (tserBody { s with tvalid := true }).Ends (BlockStep r s) :=
  (tserBody_ends _).mono fun _ h =>
    ((compressStep_of_table rfl).trans h.coder.compress).block fun hs => h.coder.treeInv (hvalid hs)

theorem bldtabBody_block {r : Bool} {s : State} (hvalid : TreeInv s → TreeInv { s with tvalid := true }) :
    (bldtabBody { s with tvalid := true }).Ends (BlockStep r s) := by
  have htree := Run.Ends.of_imp fun hs : TreeInv s => bldtabBody_treeInv (hvalid hs) rfl
  exact ((bldtabBody_ends _).and htree).mono fun _ ⟨h, ht⟩ => ((compressStep_of_table rfl).trans h).block ht

theorem compressBody_block (r : Bool) (s : State) :
    ((compressBody s).onLeave fun t => { t with tblv := false }).Ends (BlockStep r s) := by
  have htree := Run.Ends.of_imp fun hs : TreeInv s => compressBody_treeInv hs
  exact ((compressBody_ends s).and htree).onLeave fun _ ⟨h, ht⟩ =>
    (h.trans (compressStep_of_table rfl)).block fun hs => (ht hs).dropTable

theorem tdesBody_block (r : Bool) (s : State) : (tdesBody s).Ends (BlockStep r s) := by
  have hclear : DecompressStep s { s with tvalid := false, tblv := false, root := 0, tmem := [] } :=
    ⟨rfl, List.suffix_refl _, List.prefix_refl _, le_refl _, id, fun _ => Memory.wf_nil⟩
  exact ((tdesBody_ends s).and (tdesBody_cleared s)).mono fun t ⟨h, hb, htree⟩ =>
    (hclear.trans h.decompress).block (.inr hb) htree

theorem decompressBody_block (r : Bool) (s : State) : (decompressBody s).Ends (BlockStep r s) :=
  ((decompressBody_ends s).and (decompressBody_cleared s)).mono fun _ ⟨h, hb, htree⟩ => h.block (.inr hb) htree

theorem decodeOne_block {r : Bool} {s : State} (hvalid : TreeInv s → TreeInv { s with tvalid := true }) :
    (decodeOne { s with tvalid := true }).Ends (BlockStep r s) := by
  have hset : DecompressStep s { s with tvalid := true } :=
    ⟨rfl, List.suffix_refl _, List.prefix_refl _, le_refl _, id, id⟩
  exact (decodeOne_ends _).mono fun t h =>
    (hset.trans h.decoder.decompress).block (.inl ⟨by rw [h.only], by rw [h.only]⟩) fun hs =>
      h.decoder.treeInv (hvalid hs)

/-- The commands that write RESULT where they do not raise (R29). -/
def writesResult : Instr → Bool
  | .rdbit | .rdbits _ | .dec1 => true
  | .nop | .wrbit _ | .wrbits _ _ | .flush | .rdalign | .tser | .tdes | .bldtab | .encsym _ | .compress | .decompress
  | .rst => false

/-- Every command but RST runs a body that makes a `BlockStep` on each of its paths. -/
theorem exec_body {i : Instr} (hi : i ≠ .rst) :
    ∃ body : State → Run Unit, exec i = command body ∧ ∀ s, (body s).Ends (BlockStep (writesResult i) s) := by
  cases i with
  | nop => exact ⟨fun s => .ok () s, rfl, fun s => .refl _ s⟩
  | rdbit => exact ⟨_, rfl, fun s => (readBit_ends s).andThen (fun _ h => h.block) fun _ _ h => h.block.setResult _⟩
  | rdbits n =>
    exact ⟨_, rfl, fun s => (readBits_ends n.toNat 0 s).andThen (fun _ h => h.block) fun _ _ h => h.block.setResult _⟩
  | wrbit b => exact ⟨_, rfl, fun s => (writeBit_ends b s).mono fun _ h => h.block⟩
  | wrbits v n => exact ⟨_, rfl, fun s => (writeAll_ends _ s).mono fun _ h => h.block⟩
  | flush => exact ⟨_, rfl, fun s => (flushWriter_ends s).mono fun _ h => h.block⟩
  | rdalign =>
    exact ⟨fun s => .ok () { s with rcnt := 0 }, rfl, fun s =>
      ReaderStep.block ⟨rfl, List.suffix_refl _, le_refl _, id⟩⟩
  | tser => exact ⟨_, rfl, fun s => requireElse_ends (.refl _ s) (ensureValid_then (.refl _ s) tserBody_block)⟩
  | tdes => exact ⟨_, rfl, fun s => requireElse_ends (.refl _ s) (tdesBody_block _ s)⟩
  | bldtab => exact ⟨_, rfl, fun s => ensureValid_then (.refl _ s) bldtabBody_block⟩
  | encsym x => exact ⟨_, rfl, fun s => requireElse_ends (.refl _ s) ((emitCode_ends x s).mono fun _ h => h.block)⟩
  | compress => exact ⟨_, rfl, fun s => requireElse_ends (.refl _ s) (compressBody_block _ s)⟩
  | dec1 =>
    exact ⟨_, rfl, fun s => ensureValid_then (.refl _ s) fun hvalid =>
      (decodeOne_block hvalid).andThen (fun _ h => h) fun _ _ h => h.setResult _⟩
  | decompress => exact ⟨_, rfl, fun s => requireElse_ends (.refl _ s) (decompressBody_block _ s)⟩
  | rst => exact absurd rfl hi

/-- Fault entry writes ERR, and otherwise keeps what a `BlockStep` keeps (R280). -/
theorem BlockStep.faultEntry {r : Bool} {s u : State} (h : BlockStep r s u) (k : ErrKind) :
    BlockStep r { s with err := k.code } (Sys2Proof.Machine.faultEntry k u) := by
  have hf : BlockStep r { u with err := k.code } (Sys2Proof.Machine.faultEntry k u) := (faultEntry_step k u).block
  exact {
    err := hf.err
    result := fun hr => (hf.result hr).trans (h.result hr)
    feeds := h.feeds.trans hf.feeds
    forward := h.forward.trans hf.forward
    inside := fun hs => hf.inside (h.inside hs)
    grows := h.grows.trans hf.grows
    clean := fun hs => hf.clean (h.clean hs)
    dropsTable := by rw [(faultEntry_step k u).only]; exact h.dropsTable
    treeInv := fun hs => hf.treeInv (h.treeInv hs) }

/-- What a command but RST leaves: nothing new in the fault state (R282), else what its body leaves, by fault entry where it
raises (R280). -/
theorem exec_cases {i : Instr} {s t : State} (hi : i ≠ .rst) (h : exec i s = .next t) :
    (s.err ≠ 0 ∧ t = s) ∨ (s.err = 0 ∧ BlockStep (writesResult i) s t) ∨
    (s.err = 0 ∧ ∃ k : ErrKind, BlockStep (writesResult i) { s with err := k.code } t ∧ t.wcnt = 0) := by
  obtain ⟨body, he, hbody⟩ := exec_body hi
  have hends := hbody s
  rw [he] at h
  rcases command_next h with hignored | ⟨h0, hok | ⟨k, u, hraise, rfl⟩⟩
  · exact .inl hignored
  · rw [hok] at hends; exact .inr (.inl ⟨h0, hends⟩)
  · rw [hraise] at hends; exact .inr (.inr ⟨h0, k, hends.faultEntry k, faultEntry_wcnt k u⟩)

/-! ### The steps -/

theorem hostWrite_block (r : Bool) (off : Offset) (v : Word) (s : State) : BlockStep r s (hostWrite off v s) := by
  rcases hostWrite_cases off v s with h | ⟨_, h⟩ | ⟨_, h⟩ | ⟨_, h⟩ <;> rw [h]
  · exact .refl r s
  · exact { BlockStep.refl r s with dropsTable := .inr rfl, treeInv := fun hs => .of_cleared hs.tmemWf hs.etabWf rfl rfl }
  · exact { BlockStep.refl r s with }
  · exact { BlockStep.refl r s with
      dropsTable := .inr rfl
      treeInv := fun hs => .of_cleared (Memory.wf_write hs.tmemWf _ v) hs.etabWf rfl rfl }

theorem hostWrite_wcnt (off : Offset) (v : Word) (s : State) : (hostWrite off v s).wcnt = s.wcnt := by
  rcases hostWrite_cases off v s with h | ⟨_, h⟩ | ⟨_, h⟩ | ⟨_, h⟩ <;> rw [h]

/-- RST has one word (R92, R95). -/
theorem decode_rst {w : Word} (h : decode w = .command .rst) : w = 0xFF000000 := by
  have hf : encodeFields .rst = fieldsOf w := (decodeFields_command h).1
  exact word_eq_of_fields hf.symm

/-- What a step does, in three kinds: it enters the fault state, it resets, or it does neither. -/
inductive StepKind (s t : State) : Prop where
  /-- ERR is kept, and in the fault state so is the writer. -/
  | plain (r : Bool) (block : BlockStep r s t) (writer : s.err ≠ 0 → t.wcnt = s.wcnt)
  /-- A command raised `k` (R280). -/
  | fault (r : Bool) (k : ErrKind) (noFault : s.err = 0) (block : BlockStep r { s with err := k.code } t)
      (writer : t.wcnt = 0)
  /-- RST or a hardware reset (R283, R310). -/
  | reset (rest : List Action) (action : s.actions = .write 0x0000 0xFF000000 :: rest ∨ s.actions = .reset :: rest)
      (state : t = softReset { s with actions := rest })

theorem issue_kind {w : Word} {s t : State} {rest : List Action} (ha : s.actions = .write 0x0000 w :: rest)
    (h : issue w { s with actions := rest } = .next t) : StepKind s t := by
  rcases issue_next h with ⟨i, hd, he⟩ | ⟨why, hd, ⟨_, rfl⟩ | ⟨h0, rfl⟩⟩
  · by_cases hi : i = .rst
    · subst hi
      obtain rfl := decode_rst hd
      cases he
      exact .reset rest (.inl ha) rfl
    · rcases exec_cases hi he with ⟨_, rfl⟩ | ⟨h0, hb⟩ | ⟨h0, k, hb, hw⟩
      · exact .plain true { BlockStep.refl true s with } fun _ => rfl
      · exact .plain _ { hb with } fun hne => absurd h0 hne
      · exact .fault _ k h0 { hb with } hw
  · exact .plain true { BlockStep.refl true s with } fun _ => rfl
  · exact .fault true .illegalCommand h0 { (BlockStep.refl true _).faultEntry .illegalCommand with } (faultEntry_wcnt _ _)

theorem step_kind {s t : State} (h : step s = .next t) : StepKind s t := by
  rcases step_next h with ⟨_, rfl⟩ | ⟨a, rest, ha, hact⟩
  · exact .plain true (.refl true t) fun _ => rfl
  rcases act_next hact with ⟨w, rfl, hissue⟩ | ⟨off, v, rfl, _, rfl⟩ | ⟨off, rfl, rfl⟩ | ⟨bytes, rfl, rfl⟩ |
    ⟨answers, rfl, rfl⟩ | ⟨rfl, rfl⟩
  · exact issue_kind ha hissue
  · exact .plain true { hostWrite_block true off v { s with actions := rest } with } fun _ => hostWrite_wcnt off v _
  · exact .plain true { BlockStep.refl true s with } fun _ => rfl
  · exact .plain true { BlockStep.refl true s with
      feeds := List.prefix_append _ _
      inside := fun hs => hs.trans (List.prefix_append s.sinData bytes).length_le } fun _ => rfl
  · exact .plain true { BlockStep.refl true s with } fun _ => rfl
  · exact .reset rest (.inr ha) rfl

/-! ### The statements about every step -/

theorem ErrKind.code_bounds (k : ErrKind) : 1 ≤ k.code.toNat ∧ k.code.toNat ≤ 8 := by
  cases k <;> decide

theorem BlockStep.stateInv {r : Bool} {s t : State} (h : BlockStep r s t) (htree : TreeInv s) (hclean : writerClean s)
    (hsin : s.sinPos ≤ s.sinData.length) (herr : s.err ≤ 8) (hflushed : s.err ≠ 0 → t.wcnt = 0) : StateInv t :=
  { h.treeInv htree with
    errKnown := h.err ▸ herr
    faultFlushed := h.err ▸ hflushed
    writerClean := h.clean hclean
    sinWf := h.inside hsin }

/-- Settles O60: ERR is 0, TVALID and TBLV are 0, and every list is empty. -/
theorem resetMeetsInvariant : Obligations.ResetMeetsInvariant where
  errKnown := by decide
  faultFlushed := fun _ => rfl
  tmemWf := Memory.wf_nil
  etabWf := ETab.wf_nil
  writerClean := rfl
  sinWf := le_refl _
  tvalidSound := fun h => absurd h (by decide)
  tblvSound := fun h => absurd h (by decide)

/-- Settles O59, by the kind of the step. -/
theorem invariantKeptByStep : Obligations.InvariantKeptByStep := by
  intro s t hs h
  rcases step_kind h with ⟨r, block, writer⟩ | ⟨r, k, noFault, block, writer⟩ | ⟨rest, _, rfl⟩
  · exact block.stateInv hs.treeInv hs.writerClean hs.sinWf hs.errKnown fun he => (writer he).trans (hs.faultFlushed he)
  · exact block.stateInv hs.treeInv hs.writerClean hs.sinWf k.code_bounds.2 fun _ => writer
  · exact { resetMeetsInvariant with sinWf := hs.sinWf }

/-- Settles O10: ERR is kept by a plain step, 0 before fault entry and a code after it, and 0 after a reset. -/
theorem errHoldsFirstErrorUntilReset : Obligations.ErrHoldsFirstErrorUntilReset := by
  intro s t h hne
  rcases step_kind h with ⟨r, block, _⟩ | ⟨r, k, noFault, block, _⟩ | ⟨rest, action, rfl⟩
  · exact absurd block.err hne
  · have hcode : t.err = k.code := block.err
    exact .inl ⟨noFault, hcode ▸ k.code_bounds⟩
  · exact .inr ⟨rfl, rest, action⟩

/-- Settles O56: a step that is no reset drops the table where it touches the tree, and a reset drops it always. -/
theorem treeChangeDropsTable : Obligations.TreeChangeDropsTable := by
  intro s t h hchange
  have hdrop : (t.tmem = s.tmem ∧ t.root = s.root) ∨ t.tblv = false := by
    rcases step_kind h with ⟨r, block, _⟩ | ⟨r, k, _, block, _⟩ | ⟨rest, _, rfl⟩
    · exact block.dropsTable
    · exact block.dropsTable
    · exact .inr rfl
  rcases hdrop with ⟨hm, hr⟩ | hb
  · exact absurd hchange (by simp [hm, hr])
  · exact hb

/-- Settles O57: the streams' clauses of a `BlockStep`, and a reset leaves the environment alone. -/
theorem streamsOnlyGrow : Obligations.StreamsOnlyGrow := by
  intro s t h
  rcases step_kind h with ⟨r, block, _⟩ | ⟨r, k, _, block, _⟩ | ⟨rest, _, rfl⟩
  · exact ⟨block.grows, block.forward, block.feeds⟩
  · exact ⟨block.grows, block.forward, block.feeds⟩
  · exact ⟨List.prefix_refl _, le_refl _, List.prefix_refl _⟩

end Sys2Proof.Machine
end

section
/-! PROOFS. Reset, the views and the flags of the state (spec 10_state.md R22, R27 to R29, R33, R34, R40). -/

namespace Sys2Proof.Machine

/-- Settles O11: RST and a hardware reset are `softReset`. -/
theorem rstResetsBlock : Obligations.RstResetsBlock := by
  refine ⟨fun s => ⟨rfl, fun rest ha => ?_⟩, Memory.read_nil, fun _ => rfl, rfl⟩
  rw [step_action ha]; rfl

/-- Settles O12: each field is reached by passing the fields below it. -/
theorem statusViewFields : Obligations.StatusViewFields := by
  intro s
  unfold statusView
  refine ⟨BitVec.extractLsb'_append_eq_right, ?tvalid, ?tblv, ?eosseen, ?trunc, ?sinEmpty, ?zeros15_13, ?wcnt, ?zero19,
    ?rcnt, ?zeros31_23⟩
  case tvalid | tblv | eosseen | trunc | sinEmpty | zero19 => simp only [BitVec.getLsbD_append]; simp
  case wcnt | rcnt =>
    simp only [BitVec.extractLsb'_append_eq_of_le, BitVec.extractLsb'_append_eq_right, Nat.reduceLeDiff, Nat.reduceSub]
  case zeros15_13 | zeros31_23 =>
    simp only [BitVec.extractLsb'_append_eq_of_le, BitVec.extractLsb'_append_eq_right, Nat.reduceLeDiff, Nat.reduceSub]
    rfl

/-! ### SINEMPTY -/

theorem sinEmpty_iff (s : State) : sinEmpty s = true ↔ s.rcnt = 0 ∧ s.sinData.length ≤ s.sinPos := by
  simp [sinEmpty, sinExhausted]

theorem sinEmpty_iff_unreadBits (s : State) : sinEmpty s = true ↔ unreadBits s = [] := by
  rw [sinEmpty_iff]
  refine ⟨fun ⟨hr, hl⟩ => ?_, exhausted_of_unreadBits_nil⟩
  rw [unreadBits, hr, List.drop_eq_nil_of_le hl]; rfl

theorem exec_rdbit_ok {s t : State} {b : Bool} (h0 : s.err = 0) (h : readBit s = .ok b t) :
    exec .rdbit s = .next { t with result := (BitVec.ofBool b).setWidth 32 } := by
  rw [exec, execRdbit]; exact command_ok h0 (by rw [h]; rfl)

theorem exec_rdbit_raise {s t : State} {k : ErrKind} (h0 : s.err = 0) (h : readBit s = .raise k t) :
    exec .rdbit s = .next (faultEntry k t) := by
  rw [exec, execRdbit]; exact command_raise h0 (by rw [h]; rfl)

/-- Settles O13: `read_bit()` raises `BitsExhausted` where no bit is unread, and returns one otherwise. -/
theorem sinEmptyForetellsExhaustion : Obligations.SinEmptyForetellsExhaustion := by
  refine fun s => ⟨sinEmpty_iff s, fun h0 hp => ?_⟩
  rw [sinEmpty_iff_unreadBits]
  cases hu : unreadBits s with
  | nil =>
    exact ⟨_, exec_rdbit_raise h0 (readBit_exhausted hp hu), iff_of_true rfl (faultEntry_err _ _)⟩
  | cons b rest =>
    obtain ⟨t, hok, _, hread⟩ := readBit_ok hp hu
    refine ⟨_, exec_rdbit_ok h0 hok, iff_of_false (by simp) ?_⟩
    show t.err ≠ 4
    rw [hread.only, h0]; decide

/-! ### The window onto ETAB -/

theorem windowEntry_some {s : State} {p : Bits} (hb : s.tblv = true) (hi : s.etidx.toNat ≤ 256)
    (hf : ETab.find s.etab s.etidx = some p) : windowEntry s = some p := by
  rw [windowEntry, if_pos ⟨hb, BitVec.le_def.mpr hi⟩, hf]

theorem windowEntry_none {s : State} (h : s.tblv = false ∨ 256 < s.etidx.toNat ∨ ETab.find s.etab s.etidx = none) :
    windowEntry s = none := by
  unfold windowEntry
  split
  · rename_i hw
    rcases h with hb | hi | hf
    · rw [hb] at hw; exact absurd hw.1 (by decide)
    · exact absurd (BitVec.le_def.mp hw.2) (Nat.not_le_of_lt hi)
    · exact hf
  · rfl

/-- The path lies in CODE from the top bit down (R33). -/
theorem entryCode_getLsbD (p : Bits) {i : Nat} (hi : i < 256) : (entryCode p).getLsbD (255 - i) = (p[i]?).getD false := by
  rw [entryCode, valueOf_getLsbD _ _ _ (by omega)]
  congr 2; omega

/-- Settles O16: `windowEntry` is the entry that all nine views show. -/
theorem etabWindowShowsEntry : Obligations.EtabWindowShowsEntry := by
  refine fun s => ⟨fun h => ?_, fun p hb hi hf hlen => ?_⟩
  · have hw := windowEntry_none h
    exact ⟨by rw [etlenView, hw], fun k => by rw [etcodeView, hw]⟩
  · have hw := windowEntry_some hb hi hf
    have hetlen : etlenView s = 1#1 ++ 0#22 ++ entryLen p := by rw [etlenView, hw]
    refine ⟨?_, ?_, ?_, fun k hk j hj => ?_⟩
    · rw [hetlen, BitVec.getLsbD_append, BitVec.getLsbD_append]; rfl
    · rw [hetlen, BitVec.extractLsb'_append_eq_of_le (le_refl _)]; rfl
    · rw [hetlen, BitVec.extractLsb'_append_eq_right, entryLen, BitVec.toNat_ofNat]
      exact Nat.mod_eq_of_lt (by omega)
    · have hbit : 224 - 32 * k + (31 - j) = 255 - (32 * k + j) := by omega
      rw [etcodeView, hw, BitVec.getLsbD_extractLsb', hbit, entryCode_getLsbD p (by omega)]
      simp only [show 31 - j < 32 by omega, decide_true, Bool.true_and]

end Sys2Proof.Machine
end

section
/-! PROOFS. What single commands leave in RESULT, TBLV, EOSSEEN and TRUNC (spec 10_state.md R25 to R27, R29). -/

namespace Sys2Proof.Machine

variable {α β : Type}

/-! ### Runs that end normally -/

theorem andThen_eq_ok {r : Run α} {f : α → State → Run β} {b : β} {t : State} (h : r.andThen f = .ok b t) :
    ∃ a u, r = .ok a u ∧ f a u = .ok b t := by
  cases r with
  | ok a u => exact ⟨a, u, rfl, h⟩
  | raise k u => cases h
  | stuck w => cases h

theorem Run.Ends.of_ok {r : Run α} {P : State → Prop} {a : α} {t : State} (h : r.Ends P) (hr : r = .ok a t) : P t := by
  rw [hr] at h; exact h

/-- Where `ensure_valid()` ends normally TVALID is 1 and nothing else has changed (R124), and the tree is valid where TVALID
could be trusted before (R24). -/
theorem ensureValid_eq_ok {s t : State} (h : ensureValid s = .ok () t) :
    t = { s with tvalid := true } ∧ (TreeInv s → checkTree s.tmem s.root = true) := by
  rcases ensureValid_cases s with ⟨hv, e⟩ | ⟨_, hc, e⟩ | ⟨_, _, e⟩ <;> rw [e] at h <;> cases h
  · exact ⟨by rw [← hv], fun hs => hs.tvalidSound hv⟩
  · exact ⟨rfl, fun _ => hc⟩

/-! ### TBLV after COMPRESS -/

theorem faultEntry_tblv (k : ErrKind) (s : State) : (faultEntry k s).tblv = s.tblv := by
  rw [(faultEntry_step k s).only]

/-- Settles O43: every path of the body leaves through the write of TBLV, and fault entry does not touch it. -/
theorem compressDropsTable : Obligations.CompressDropsTable := by
  intro s t h0 hw hr h
  have hends : (requireElse (s.wcnt = 0 ∧ s.rcnt = 0) .sequenceError (fun s =>
      (compressBody s).onLeave fun t => { t with tblv := false }) s).Ends fun t => t.tblv = false := by
    rw [requireElse, if_pos ⟨hw, hr⟩]
    exact (compressBody_ends s).onLeave fun _ _ => rfl
  rcases command_next h with ⟨he, _⟩ | ⟨_, hok | ⟨k, u, hraise, rfl⟩⟩
  · exact absurd h0 he
  · rw [hok] at hends; exact hends
  · rw [hraise] at hends; rw [faultEntry_tblv]; exact hends

/-! ### EOSSEEN and TRUNC after DECOMPRESS -/

/-- The decoder's loop sets one of the two flags, and ends at once (R199 to R201). -/
theorem decodePayload_oneFlag {fuel : Nat} {s t : State} (he : s.eosseen = false) (ht : s.trunc = false)
    (h : decodePayload fuel s = .ok () t) : t.trunc = !t.eosseen := by
  induction fuel generalizing s with
  | zero => cases h; rw [he]; rfl
  | succ n ih =>
    have hflags : (decodeOne s).Ends fun u => u.eosseen = false ∧ u.trunc = false :=
      (decodeOne_ends s).mono fun u hu => by rw [ReaderStep.only hu]; exact ⟨he, ht⟩
    rw [decodePayload] at h
    cases hd : decodeOne s with
    | stuck w => rw [hd] at h; cases h
    | raise k u =>
      rw [hd] at h hflags
      simp only at h
      split at h
      · cases h; exact (congrArg (!·) hflags.1).symm
      · cases h
    | ok x u =>
      rw [hd] at h hflags
      simp only at h
      split at h
      · cases h; exact hflags.2
      · rcases push_cases (x.setWidth 8) u with ⟨_, hp⟩ | ⟨_, hp⟩ <;> rw [hp] at h
        · cases h
        · exact ih (s := { u.useAnswer with sout := u.sout ++ [x.setWidth 8] }) hflags.1 hflags.2 h

theorem decompressBody_oneFlag {s t : State} (h : decompressBody s = .ok () t) : t.trunc = !t.eosseen := by
  obtain ⟨_, u, htdes, h⟩ := andThen_eq_ok h
  obtain ⟨_, v, hvalid, h⟩ := andThen_eq_ok h
  have hparse := (tdesBody_ends _).of_ok htdes
  obtain ⟨rfl, _⟩ := ensureValid_eq_ok hvalid
  refine decodePayload_oneFlag ?_ ?_ h
  · show u.eosseen = false; rw [hparse.only]
  · show u.trunc = false; rw [hparse.only]

theorem ErrKind.code_ne_zero (k : ErrKind) : k.code ≠ 0 := by
  cases k <;> decide

/-- Settles O48: ERR stays 0 only where the body ended normally, so in the decoder's loop. -/
theorem decompressEndsWithOneFlag : Obligations.DecompressEndsWithOneFlag := by
  intro s t h0 h herr
  rcases command_next h with ⟨he, _⟩ | ⟨_, hok | ⟨k, u, _, rfl⟩⟩
  · exact absurd h0 he
  · rw [requireElse] at hok
    split at hok
    · exact decompressBody_oneFlag hok
    · cases hok
  · rw [faultEntry_err] at herr
    exact absurd herr k.code_ne_zero

/-! ### RESULT -/

theorem exec_result_kept {i : Instr} {s t : State} (hi : i ≠ .rst) (hq : writesResult i = false) (h : exec i s = .next t) :
    t.result = s.result := by
  rcases exec_cases hi h with ⟨_, rfl⟩ | ⟨_, hb⟩ | ⟨_, k, hb, _⟩
  · rfl
  · exact hb.result hq
  · exact hb.result hq

/-- A command that runs `r` and then writes RESULT: it changes RESULT only where `r` ends normally (R29). -/
theorem result_of_command {r : State → Run α} {f : α → Word} {s t : State} (hr : (r s).Ends (BlockStep false s))
    (h : command (fun s => (r s).andThen fun a u => .ok () { u with result := f a }) s = .next t)
    (hne : t.result ≠ s.result) : ∃ a u, r s = .ok a u ∧ t.result = f a ∧ t.err = 0 := by
  rcases command_next h with ⟨_, rfl⟩ | ⟨h0, hok | ⟨k, u, hraise, rfl⟩⟩
  · exact absurd rfl hne
  · obtain ⟨a, u, hru, hset⟩ := andThen_eq_ok hok
    cases hset
    exact ⟨a, u, hru, rfl, (hr.of_ok hru).err.trans h0⟩
  · cases hrun : r s with
    | ok a v => rw [hrun] at hraise; cases hraise
    | stuck w => rw [hrun] at hraise; cases hraise
    | raise j v =>
      rw [hrun] at hraise hr
      cases hraise
      exact absurd ((BlockStep.faultEntry hr k).result rfl) hne

/-- DEC1 as a run that ends in a symbol, and the write of RESULT (R172). -/
theorem exec_dec1 (s : State) : exec .dec1 s = command (fun s =>
    ((ensureValid s).andThen fun _ t => decodeOne t).andThen fun x u => .ok () { u with result := x.setWidth 32 }) s := by
  simp only [andThen_assoc]; rfl

/-- From a state that meets the invariant the automaton returns a symbol of the alphabet (R29, R172). -/
theorem decodeOne_symbol_le {s u : State} {x : Sym} (hs : TreeInv s)
    (h : ((ensureValid s).andThen fun _ t => decodeOne t) = .ok x u) : x ≤ Config.eos := by
  obtain ⟨_, t, hvalid, hdecode⟩ := andThen_eq_ok h
  obtain ⟨rfl, hcheck⟩ := ensureValid_eq_ok hvalid
  obtain ⟨tree, htree, hv⟩ := checkTree_treeAt (hcheck hs)
  obtain ⟨⟨l, r, rfl⟩, hle, _, _⟩ := CodeTree.valid_parts hv
  exact hle x (decodeFrom_symbol (s := { s with tvalid := true }) htree hdecode)

/-- Settles O55: fault entry keeps RESULT, and so do the commands that do not write it; each of the other three writes the
value that its run has returned. -/
theorem resultWrittenByThreeCommands : Obligations.ResultWrittenByThreeCommands := by
  intro i s t h hne
  by_cases hi : i = .rst
  · subst hi; cases h; exact .inl ⟨rfl, rfl⟩
  refine .inr ?_
  cases hq : writesResult i with
  | false => exact absurd (exec_result_kept hi hq h) hne
  | true =>
    cases i
    case rdbit =>
      obtain ⟨b, u, _, hres, herr⟩ := result_of_command ((readBit_ends s).mono fun _ h => h.block) h hne
      refine ⟨herr, .inl ⟨rfl, ?_⟩⟩
      rw [hres]; cases b <;> decide
    case rdbits n =>
      obtain ⟨v, u, hread, hres, herr⟩ := result_of_command ((readBits_ends n.toNat 0 s).mono fun _ h => h.block) h hne
      refine ⟨herr, .inr (.inl ⟨n, rfl, ?_⟩)⟩
      obtain ⟨p, hp, hv, _⟩ := readBits_inv hread
      rw [hres, hv, foldl_shiftInBit p n.toNat hp (by omega), BitVec.toNat_setWidth]
      exact (Nat.mod_le _ _).trans_lt (valueOf n.toNat p).isLt
    case dec1 =>
      rw [exec_dec1] at h
      obtain ⟨x, u, hdecode, hres, herr⟩ := result_of_command (ensureValid_then (.refl _ s) decodeOne_block) h hne
      have hx : t.result.toNat = x.toNat := by rw [hres]; exact BitVec.toNat_setWidth_of_le (by decide)
      rw [hx]
      exact ⟨herr, .inr (.inr ⟨rfl, x.isLt, fun hs => BitVec.le_def.mp (decodeOne_symbol_le hs.treeInv hdecode)⟩)⟩
    all_goals cases hq

end Sys2Proof.Machine
end

section
/-! PROOFS. What a step is between commands (spec 20_memory.md R61, R74, R76, 70_reset_and_hazards.md R310). -/

namespace Sys2Proof.Machine

/-- Settles O6: an idle step, and then one kind of action after the other. -/
theorem stepBetweenCommands : Obligations.StepBetweenCommands := by
  intro s rest
  refine ⟨step_idle, ?feed, ?ports, ?write, ?read⟩
  case feed => intro bytes ha; rw [step_action ha]; rfl
  case ports => intro answers ha; rw [step_action ha]; rfl
  case write => intro off v hoff ha; rw [step_action ha]; exact (act_misaligned hoff v _).1
  case read => intro off hoff ha; rw [step_action ha]; exact (act_misaligned hoff 0 _).2

end Sys2Proof.Machine
end

section
/-! PROOFS. The command word (spec 30_encoding.md R90 to R97): the decoder inverts the encoder, and it agrees with the opcode
map row by row. -/

namespace Sys2Proof

/-! ### Single words, and their issue -/

/-- Settles O1: each word is evaluated. -/
theorem specWordsDecode : Obligations.SpecWordsDecode := by
  unfold Obligations.SpecWordsDecode
  decide

/-- Settles O5: the host's write to CMD is the issue of the word, and the issue of a command's word is its execution. -/
theorem stepRunsIssuedCommand : Obligations.StepRunsIssuedCommand := by
  intro s w rest i ha hd
  calc Machine.step s = Machine.act (.write Machine.cmdOffset w) { s with actions := rest } := Machine.step_action ha
    _ = Machine.issue w { s with actions := rest } := Machine.act_issue w _
    _ = Machine.exec i { s with actions := rest } := Machine.issue_command hd _

/-! ### Encoding and decoding -/

theorem decode_encode_eq (i : Instr) : decode (encode i) = decodeFields (encodeFields i) := by
  rw [decode, fieldsOf_encode]

/-- The operand bit of WRBIT is read back from ARG (R93). -/
theorem formatB_encodeFields (b : Bool) : formatB (encodeFields (.wrbit b)) .wrbit = .command (.wrbit b) := by
  cases b <;> rfl

/-- The symbol of ENCSYM is read back from ARG (R93), and the bits above it are 0. -/
theorem formatS_encodeFields {s : Sym} (h : symOk s = true) :
    formatS (encodeFields (.encsym s)) .encsym = .command (.encsym s) := by
  have hsym : (0#7 ++ s).extractLsb' 0 9 = s := BitVec.extractLsb'_append_eq_right
  have hzero : (0#7 ++ s).extractLsb' 9 7 = 0 := BitVec.extractLsb'_append_eq_left
  simp [formatS, encodeFields, countField, argField, hsym, hzero, h]

/-- Settles O2: OPC leads to the command's own format, and each format reads its operands back. -/
theorem decodeOfEncode : Obligations.DecodeOfEncode := by
  intro i hw
  rw [decode_encode_eq]
  cases i with
  | wrbit b => exact formatB_encodeFields b
  | encsym s => exact formatS_encodeFields hw
  | rdbits n => exact if_pos hw
  | wrbits v n => exact if_pos hw
  | nop | rdbit | flush | rdalign | tser | tdes | bldtab | compress | dec1 | decompress | rst => rfl

/-- Settles O3: the fields of the word are those of the command's own word. -/
theorem encodeOfDecode : Obligations.EncodeOfDecode := by
  intro w i hd
  obtain ⟨hfields, hw, _⟩ := decodeFields_command hd
  exact ⟨word_eq_of_fields ((fieldsOf_encode i).trans hfields), hw⟩

/-! ### The opcode map -/

/-- The mnemonics of the rows that should select a word: the command's own, and none for an illegal word (R95). -/
def Decoded.mnemonics : Decoded → List String
  | .command i => [mnemonicOf i]
  | .illegal _ => []

/-- The decoder's arms in the order of the opcode map: OPC, and the format with the command it makes (R92, R94). -/
def decoderArms : List (BitVec 8 × (Fields → Decoded)) :=
  [ (0x00, (formatZ · .nop)), (0x01, (formatZ · .rdbit)), (0x02, (formatN · .rdbits)), (0x03, (formatB · .wrbit)),
    (0x04, (formatV · .wrbits)), (0x05, (formatZ · .flush)), (0x06, (formatZ · .rdalign)), (0x10, (formatZ · .tser)),
    (0x11, (formatZ · .tdes)), (0x20, (formatZ · .bldtab)), (0x21, (formatS · .encsym)), (0x22, (formatZ · .compress)),
    (0x30, (formatZ · .dec1)), (0x31, (formatZ · .decompress)), (0xFF, (formatZ · .rst)) ]

/-- The first arm with the fields' OPC, applied to them. -/
def decodeArms (f : Fields) : List (BitVec 8 × (Fields → Decoded)) → Decoded
  | [] => .illegal .reservedOpcode
  | (opc, format) :: arms => if f.opc = opc then format f else decodeArms f arms

theorem decodeFields_eq_decodeArms (f : Fields) : decodeFields f = decodeArms f decoderArms := rfl

/-- A row of the opcode map and an arm of the decoder agree: the row selects words of the arm's OPC only, and of those exactly
the words that the arm decodes, to the row's command (R95). -/
structure RowAgrees (r : Row) (arm : BitVec 8 × (Fields → Decoded)) : Prop where
  opc : ∀ f, r.selects (packFields f) = true → f.opc = arm.1
  mnemonics : ∀ f, f.opc = arm.1 → (arm.2 f).mnemonics = if r.selects (packFields f) = true then [r.mnemonic] else []

/-- Where no arm has the fields' OPC, no row selects their word. -/
theorem filter_selects_eq_nil {rows : List Row} {arms : List (BitVec 8 × (Fields → Decoded))}
    (h : List.Forall₂ RowAgrees rows arms) {f : Fields} (hf : f.opc ∉ arms.map Prod.fst) :
    rows.filter (·.selects (packFields f)) = [] := by
  induction h with
  | nil => rfl
  | cons hra _ ih =>
    obtain ⟨hne, htail⟩ := not_or.mp (mt List.mem_cons.mpr hf)
    rw [List.filter_cons, if_neg fun hsel => hne (hra.opc f hsel), ih htail]

/-- Rows and arms that agree one by one, each arm with an OPC of its own, agree as a whole. -/
theorem mnemonics_decodeArms {rows : List Row} {arms : List (BitVec 8 × (Fields → Decoded))}
    (h : List.Forall₂ RowAgrees rows arms) (hn : (arms.map Prod.fst).Nodup) (f : Fields) :
    (decodeArms f arms).mnemonics = (rows.filter (·.selects (packFields f))).map Row.mnemonic := by
  induction h with
  | nil => rfl
  | @cons r arm rows arms hra htail ih =>
    obtain ⟨hnot, hn⟩ := List.nodup_cons.mp hn
    rw [decodeArms, List.filter_cons]
    by_cases ho : f.opc = arm.1
    · rw [if_pos ho, hra.mnemonics f ho, filter_selects_eq_nil htail (ho ▸ hnot)]
      split <;> rfl
    · rw [if_neg ho, if_neg fun hsel => ho (hra.opc f hsel), ih hn]

/-- A mask of all bits from `k` up picks out a 0 where those bits are 0. -/
theorem and_allOnes_append_eq_zero {m k : Nat} (a : BitVec (m + k)) :
    a &&& (BitVec.allOnes m ++ 0#k) = 0#(m + k) ↔ a.extractLsb' k m = 0 := by
  have hsplit : a.extractLsb' k m ++ a.extractLsb' 0 k = a := BitVec.extractLsb'_append_extractLsb'
  have hzero : 0#m ++ 0#k = 0#(m + k) := BitVec.zero_append_zero
  conv_lhs => rw [← hsplit, BitVec.and_append, BitVec.and_allOnes, BitVec.and_zero, ← hzero, append_eq_append]
  exact and_iff_left rfl

theorem count_holds (f : Fields) : Constraint.count.holds (packFields f) = countOk f.n := by
  have hn : (packFields f).extractLsb' 16 5 = f.n := congrArg Fields.n (fieldsOf_packFields f)
  rw [Constraint.holds, hn]
  rfl

/-- The symbol's field lies in ARG (R91, R93). -/
theorem fieldsOf_arg_symbol (w : Word) : (fieldsOf w).arg.extractLsb' 0 9 = w.extractLsb' 0 9 :=
  BitVec.extractLsb'_extractLsb'_of_le (by decide)

theorem symbol_holds (f : Fields) : Constraint.symbol.holds (packFields f) = symOk (f.arg.extractLsb' 0 9) := by
  rw [Constraint.holds, ← fieldsOf_arg_symbol, fieldsOf_packFields]
  rfl

/-- The row that compares OPC with `o`, and demands that the bits 23:21 and those that `mn` and `ma` pick out of N and ARG
are 0 (R94). -/
def rowOf (name : String) (o : BitVec 8) (mn : BitVec 5) (ma : BitVec 16) (c : Constraint) : Row :=
  ⟨name, packFields ⟨.allOnes 8, .allOnes 3, mn, ma⟩, packFields ⟨o, 0, 0, 0⟩, c⟩

theorem rowOf_selects {name : String} {o : BitVec 8} {mn : BitVec 5} {ma : BitVec 16} {c : Constraint} (f : Fields) :
    (rowOf name o mn ma c).selects (packFields f) = true ↔
      f.opc = o ∧ f.mbz = 0 ∧ f.n &&& mn = 0 ∧ f.arg &&& ma = 0 ∧ c.holds (packFields f) = true := by
  have hfields : packFields f &&& packFields ⟨.allOnes 8, .allOnes 3, mn, ma⟩ = packFields ⟨o, 0, 0, 0⟩ ↔
      f.opc = o ∧ f.mbz = 0 ∧ f.n &&& mn = 0 ∧ f.arg &&& ma = 0 := by
    have h := packFields_and f (.allOnes 8) o (.allOnes 3) 0 mn 0 ma 0
    rwa [BitVec.and_allOnes, BitVec.and_allOnes] at h
  rw [Row.selects, rowOf, Bool.and_eq_true, decide_eq_true_eq, hfields]
  simp only [and_assoc]

/-- A row agrees with an arm of its OPC that decodes, to its command, exactly what the rest of the row demands. -/
theorem rowAgrees_of_format {name : String} {o : BitVec 8} {mn : BitVec 5} {ma : BitVec 16} {c : Constraint}
    {format : Fields → Decoded} (h : ∀ f, (format f).mnemonics =
      if f.mbz = 0 ∧ f.n &&& mn = 0 ∧ f.arg &&& ma = 0 ∧ c.holds (packFields f) = true then [name] else []) :
    RowAgrees (rowOf name o mn ma c) (o, format) where
  opc := fun f hsel => ((rowOf_selects f).mp hsel).1
  mnemonics := fun f ho => (h f).trans (if_congr ((rowOf_selects f).trans (and_iff_right ho)).symm rfl rfl)

theorem mnemonics_guard {p : Prop} [Decidable p] {i : Instr} {why : Illegal} :
    (if p then Decoded.command i else .illegal why).mnemonics = if p then [mnemonicOf i] else [] := by
  split <;> rfl

theorem mnemonics_twoGuards {p q : Prop} [Decidable p] [Decidable q] {i : Instr} {why why' : Illegal} :
    (if ¬p then Decoded.illegal why else if q then .command i else .illegal why').mnemonics =
      if p ∧ q then [mnemonicOf i] else [] := by
  by_cases hp : p
  · rw [if_neg (not_not.mpr hp), mnemonics_guard, if_congr (and_iff_right hp) rfl rfl]
  · rw [if_pos hp, if_neg fun h => hp h.1]
    rfl

theorem rowAgrees_formatZ (o : BitVec 8) (i : Instr) :
    RowAgrees (rowOf (mnemonicOf i) o (.allOnes 5) (.allOnes 16) .none) (o, (formatZ · i)) := by
  refine rowAgrees_of_format fun f => mnemonics_guard.trans (if_congr ?_ rfl rfl)
  simp only [BitVec.and_allOnes, Constraint.holds, and_true]

theorem rowAgrees_formatB :
    RowAgrees (rowOf "WRBIT" 0x03 (.allOnes 5) (BitVec.allOnes 15 ++ 0#1) .none) (0x03, (formatB · .wrbit)) := by
  refine rowAgrees_of_format fun f => mnemonics_guard.trans (if_congr ?_ rfl rfl)
  have harg : f.arg &&& (BitVec.allOnes 15 ++ 0#1) = 0 ↔ f.arg.extractLsb' 1 15 = 0 :=
    and_allOnes_append_eq_zero (m := 15) (k := 1) f.arg
  simp only [BitVec.and_allOnes, harg, Constraint.holds, and_true]

theorem rowAgrees_formatN : RowAgrees (rowOf "RDBITS" 0x02 0 (.allOnes 16) .count) (0x02, (formatN · .rdbits)) := by
  refine rowAgrees_of_format fun f => mnemonics_twoGuards.trans (if_congr ?_ rfl rfl)
  have hn : f.n &&& 0 = 0 := BitVec.and_zero
  simp only [hn, BitVec.and_allOnes, count_holds, true_and, and_assoc]

theorem rowAgrees_formatV : RowAgrees (rowOf "WRBITS" 0x04 0 0 .count) (0x04, (formatV · .wrbits)) := by
  refine rowAgrees_of_format fun f => mnemonics_twoGuards.trans (if_congr ?_ rfl rfl)
  have hn : f.n &&& 0 = 0 := BitVec.and_zero
  have harg : f.arg &&& 0 = 0 := BitVec.and_zero
  simp only [hn, harg, count_holds, true_and]

theorem rowAgrees_formatS :
    RowAgrees (rowOf "ENCSYM" 0x21 (.allOnes 5) (BitVec.allOnes 7 ++ 0#9) .symbol) (0x21, (formatS · .encsym)) := by
  refine rowAgrees_of_format fun f => mnemonics_twoGuards.trans (if_congr ?_ rfl rfl)
  have harg : f.arg &&& (BitVec.allOnes 7 ++ 0#9) = 0 ↔ f.arg.extractLsb' 9 7 = 0 :=
    and_allOnes_append_eq_zero (m := 7) (k := 9) f.arg
  simp only [BitVec.and_allOnes, harg, symbol_holds, and_assoc]

/-- The rows of R94 and the decoder's arms agree one by one. -/
theorem opcodeMap_agrees : List.Forall₂ RowAgrees opcodeMap decoderArms :=
  .cons (rowAgrees_formatZ 0x00 .nop) <| .cons (rowAgrees_formatZ 0x01 .rdbit) <| .cons rowAgrees_formatN <|
  .cons rowAgrees_formatB <| .cons rowAgrees_formatV <| .cons (rowAgrees_formatZ 0x05 .flush) <|
  .cons (rowAgrees_formatZ 0x06 .rdalign) <| .cons (rowAgrees_formatZ 0x10 .tser) <|
  .cons (rowAgrees_formatZ 0x11 .tdes) <| .cons (rowAgrees_formatZ 0x20 .bldtab) <| .cons rowAgrees_formatS <|
  .cons (rowAgrees_formatZ 0x22 .compress) <| .cons (rowAgrees_formatZ 0x30 .dec1) <|
  .cons (rowAgrees_formatZ 0x31 .decompress) <| .cons (rowAgrees_formatZ 0xFF .rst) .nil

/-- Settles O4: the rows and the decoder's arms agree one by one, and the fields of a decoded word give its operands. -/
theorem decodeFollowsOpcodeMap : Obligations.DecodeFollowsOpcodeMap := by
  intro w
  have hrows : ((opcodeMap.filter fun r => r.selects w).map Row.mnemonic) = (decode w).mnemonics := by
    rw [decode, decodeFields_eq_decodeArms, mnemonics_decodeArms opcodeMap_agrees (by decide), packFields_fieldsOf]
  refine ⟨hrows, fun n h => ?rdbits, fun b h => ?wrbit, fun v n h => ?wrbits, fun sym h => ?encsym⟩ <;>
    obtain ⟨_, _, hn, hb, hvn, hs⟩ := decodeFields_command h
  case rdbits => exact hn n rfl
  case wrbit => exact (hb b rfl).trans (by simp [fieldsOf])
  case wrbits => exact hvn v n rfl
  case encsym => exact (hs sym rfl).trans (fieldsOf_arg_symbol w)

end Sys2Proof
end

section
/-! PROOFS. The tree header delimits itself (spec 30_encoding.md R110, R111). -/

namespace Sys2Proof.Machine

theorem bitsOf_injective {n : Nat} {v w : BitVec n} (h : bitsOf n v = bitsOf n w) : v = w := by
  rw [← valueOf_bitsOf v, h, valueOf_bitsOf]

/-- No tree's bits begin with another tree's (R111). -/
theorem CodeTree.enc_append_inj {t t' : CodeTree} {x y : Bits} (h : t.enc ++ x = t'.enc ++ y) : t = t' ∧ x = y := by
  induction t generalizing t' x y with
  | leaf s =>
    cases t' with
    | leaf s' =>
      obtain ⟨hs, hxy⟩ := List.append_inj (List.cons.inj h).2 (by rw [bitsOf_length, bitsOf_length])
      exact ⟨congrArg _ (bitsOf_injective hs), hxy⟩
    | node l' r' => cases h
  | node l r ihl ihr =>
    cases t' with
    | leaf s' => cases h
    | node l' r' =>
      have htail : l.enc ++ (r.enc ++ x) = l'.enc ++ (r'.enc ++ y) := by
        simpa [CodeTree.enc] using h
      obtain ⟨rfl, hr⟩ := ihl htail
      obtain ⟨rfl, hxy⟩ := ihr hr
      exact ⟨rfl, hxy⟩

/-- Settles O27: the tree part delimits itself, and a header is the version, the tree part and the pad. -/
theorem headerSelfDelimiting : Obligations.HeaderSelfDelimiting := by
  refine ⟨fun t t' x y => CodeTree.enc_append_inj, fun t t' h => ?_⟩
  obtain ⟨k, _, hk⟩ := t.hdr_bits
  obtain ⟨k', _, hk'⟩ := t'.hdr_bits
  rw [h, hk'] at hk
  exact (CodeTree.enc_append_inj (List.append_cancel_left hk)).1.symm

end Sys2Proof.Machine
end

section
/-! PROOFS. DECOMPRESS of an artifact: the header is parsed and its tree validated, then the codes are decoded up to the
marker (spec 43_stream_codec.md R199, R200). -/

namespace Sys2Proof.Machine

/-- The check passes where TMEM holds a valid tree in different words (R122, R123). -/
theorem checkTree_valid {m : Memory} {r : NodeIdx} {t : CodeTree} {l : List NodeIdx} (h : Stores m r t l) (hn : l.Nodup)
    (hv : t.valid = true) : checkTree m r = true := by
  obtain ⟨⟨tl, tr, rfl⟩, hle, hdistinct, hmarker⟩ := CodeTree.valid_parts hv
  have hwalk := walk_of_stores h (fuel := Config.nNode) (vis := []) (seen := [])
    (by rw [← h.length]; exact nodeIdx_nodup_length hn) (by simpa using hn) (by simpa using hdistinct) hle
  have hroot : nodeLeaf (Memory.read m r) = false := by
    cases h with
    | node _ _ _ _ _ _ _ hword => rw [hword, nodeLeaf_nodeWord]
  simpa [checkTree, hroot, hwalk] using hmarker

/-- A valid tree fits TMEM (R7, R30). -/
theorem CodeTree.valid_size_le {t : CodeTree} (h : t.valid = true) : t.size ≤ 1024 := by
  obtain ⟨_, _, hsize, _⟩ := validTreeBounds t h
  omega

/-- A tree in pre-order numbering is in different words (R131). -/
theorem HoldsPreorder.checkTree {m : Memory} {t : CodeTree} (h : HoldsPreorder m t) (hv : t.valid = true) :
    Sys2Proof.Machine.checkTree m 0 = true :=
  checkTree_valid h.1 (preorder_nodup (by have := CodeTree.valid_size_le hv; omega)) hv

theorem HoldsPreorder.treeAt {m : Memory} {t : CodeTree} (h : HoldsPreorder m t) (hv : t.valid = true) :
    Sys2Proof.Machine.treeAt m 0 = some t :=
  h.1.treeAt (preorder_nodup (by have := CodeTree.valid_size_le hv; omega))

/-- SIN's cursor has moved over the bytes that are no longer in front of it (R72). -/
theorem sinPos_eq_add_length {s u : State} {a : List Byte} (hd : u.sinData = s.sinData) (hs : s.sinPos ≤ s.sinData.length)
    (hu : u.sinPos ≤ s.sinData.length) (h : sinRest s = a ++ sinRest u) : u.sinPos = s.sinPos + a.length := by
  have hlen := congrArg List.length h
  simp only [sinRest, List.length_drop, List.length_append, hd] at hlen
  omega

/-- On the header of a valid tree, DECOMPRESS comes to its decoder's loop with the tree in TMEM, validated, and the header
taken (R199 steps 1 and 2). -/
theorem decompressBody_header {s : State} {t : CodeTree} {y : List Byte} (hs : AlignedStart s) (hv : t.valid = true)
    (hy : sinRest s = packBytes t.hdr ++ y) :
    ∃ v, decompressBody s = decodePayload (bitsLeft v + 1) v ∧ HoldsPreorder v.tmem t ∧ sinRest v = y ∧ portsOk v ∧
      v.sinPos ≤ s.sinData.length ∧ v = { s with
        tmem := v.tmem, root := 0, tvalid := true, tblv := false, eosseen := false, trunc := false, rbuf := v.rbuf, rcnt := 0,
        sinPos := v.sinPos, portScript := v.portScript } := by
  obtain ⟨_, hle, _, _⟩ := CodeTree.valid_parts hv
  obtain ⟨u, hbody, hpre, hr, hrest, _, hstep⟩ := tdesBody_ok (s := { s with eosseen := false, trunc := false }) hs.ports
    hs.reader (CodeTree.valid_size_le hv) hle hy
  have honly := hstep.only
  have hroot : u.root = 0 := by rw [honly]
  have hcheck : checkTree u.tmem u.root = true := by rw [hroot]; exact hpre.checkTree hv
  have htv : u.tvalid = false := by rw [honly]
  have hvalid : ensureValid u = .ok () { u with tvalid := true } := by simp [ensureValid, htv, hcheck]
  refine ⟨{ u with tvalid := true }, ?_, hpre, hrest, hstep.portsOk hs.ports, hstep.inside hs.sinWf, ?_⟩
  · rw [decompressBody, hbody, andThen_ok, hvalid, andThen_ok]
  · rw [hr] at honly
    rw [honly]

/-- The decoder's loop on the codes of an input and of the marker: it pushes the input, sets EOSSEEN and drops the bits up to
the byte boundary (R199, R200). -/
theorem decodePayload_input {s : State} {t : CodeTree} {input : List Byte} {p rest : Bits} (hp : portsOk s)
    (ht : treeAt s.tmem s.root = some t) (hv : t.valid = true) (hc : t.codes (input.map symOfByte ++ [Config.eos]) = some p)
    (hu : unreadBits s = p ++ rest) :
    ∃ u, decodePayload (bitsLeft s + 1) s = .ok () u ∧ u.rcnt = 0 ∧ unreadBits u = rest.drop (rest.length % 8) ∧
      u.sout = s.sout ++ input ∧ u.eosseen = true ∧ u.trunc = s.trunc ∧ DecoderStep s u := by
  obtain ⟨⟨l, r, rfl⟩, _⟩ := CodeTree.valid_parts hv
  have hfuel : bitsLeft s + 1 = (bitsLeft s - input.length + 1) + input.length := by
    have hlen := CodeTree.codes_length _ _ hc
    rw [← unreadBits_length, hu]
    simp at hlen ⊢
    omega
  obtain ⟨q, m, hq, hm, rfl⟩ := CodeTree.codes_marker hc
  obtain ⟨v, hrun, huv, hsout, _, htrunc, hstep⟩ := decodePayload_bytes (fuel := bitsLeft s - input.length + 1) input hp ht hq
    (hu.trans (List.append_assoc q m rest))
  have htv : treeAt v.tmem v.root = some (.node l r) := by rw [hstep.only]; exact ht
  obtain ⟨u, hend, hr, huu, hsout', heos, htrunc', hstep'⟩ := decodePayload_marker (hstep.portsOk hp) htv hm huv
  exact ⟨u, by rw [hfuel, hrun, hend], hr, huu, hsout'.trans hsout, heos, htrunc'.trans htrunc, hstep.trans hstep'⟩

/-- Settles O44: the header leaves the decoder's loop its tree and the payload, and the loop pushes the input and drops the
pad. -/
theorem decompressReadsArtifact : Obligations.DecompressReadsArtifact := by
  rintro s t input _ x hs hv ⟨payload, p, pad, rfl, hcodes, hpayload, hpad⟩ hsin
  obtain ⟨v, hbody, hpre, hrest, hports, hinside, hframe⟩ := decompressBody_header hs hv (hsin.trans (List.append_assoc ..))
  have hbits : unreadBits v = p ++ (pad ++ bitsOfBytes x) := by
    rw [unreadBits_aligned (by rw [hframe]), hrest, bitsOfBytes_append, hpayload, List.append_assoc]
  have htree : treeAt v.tmem v.root = some t := by rw [hframe]; exact hpre.treeAt hv
  obtain ⟨u, hrun, hr, hunread, hsout, heos, htrunc, hstep⟩ := decodePayload_input hports htree hv hcodes hbits
  have hdrop : (pad ++ bitsOfBytes x).drop ((pad ++ bitsOfBytes x).length % 8) = bitsOfBytes x := by
    rw [List.length_append, bitsOfBytes_length, Nat.add_mul_mod_self_left, Nat.mod_eq_of_lt hpad, List.drop_left]
  have hx : sinRest u = x := sinRest_of_unreadBits hr (hunread.trans hdrop)
  have honly := hstep.only
  have hdata : v.sinData = s.sinData := by rw [hframe]
  have hdata' : u.sinData = s.sinData := by rw [honly]; exact hdata
  have hpos := sinPos_eq_add_length hdata' hs.sinWf (hdata ▸ hstep.inside (hdata ▸ hinside)) (by rw [hx]; exact hsin)
  have hsout' : u.sout = s.sout ++ input := by rw [hsout, hframe]
  have htrunc' : u.trunc = false := by rw [htrunc, hframe]
  have htmem : u.tmem = v.tmem := by rw [honly]
  refine ⟨u, command_ok hs.noFault ?_, htmem ▸ hpre, ?_⟩
  · rw [requireElse, if_pos ⟨hs.writer, hs.reader⟩, hbody, hrun]
  · rw [heos, htrunc', hsout', hr, hpos, hframe] at honly
    rw [htmem]
    exact honly

end Sys2Proof.Machine
end

section
/-! PROOFS. A command seen by whether it leaves ERR as it was: its frame without an error and its frame on one
(spec 60_exceptions.md R280, R282). -/

namespace Sys2Proof.Machine

variable {α : Type}

theorem Run.Ends.of_raise {r : Run α} {P : State → Prop} {k : ErrKind} {t : State} (h : r.Ends P) (hr : r = .raise k t) :
    P t := by
  rw [hr] at h; exact h

theorem requireElse_pos {c : Prop} [Decidable c] {k : ErrKind} {f : State → Run Unit} {s : State} (h : c) :
    requireElse c k f s = f s := if_pos h

/-- With the writer aligned fault entry writes ERR and nothing else (R280). -/
theorem faultEntry_aligned (k : ErrKind) {s : State} (h : s.wcnt = 0) : faultEntry k s = { s with err := k.code } := by
  rw [faultEntry, if_neg (not_not.mpr h)]

/-- A command keeps ERR where it is ignored or its body ends normally, and then leaves what its body leaves; it changes ERR
where its body raises, and then leaves what fault entry makes of that. -/
theorem command_frame {body : State → Run Unit} {P : State → Prop} {s t : State} (hb : (body s).Ends P) (hs : P s)
    (herr : ∀ u, P u → u.err = s.err) (h : command body s = .next t) :
    (t.err = s.err → P t) ∧ (t.err ≠ s.err → ∃ k u, body s = .raise k u ∧ P u ∧ t = faultEntry k u) := by
  rcases command_next h with ⟨_, rfl⟩ | ⟨h0, hrun | ⟨k, u, hrun, rfl⟩⟩
  · exact ⟨fun _ => hs, fun hne => absurd rfl hne⟩
  · have ht := hb.of_ok hrun
    exact ⟨fun _ => ht, fun hne => absurd (herr t ht) hne⟩
  · have hne : (faultEntry k u).err ≠ s.err := by rw [faultEntry_err, h0]; exact k.code_ne_zero
    exact ⟨fun he => absurd he hne, fun _ => ⟨k, u, hrun, hb.of_raise hrun, rfl⟩⟩

end Sys2Proof.Machine
end

section
/-! PROOFS. The validity check, TSER and TDES where no access fails, and the round trip of the two (spec 40_tree.md R122 to
R124, R130 to R133). -/

namespace Sys2Proof.Machine

/-! ### The check -/

/-- Settles O25: the walk finds the words of a tree, and the tree's words pass the walk. -/
theorem checkDecidesValidTree : Obligations.CheckDecidesValidTree := by
  refine fun m r => ⟨checkTree_stores, ?_⟩
  rintro ⟨t, visited, hstores, hnodup, hvalid⟩
  exact checkTree_valid hstores hnodup hvalid

theorem HoldsTree.checkTree {s : State} {t : CodeTree} (h : HoldsTree s t) :
    Sys2Proof.Machine.checkTree s.tmem s.root = true :=
  (checkDecidesValidTree _ _).mpr ⟨t, h⟩

theorem HoldsTree.treeAt {s : State} {t : CodeTree} (h : HoldsTree s t) :
    Sys2Proof.Machine.treeAt s.tmem s.root = some t := by
  obtain ⟨_, hstores, hnodup, _⟩ := h
  exact hstores.treeAt hnodup

theorem HoldsTree.valid {s : State} {t : CodeTree} (h : HoldsTree s t) : t.valid = true := by
  obtain ⟨_, _, _, hvalid⟩ := h
  exact hvalid

theorem HoldsPreorder.holdsTree {s : State} {t : CodeTree} (h : HoldsPreorder s.tmem t) (hroot : s.root = 0)
    (hv : t.valid = true) : HoldsTree s t :=
  ⟨preorder 0 t.size, hroot ▸ h.1, preorder_nodup (by have := CodeTree.valid_size_le hv; omega), hv⟩

theorem ensureValid_ok {s : State} (h : checkTree s.tmem s.root = true) : ensureValid s = .ok () { s with tvalid := true } := by
  rcases ensureValid_cases s with ⟨hv, e⟩ | ⟨_, _, e⟩ | ⟨_, hc, _⟩
  · rw [e, ← hv]
  · exact e
  · rw [h] at hc; cases hc

theorem ensureValid_raise {s : State} (hv : s.tvalid = false) (h : checkTree s.tmem s.root = false) :
    ensureValid s = .raise .invalidTree s := by
  simp [ensureValid, hv, h]

/-! ### TSER -/

/-- Settles O28: the tree passes the check, and the serializer writes its header. -/
theorem tserWritesHeader : Obligations.TserWritesHeader := by
  intro s t h0 hw hc hp htree
  obtain ⟨u, hbody, hstep, hwacc, hwcnt, hsout⟩ := tserBody_ok (s := { s with tvalid := true }) htree.treeAt hp hc hw
  refine ⟨u, command_ok h0 ?_, ?_⟩
  · rw [requireElse_pos hw, ensureValid_ok htree.checkTree, andThen_ok, hbody]
  · rw [hstep.only, hwacc, hwcnt, hsout]

/-! ### TDES -/

/-- The bytes begin with the header of a tree that fits TMEM and whose symbols are of the alphabet (R110, R133). -/
def BeginsWithHeader (bs : List Byte) : Prop :=
  ∃ (t : CodeTree) (x : List Byte), t.size ≤ 1024 ∧ (∀ sym ∈ t.symbols, sym ≤ Config.eos) ∧ bs = packBytes t.hdr ++ x

/-- On a header `tdes_body()` ends normally, with the tree in TMEM and the header taken (R131). -/
theorem tdesBody_header {s : State} {t : CodeTree} {x : List Byte} (hp : portsOk s) (hr : s.rcnt = 0) (hz : t.size ≤ 1024)
    (he : ∀ sym ∈ t.symbols, sym ≤ Config.eos) (hx : sinRest s = packBytes t.hdr ++ x) :
    ∃ u, tdesBody s = .ok () u ∧ HoldsPreorder u.tmem t ∧ sinRest u = x ∧ portsOk u ∧ u = { s with
      tvalid := false, tblv := false, root := 0, tmem := u.tmem, rbuf := u.rbuf, rcnt := 0,
      sinPos := s.sinPos + (packBytes t.hdr).length, portScript := u.portScript } := by
  obtain ⟨u, hbody, hpre, hru, hrest, hpos, hstep⟩ := tdesBody_ok hp hr hz he hx
  refine ⟨u, hbody, hpre, hrest, hstep.portsOk hp, ?_⟩
  rw [← hpos, ← hru]
  exact hstep.only

/-- What TDES can write itself (R131). -/
def TdesOnly (s t : State) : Prop :=
  t = { s with
    tmem := t.tmem, root := t.root, tvalid := t.tvalid, tblv := t.tblv, rbuf := t.rbuf, rcnt := t.rcnt, sinPos := t.sinPos,
    portScript := t.portScript }

theorem TdesOnly.refl (s : State) : TdesOnly s s := rfl

theorem TdesOnly.err {s t : State} (h : TdesOnly s t) : t.err = s.err := by rw [h]

theorem tdesBody_only (s : State) : (tdesBody s).Ends (TdesOnly s) :=
  (tdesBody_ends s).mono fun t h => by rw [TdesOnly, h.only]

theorem execTdes_only (s : State) : (requireElse (s.rcnt = 0) .sequenceError tdesBody s).Ends (TdesOnly s) :=
  requireElse_ends (.refl s) (tdesBody_only s)

/-- Where `tdes_body()` raises it leaves no tree (R131). -/
theorem tdesBody_raise_frame {s u : State} {k : ErrKind} (h : tdesBody s = .raise k u) : u = { s with
    tmem := [], root := 0, tvalid := false, tblv := false, rbuf := u.rbuf, rcnt := u.rcnt, sinPos := u.sinPos,
    portScript := u.portScript } := by
  have hstep := (tdesBody_ends s).of_raise h
  rw [← tdesBody_raise h]
  exact hstep.only

/-- Where no access fails, `tdes_body()` finds every input corrupt that begins with no header (R133). -/
theorem tdesBody_noHeader {s : State} (hp : portsOk s) (hr : s.rcnt = 0) (h : ¬BeginsWithHeader (sinRest s)) :
    ∃ u, tdesBody s = .raise .corruptHeader u := by
  have hraises := tdesBody_raises hp
  have hruns := tdesBody_runs s
  cases hrun : tdesBody s with
  | ok a u => exact absurd (tdesBody_inv hr hrun) h
  | raise k u =>
    rw [hrun] at hraises
    obtain rfl : k = .corruptHeader := hraises
    exact ⟨u, rfl⟩
  | stuck w => rw [hrun] at hruns; exact hruns.elim

/-- Settles O29: what `tdes_body()` does on a header. -/
theorem tdesParsesHeader : Obligations.TdesParsesHeader := by
  intro s t x h0 hr hp hz he hx
  obtain ⟨u, hbody, hpre, _, _, hframe⟩ := tdesBody_header hp hr hz he hx
  exact ⟨u, command_ok h0 ((requireElse_pos hr).trans hbody), hpre, hframe⟩

/-- Settles O30: a header is parsed, and every other input raises `CorruptHeader`. -/
theorem tdesAcceptsExactlyHeaders : Obligations.TdesAcceptsExactlyHeaders := by
  intro s h0 hr hp
  by_cases hheader : BeginsWithHeader (sinRest s)
  · obtain ⟨t, x, hz, he, hx⟩ := hheader
    obtain ⟨u, hrun, _, hframe⟩ := tdesParsesHeader s t x h0 hr hp hz he hx
    have herr : u.err = 0 := by rw [hframe]; exact h0
    exact ⟨u, hrun, .inl herr, iff_of_true herr ⟨t, x, hz, he, hx⟩⟩
  · obtain ⟨u, hbody⟩ := tdesBody_noHeader hp hr hheader
    have herr : (faultEntry .corruptHeader u).err = 1 := faultEntry_err _ _
    refine ⟨_, command_raise h0 ((requireElse_pos hr).trans hbody), .inr herr, iff_of_false ?_ hheader⟩
    rw [herr]; decide

/-- Settles O31: an error comes from a raise inside the body, which clears TMEM. -/
theorem tdesFailureClearsTree : Obligations.TdesFailureClearsTree := by
  intro s t h0 hr h hne
  obtain ⟨k, u, hraise, _, rfl⟩ := (command_frame (execTdes_only s) (.refl s) (fun _ hu => hu.err) h).2 (h0 ▸ hne)
  rw [requireElse_pos hr] at hraise
  have hframe := tdesBody_raise_frame hraise
  refine ⟨?_, ?_, fun hw => ?_⟩
  · rw [(faultEntry_step k u).only, hframe]
  · rw [(faultEntry_step k u).only, hframe]
  · have hwu : u.wcnt = 0 := by rw [hframe]; exact hw
    rw [faultEntry_aligned k hwu, hframe]
    exact ⟨rfl, rfl⟩

/-! ### TSER and TDES -/

/-- Settles O32: TDES holds the tree again, so TSER writes the same header again. -/
theorem treeRoundTrip : Obligations.TreeRoundTrip := by
  intro s t h0 hw hc hp htree
  obtain ⟨u, hrun, hu⟩ := tserWritesHeader s t h0 hw hc hp htree
  refine ⟨u, packBytes t.hdr, hrun, by rw [hu], fun s' x h0' hr' hp' hx => ?_⟩
  obtain ⟨_, hle, _, _⟩ := CodeTree.valid_parts htree.valid
  obtain ⟨u', hbody, hpre, hrest, hports, hframe⟩ := tdesBody_header hp' hr' (CodeTree.valid_size_le htree.valid) hle hx
  have herr : u'.err = 0 := by rw [hframe]; exact h0'
  have hroot : u'.root = 0 := by rw [hframe]
  have htree' : HoldsTree u' t := hpre.holdsTree hroot htree.valid
  refine ⟨u', command_ok h0' ((requireElse_pos hr').trans hbody), herr, hrest, hroot, hpre, htree', fun hw' hc' => ?_⟩
  have hwu : u'.wcnt = 0 := by rw [hframe]; exact hw'
  have hcu : writerClean u' := by rw [hframe]; exact hc'
  obtain ⟨v, hrun', hv⟩ := tserWritesHeader u' t herr hwu hcu hports htree'
  exact ⟨v, hrun', by rw [hv, hframe]⟩

/-! ### The commands on an invalid tree -/

/-- Where DECOMPRESS parses the header of an invalid tree it raises `InvalidTree` with the tree in TMEM (R199, R272). -/
theorem decompressBody_invalidTree {s : State} {t : CodeTree} {x : List Byte} (hp : portsOk s) (hr : s.rcnt = 0)
    (hz : t.size ≤ 1024) (he : ∀ sym ∈ t.symbols, sym ≤ Config.eos) (hv : t.valid = false)
    (hx : sinRest s = packBytes t.hdr ++ x) :
    ∃ u, decompressBody s = .raise .invalidTree u ∧ HoldsPreorder u.tmem t ∧ u = { s with
      tvalid := false, tblv := false, eosseen := false, trunc := false, root := 0, tmem := u.tmem, rbuf := u.rbuf, rcnt := 0,
      sinPos := s.sinPos + (packBytes t.hdr).length, portScript := u.portScript } := by
  obtain ⟨u, hbody, hpre, _, _, hframe⟩ := tdesBody_header (s := { s with eosseen := false, trunc := false }) hp hr hz he hx
  have htv : u.tvalid = false := by rw [hframe]
  have hroot : u.root = 0 := by rw [hframe]
  have hcheck : checkTree u.tmem u.root = false :=
    checkTree_invalid (hroot ▸ hpre.1) (preorder_nodup (by omega)) hv
  refine ⟨u, ?_, hpre, hframe⟩
  rw [decompressBody, hbody, andThen_ok, ensureValid_raise htv hcheck, andThen_raise]

theorem exec_bldtab (s : State) :
    exec .bldtab s = command (fun s => (ensureValid s).andThen fun _ t => bldtabBody t) s := rfl

/-- Settles O34: `ensure_valid()` raises before the commands do anything else, in DECOMPRESS after the header; on no header
the parse raises. -/
theorem invalidTreeRaised : Obligations.InvalidTreeRaised := by
  refine fun s h0 => ⟨fun htv hroot => ?_, fun hw hr hp => ⟨fun t x hz he hv hx => ?_, fun hheader => ?_⟩⟩
  · have hcheck : checkTree s.tmem s.root = false := by
      rwa [← Bool.not_eq_true, checkDecidesValidTree]
    have hraise := ensureValid_raise htv hcheck
    refine ⟨(exec_bldtab s).trans (command_raise h0 ?bldtab), (exec_dec1 s).trans (command_raise h0 ?dec1),
      fun hw => command_raise h0 ?tser, fun hw hr => command_raise h0 ?compress⟩
    case bldtab => rw [hraise, andThen_raise]
    case dec1 => rw [hraise, andThen_raise, andThen_raise]
    case tser => rw [requireElse_pos hw, hraise, andThen_raise]
    case compress => rw [requireElse_pos ⟨hw, hr⟩, compressBody, hraise, andThen_raise, onLeave_raise]
  · obtain ⟨u, hbody, hpre, hframe⟩ := decompressBody_invalidTree hp hr hz he hv hx
    have hwu : u.wcnt = 0 := by rw [hframe]; exact hw
    refine ⟨_, command_raise h0 ((requireElse_pos ⟨hw, hr⟩).trans hbody), ?_⟩
    rw [faultEntry_aligned _ hwu]
    exact ⟨hpre, by rw [hframe]; rfl⟩
  · obtain ⟨u, hbody⟩ := tdesBody_noHeader (s := { s with eosseen := false, trunc := false }) hp hr hheader
    have hframe := tdesBody_raise_frame hbody
    have hwu : u.wcnt = 0 := by rw [hframe]; exact hw
    refine ⟨_, command_raise h0 (k := .corruptHeader) (t := u) ?_, ?_⟩
    · rw [requireElse_pos ⟨hw, hr⟩, decompressBody, hbody, andThen_raise]
    · rw [faultEntry_aligned _ hwu, hframe]
      rfl

end Sys2Proof.Machine
end

section
/-! PROOFS. What TSER, BLDTAB, TDES, COMPRESS and DECOMPRESS leave unchanged on every path (spec 40_tree.md R130, R131;
41_table_builder.md R152; 43_stream_codec.md R196, R199). -/

namespace Sys2Proof.Machine

/-! ### TSER and BLDTAB -/

theorem execTser_writerOnly (s : State) :
    (requireElse (s.wcnt = 0) .sequenceError (fun s => (ensureValid s).andThen fun _ t => tserBody t) s).Ends
      fun u => WriterOnly { s with tvalid := u.tvalid } u := by
  refine requireElse_ends rfl ((ensureValid_ends s).andThen (fun t ht => ?raise) fun _ t ht =>
    (tserBody_ends t).mono fun u hu => ?ok)
  case raise => rw [WriterOnly, ht]
  case ok => rw [WriterOnly, hu.only, ht]

/-- What BLDTAB can write itself (R152). -/
def BldtabOnly (s t : State) : Prop := t = { s with tvalid := t.tvalid, tblv := t.tblv, etab := t.etab }

theorem BldtabOnly.refl (s : State) : BldtabOnly s s := rfl

theorem BldtabOnly.err {s t : State} (h : BldtabOnly s t) : t.err = s.err := by rw [h]

theorem bldtabBody_only (s : State) : (bldtabBody s).Ends (BldtabOnly s) := by
  cases h : treeAt s.tmem s.root with
  | none => rw [bldtabBody, withTree, h]; trivial
  | some tree => rw [bldtabBody_eq h]; exact rfl

theorem execBldtab_only (s : State) : ((ensureValid s).andThen fun _ t => bldtabBody t).Ends (BldtabOnly s) :=
  (ensureValid_ends s).andThen (fun t ht => by rw [BldtabOnly, ht]) fun _ t ht =>
    (bldtabBody_only t).mono fun u hu => by rw [BldtabOnly, hu, ht]

/-- The table build raises nothing itself, so that BLDTAB raises only before it has written anything (R124, R152). -/
theorem execBldtab_raise {s u : State} {k : ErrKind} (h : ((ensureValid s).andThen fun _ t => bldtabBody t) = .raise k u) :
    u = s := by
  have hbuild : ∀ t, bldtabBody t ≠ .raise k u := fun t ht => by
    have hkinds := bldtabBody_raises t
    rw [ht] at hkinds
    exact List.not_mem_nil hkinds
  rcases ensureValid_cases s with ⟨_, e⟩ | ⟨_, _, e⟩ | ⟨_, _, e⟩ <;> rw [e] at h
  · exact absurd h (hbuild _)
  · exact absurd h (hbuild _)
  · cases h; rfl

/-- Settles O52: what the body writes, and what fault entry adds to it, which after BLDTAB's raise is all. -/
theorem tserBldtabFrame : Obligations.TserBldtabFrame := by
  refine fun s t => ⟨fun h => ?tser, fun h => ?bldtab⟩
  case tser =>
    rcases command_ends (execTser_writerOnly s) h with rfl | ⟨_, ht⟩ | ⟨_, k, u, hu, rfl⟩
    · rfl
    · rw [ht]
    · rw [(faultEntry_step k u).only, hu]
  case bldtab =>
    rw [exec_bldtab] at h
    obtain ⟨hok, hfault⟩ := command_frame (execBldtab_only s) (.refl s) (fun _ hu => hu.err) h
    refine ⟨hok, fun hne => ?_⟩
    obtain ⟨k, u, hraise, _, rfl⟩ := hfault hne
    rw [(faultEntry_step k u).only, execBldtab_raise hraise]

/-! ### TDES, COMPRESS and DECOMPRESS -/

theorem execCompress_step (s : State) :
    (requireElse (s.wcnt = 0 ∧ s.rcnt = 0) .sequenceError (fun s =>
      (compressBody s).onLeave fun t => { t with tblv := false }) s).Ends (CompressStep s) :=
  requireElse_ends (compressStep_of_table rfl) ((compressBody_ends s).onLeave fun _ h => h.trans (compressStep_of_table rfl))

theorem DecompressStep.refl (s : State) : DecompressStep s s := (ParserStep.refl s).decompress

theorem execDecompress_step (s : State) :
    (requireElse (s.wcnt = 0 ∧ s.rcnt = 0) .sequenceError decompressBody s).Ends (DecompressStep s) :=
  requireElse_ends (.refl s) (decompressBody_ends s)

/-- Settles O53: what the body writes on every path, and what fault entry adds to it. -/
theorem compositeCommandsFrame : Obligations.CompositeCommandsFrame := by
  refine fun s t => ⟨fun h => ?tdes, fun h => ?compress, fun h => ?decompress⟩
  case tdes =>
    obtain ⟨hok, hfault⟩ := command_frame (execTdes_only s) (.refl s) (fun _ hu => hu.err) h
    refine ⟨hok, fun hne => ?_⟩
    obtain ⟨k, u, _, hu, rfl⟩ := hfault hne
    rw [(faultEntry_step k u).only, hu]
  case compress =>
    rcases command_ends (execCompress_step s) h with rfl | ⟨_, ht⟩ | ⟨_, k, u, hu, rfl⟩
    · rfl
    · rw [ht.only]
    · rw [(faultEntry_step k u).only, hu.only]
  case decompress =>
    obtain ⟨hok, hfault⟩ := command_frame (execDecompress_step s) (.refl s) (fun _ hu => by rw [hu.only]) h
    refine ⟨fun he => (hok he).only, fun hne => ?_⟩
    obtain ⟨k, u, _, hu, rfl⟩ := hfault hne
    rw [(faultEntry_step k u).only, hu.only]

end Sys2Proof.Machine
end

section
/-! PROOFS. The table that BLDTAB leaves, and its codes (spec 41_table_builder.md R151 to R154). -/

namespace Sys2Proof.Machine

/-! ### BLDTAB where it ends without error -/

/-- A command that starts and ends with ERR at 0 has run its body to the normal end (R280, R282). -/
theorem command_eq_ok {body : State → Run Unit} {s u : State} (h0 : s.err = 0) (h : command body s = .next u)
    (hu : u.err = 0) : body s = .ok () u := by
  rcases command_next h with ⟨he, _⟩ | ⟨_, hok | ⟨k, v, _, rfl⟩⟩
  · exact absurd h0 he
  · exact hok
  · rw [faultEntry_err] at hu
    exact absurd hu k.code_ne_zero

/-- The state BLDTAB leaves when the tree at ROOT is `t` (R151, R152). -/
def withTable (t : CodeTree) (s : State) : State := { s with tvalid := true, tblv := true, etab := tableOf t }

theorem exec_bldtab_ok {s : State} {t : CodeTree} (h0 : s.err = 0) (hv : ensureValid s = .ok () { s with tvalid := true })
    (ht : treeAt s.tmem s.root = some t) : exec .bldtab s = .next (withTable t s) := by
  have hbody : bldtabBody { s with tvalid := true } = .ok () (withTable t s) := bldtabBody_eq ht
  rw [exec_bldtab]
  exact command_ok h0 (by rw [hv, andThen_ok, hbody])

theorem bldtabBody_eq_ok {s u : State} (h : bldtabBody s = .ok () u) :
    ∃ t, treeAt s.tmem s.root = some t ∧ u = { s with etab := tableOf t, tblv := true } := by
  cases ht : treeAt s.tmem s.root with
  | none =>
    rw [bldtabBody, withTree, ht] at h
    cases h
  | some t =>
    rw [bldtabBody_eq ht] at h
    cases h
    exact ⟨t, rfl, rfl⟩

/-- Where BLDTAB ends without error it has found a tree at ROOT and left its table (R151, R152). -/
theorem exec_bldtab_inv {s u : State} (h0 : s.err = 0) (h : exec .bldtab s = .next u) (hu : u.err = 0) :
    ∃ t, treeAt s.tmem s.root = some t ∧ u = withTable t s := by
  rw [exec_bldtab] at h
  obtain ⟨_, _, hvalid, hbody⟩ := andThen_eq_ok (command_eq_ok h0 h hu)
  obtain ⟨rfl, _⟩ := ensureValid_eq_ok hvalid
  obtain ⟨t, ht, rfl⟩ := bldtabBody_eq_ok hbody
  exact ⟨t, ht, rfl⟩

/-- Settles O35: the tree passes the check, and the build gives each of its symbols the code. -/
theorem bldtabBuildsTable : Obligations.BldtabBuildsTable := by
  intro s t h0 htree
  obtain ⟨_, _, hdistinct, _⟩ := CodeTree.valid_parts htree.valid
  exact ⟨withTable t s, exec_bldtab_ok h0 (ensureValid_ok htree.checkTree) htree.treeAt, rfl, find_tableOf hdistinct⟩

/-- Settles O36: the table depends on the tree alone, which is read from TMEM and ROOT, and BLDTAB writes neither. -/
theorem bldtabIdempotent : Obligations.BldtabIdempotent := by
  intro s u h0 h hu
  obtain ⟨t, ht, rfl⟩ := exec_bldtab_inv h0 h hu
  refine ⟨exec_bldtab_ok (s := withTable t s) hu rfl ht, fun s' u' h0' hm hr h' hu' => ?_⟩
  obtain ⟨t', ht', rfl⟩ := exec_bldtab_inv h0' h' hu'
  rw [hm, hr, ht] at ht'
  cases ht'
  rfl

/-! ### One code at the front of another -/

/-- The one symbol that a Leaf codes (R150). -/
theorem CodeTree.code_leaf {s x : Sym} {p : Bits} (h : (CodeTree.leaf s).code x = some p) : x = s :=
  List.mem_singleton.mp ((code_isSome (.leaf s) x).mp (by rw [h]; rfl))

/-- A path that begins with the whole path to a Leaf ends at that Leaf: down to it both take the same turns, and a Leaf has
no children (R154). -/
theorem CodeTree.eq_of_code_prefix {t : CodeTree} {x y : Sym} {p q : Bits} (hx : t.code x = some p) (hy : t.code y = some q)
    (h : p <+: q) : x = y := by
  induction t generalizing p q with
  | leaf s =>
    rw [code_leaf hx, code_leaf hy]
  | node l r ihl ihr =>
    rcases code_node hx with ⟨p, hp, rfl⟩ | ⟨_, p, hp, rfl⟩ <;> rcases code_node hy with ⟨q, hq, rfl⟩ | ⟨_, q, hq, rfl⟩ <;>
      obtain ⟨hbit, h⟩ := List.cons_prefix_cons.mp h
    · exact ihl hp hq h
    · cases hbit
    · cases hbit
    · exact ihr hp hq h

/-- Settles O37: one code at the front of another would be the code of the same Leaf. -/
theorem codesPrefixFree : Obligations.CodesPrefixFree := by
  intro t x y p q _ hx hy hne
  exact ⟨fun h => hne (CodeTree.eq_of_code_prefix hx hy h), fun h => hne (CodeTree.eq_of_code_prefix hy hx h).symm⟩

end Sys2Proof.Machine
end

section
/-! PROOFS. DEC1 where a code comes next, where the bits end first, and its frame (spec 42_decode_automaton.md R171 to
R175). -/

namespace Sys2Proof.Machine

variable {α β : Type}

/-! ### DEC1 on a valid tree -/

/-- On a valid tree DEC1 runs the automaton with TVALID set (R124, R172). -/
theorem ensureValid_decodeOne {s : State} {t : CodeTree} (htree : HoldsTree s t) :
    ((ensureValid s).andThen fun _ u => decodeOne u) = decodeOne { s with tvalid := true } := by
  rw [ensureValid_ok htree.checkTree, andThen_ok]

theorem exec_dec1_ok {s u : State} {t : CodeTree} {x : Sym} (h0 : s.err = 0) (htree : HoldsTree s t)
    (h : decodeOne { s with tvalid := true } = .ok x u) : exec .dec1 s = .next { u with result := x.setWidth 32 } := by
  rw [exec_dec1]
  exact command_ok h0 (by rw [ensureValid_decodeOne htree, h, andThen_ok])

theorem exec_dec1_raise {s u : State} {t : CodeTree} {k : ErrKind} (h0 : s.err = 0) (htree : HoldsTree s t)
    (h : decodeOne { s with tvalid := true } = .raise k u) : exec .dec1 s = .next (faultEntry k u) := by
  rw [exec_dec1]
  exact command_raise h0 (by rw [ensureValid_decodeOne htree, h, andThen_raise])

/-- Settles O39: the tree passes the check, and the automaton follows the code down to its Leaf. -/
theorem dec1ReturnsSymbol : Obligations.Dec1ReturnsSymbol := by
  intro s t x p rest h0 hp htree hcode hbits
  obtain ⟨⟨l, r, rfl⟩, _⟩ := CodeTree.valid_parts htree.valid
  obtain ⟨u, hrun, hrest, hstep⟩ := decodeOne_ok (s := { s with tvalid := true }) hp htree.treeAt hcode hbits
  refine ⟨{ u with result := x.setWidth 32 }, exec_dec1_ok h0 htree hrun, rfl, hrest, ?_⟩
  rw [hstep.only]

/-! ### The bits end before a Leaf -/

/-- Where no code is complete before the bits run out, `decode_one()` takes them all and raises `TruncatedStream` (R175). -/
theorem decodeOne_exhausted {s : State} {t : CodeTree} (hp : portsOk s) (ht : treeAt s.tmem s.root = some t)
    (hn : t.symbols.Nodup) (hc : ∀ x p, t.code x = some p → ¬ p <+: unreadBits s) :
    ∃ u, decodeOne s = .raise .truncatedStream u ∧ unreadBits u = [] ∧ ReaderStep s u :=
  decodeFrom_exhausted t hp ht hn hc (by rw [unreadBits_length]; exact Nat.lt_succ_self _)

theorem faultEntry_unreadBits (k : ErrKind) (s : State) : unreadBits (faultEntry k s) = unreadBits s := by
  rw [(faultEntry_step k s).only]; rfl

/-- Settles O40: the tree passes the check, the automaton takes every bit, and fault entry keeps the reader and RESULT. -/
theorem dec1TruncatedStream : Obligations.Dec1TruncatedStream := by
  intro s t h0 hp htree hcode
  obtain ⟨_, _, hdistinct, _⟩ := CodeTree.valid_parts htree.valid
  obtain ⟨u, hrun, hbits, hstep⟩ := decodeOne_exhausted (s := { s with tvalid := true }) hp htree.treeAt hdistinct hcode
  refine ⟨_, exec_dec1_raise h0 htree hrun, faultEntry_err _ u, ?_, (faultEntry_unreadBits _ u).trans hbits, ?_⟩
  · rw [(faultEntry_step _ u).only, hstep.only]
  · rw [(faultEntry_step _ u).only, hstep.only]

/-! ### The frame -/

/-- A raise out of a run whose end does no more than rewrite value and state comes from the run itself. -/
theorem eq_raise_of_andThen_ok {r : Run α} {f : α → State → β} {g : α → State → State} {k : ErrKind} {u : State}
    (h : (r.andThen fun a t => .ok (f a t) (g a t)) = .raise k u) : r = .raise k u := by
  cases r with
  | ok a t => cases h
  | raise j t => cases h; rfl
  | stuck w => cases h

/-- What DEC1 writes before RESULT (R171, R172). -/
theorem dec1Run_readerOnly (s : State) :
    ((ensureValid s).andThen fun _ t => decodeOne t).Ends fun u => ReaderOnly { s with tvalid := u.tvalid } u := by
  refine (ensureValid_ends s).andThen (fun t ht => ?raise) fun _ t ht => (decodeOne_ends t).mono fun u hu => ?ok
  case raise => rw [ReaderOnly, ht]
  case ok => rw [ReaderOnly, hu.only, ht]

/-- What DEC1 can write itself (R172). -/
def Dec1Only (s t : State) : Prop := ReaderOnly { s with tvalid := t.tvalid, result := t.result } t

theorem Dec1Only.refl (s : State) : Dec1Only s s := rfl

theorem Dec1Only.err {s t : State} (h : Dec1Only s t) : t.err = s.err := by rw [h]

theorem execDec1_only (s : State) :
    (((ensureValid s).andThen fun _ t => decodeOne t).andThen fun x u =>
      .ok () { u with result := x.setWidth 32 }).Ends (Dec1Only s) :=
  (dec1Run_readerOnly s).andThen (fun u hu => by rw [Dec1Only, ReaderOnly, hu]) fun x u hu => by
    rw [Run.Ends, Dec1Only, ReaderOnly, hu]

/-- Settles O50: DEC1 writes RESULT last, so that a raise leaves it, and fault entry writes ERR, the writer and SOUT. -/
theorem dec1Frame : Obligations.Dec1Frame := by
  intro s t h
  rw [exec_dec1] at h
  obtain ⟨hok, hfault⟩ := command_frame (execDec1_only s) (.refl s) (fun _ hu => hu.err) h
  refine ⟨hok, fun hne => ?_⟩
  obtain ⟨k, u, hraise, _, rfl⟩ := hfault hne
  have hu := (dec1Run_readerOnly s).of_raise (eq_raise_of_andThen_ok hraise)
  rw [(faultEntry_step k u).only, hu]

end Sys2Proof.Machine
end

section
/-! PROOFS. ENCSYM and COMPRESS where no access fails, and the frame of the commands that write bits (spec 43_stream_codec.md
R191, R192, R196; 44_bitstream.md R232 to R234). -/

namespace Sys2Proof.Machine

/-! ### WRBIT, WRBITS, FLUSH and ENCSYM -/

/-- A command whose body moves the writer only: fault entry adds nothing to its frame but ERR (R280). -/
theorem command_writerFrame {body : State → Run Unit} {s t : State} (hb : (body s).Ends (WriterStep s))
    (h : command body s = .next t) :
    t = { s with err := t.err, wacc := t.wacc, wcnt := t.wcnt, sout := t.sout, portScript := t.portScript } := by
  rcases command_ends hb h with rfl | ⟨_, ht⟩ | ⟨_, k, u, hu, rfl⟩
  · rfl
  · rw [ht.only]
  · rw [(faultEntry_step k u).only, hu.only]

/-- Settles O51: the bodies of the four commands move the writer only. -/
theorem writerCommandsFrame : Obligations.WriterCommandsFrame := by
  rintro s t i (rfl | ⟨b, rfl⟩ | ⟨v, n, rfl⟩ | ⟨sym, rfl⟩) h
  · exact command_writerFrame (flushWriter_ends s) h
  · exact command_writerFrame (writeBit_ends b s) h
  · exact command_writerFrame (writeAll_ends _ s) h
  · exact command_writerFrame (requireElse_ends (.refl s) (emitCode_ends sym s)) h

/-- Settles O38: with a table ENCSYM is `emit_code(s)`. -/
theorem encsymAppendsCode : Obligations.EncsymAppendsCode := by
  refine fun s sym h0 hb => ⟨fun p hp hfind => ?_, fun hfind => command_raise h0 ?_⟩
  · obtain ⟨t, hrun, hbits, hstep⟩ := emitCode_ok hp hfind
    exact ⟨t, command_ok h0 ((requireElse_pos hb).trans hrun), hbits, hstep.only⟩
  · rw [requireElse_pos hb, emitCode_none hfind]

/-! ### COMPRESS -/

/-- An empty and clean writer holds no byte (R35). -/
theorem wacc_eq_zero {s : State} (hc : writerClean s) (hw : s.wcnt = 0) : s.wacc = 0 := by
  simpa [writerClean, hw] using hc

/-- Bits written from an empty writer and padded to a byte boundary are whole bytes in SOUT (R112, R224). -/
theorem sout_of_padded {s u : State} {p : Bits} (hs : s.wcnt = 0) (hu : u.wcnt = 0)
    (h : writtenBits u = padTo8 (writtenBits s ++ p)) : u.sout = s.sout ++ packBytes (padTo8 p) := by
  apply bitsOfBytes_injective
  rw [writtenBits_aligned hu, writtenBits_aligned hs, padTo8_append _ _ _ (bitsOfBytes_length _)] at h
  rw [h, bitsOfBytes_append, bitsOfBytes_packBytes_padTo8]

/-- Steps 3 to 6 of `compress`: the codes of the input, the marker's code, and the pad (R196). -/
def encodePayload (fuel : Nat) (s : State) : Run Unit :=
  (encodeInput fuel s).andThen fun _ t => (emitCode Config.eos t).andThen fun _ u => flushWriter u

/-- On a valid tree COMPRESS comes to its payload with the header written and the tree's table in ETAB (R196 steps 1 and
2). -/
theorem compressBody_header {s : State} {t : CodeTree} (hs : AlignedStart s) (htree : HoldsTree s t) :
    ∃ v, compressBody s = encodePayload (s.sinData.length - s.sinPos + 1) v ∧ portsOk v ∧
      (∀ x, ETab.find v.etab x = t.code x) ∧ v = { s with
      tvalid := true, tblv := true, etab := tableOf t, wacc := 0, wcnt := 0, sout := s.sout ++ packBytes t.hdr,
      portScript := v.portScript } := by
  obtain ⟨_, _, hdistinct, _⟩ := CodeTree.valid_parts htree.valid
  obtain ⟨u, htser, hstep, hwacc, hwcnt, hsout⟩ :=
    tserBody_ok (s := { s with tvalid := true }) htree.treeAt hs.ports hs.clean hs.writer
  have honly := hstep.only
  have htreeAt : treeAt u.tmem u.root = some t := by rw [honly]; exact htree.treeAt
  have hdata : u.sinData = s.sinData := by rw [honly]
  have hpos : u.sinPos = s.sinPos := by rw [honly]
  refine ⟨{ u with etab := tableOf t, tblv := true }, ?_, hstep.portsOk hs.ports, find_tableOf hdistinct, ?_⟩
  · rw [compressBody, ensureValid_ok htree.checkTree, andThen_ok, htser, andThen_ok, bldtabBody_eq htreeAt, andThen_ok,
      hdata, hpos]
    rfl
  · rw [WriterOnly, hwacc, hwcnt, hsout] at honly
    rw [honly]

/-- From an empty writer, where every byte left in SIN has a code and no access fails, the padded codes of the bytes and of the
marker are appended to SOUT (R196). -/
theorem encodePayload_ok {fuel : Nat} {s : State} {t : CodeTree} {p : Bits} (hp : portsOk s) (hc : writerClean s)
    (hw : s.wcnt = 0) (htable : ∀ x, ETab.find s.etab x = t.code x) (hin : s.sinPos ≤ s.sinData.length)
    (hfuel : s.sinData.length - s.sinPos < fuel) (hcodes : t.codes ((sinRest s).map symOfByte ++ [Config.eos]) = some p) :
    ∃ u, encodePayload fuel s = .ok () u ∧ u.wacc = 0 ∧ u.wcnt = 0 ∧ u.sout = s.sout ++ packBytes (padTo8 p) ∧
      u.sinPos = s.sinData.length ∧ CoderStep s u := by
  obtain ⟨q, m, hq, hm, rfl⟩ := CodeTree.codes_marker hcodes
  obtain ⟨v, hinput, hvbits, hvpos, hv⟩ := encodeInput_ok t hp htable hin hfuel hq
  have hpv := hv.portsOk hp
  have hfind : ETab.find v.etab Config.eos = some m := by rw [hv.only]; exact (htable _).trans hm
  obtain ⟨w, hemit, hwbits, hw'⟩ := emitCode_ok hpv hfind
  obtain ⟨u, hflush, hubits, hwcnt, hwacc, hu⟩ := flushWriter_ok (hw'.portsOk hpv) (hw'.clean (hv.clean hc))
  have hbits : writtenBits u = padTo8 (writtenBits s ++ (q ++ m)) := by
    rw [hubits, hwbits, hvbits, List.append_assoc]
  have hpos : u.sinPos = v.sinPos := by rw [(hw'.trans hu).only]
  refine ⟨u, ?_, hwacc, hwcnt, sout_of_padded hw hwcnt hbits, hpos.trans hvpos, hv.trans (hw'.trans hu).coder⟩
  rw [encodePayload, hinput, andThen_ok, hemit, andThen_ok, hflush]

/-- The payload of an artifact is the codes of the input and of the marker, padded (R112). -/
theorem CodeTree.artifact_payload {t : CodeTree} {input a : List Byte} (h : t.artifact input = some a) :
    ∃ p, t.codes (input.map symOfByte ++ [Config.eos]) = some p ∧ a = packBytes t.hdr ++ packBytes (padTo8 p) := by
  unfold CodeTree.artifact at h
  split at h
  · cases h
  · rename_i p hp
    exact ⟨p, hp, (Option.some.inj h).symm⟩

/-- Settles O41: the header, then the payload, and TBLV is dropped on leaving. -/
theorem compressWritesArtifact : Obligations.CompressWritesArtifact := by
  intro s t a hs htree hart
  obtain ⟨p, hcodes, rfl⟩ := CodeTree.artifact_payload hart
  obtain ⟨v, hbody, hports, htable, hframe⟩ := compressBody_header hs htree
  have hrest : sinRest v = sinRest s := by rw [hframe]; rfl
  obtain ⟨u, hrun, hwacc, hwcnt, hsout, hpos, hstep⟩ := encodePayload_ok (fuel := s.sinData.length - s.sinPos + 1) hports
    (by rw [hframe]; rfl) (by rw [hframe]) htable (by rw [hframe]; exact hs.sinWf) (by rw [hframe]; exact Nat.lt_succ_self _)
    (hrest ▸ hcodes)
  refine ⟨{ u with tblv := false }, command_ok hs.noFault ?_, ?_⟩
  · rw [requireElse_pos ⟨hs.writer, hs.reader⟩, hbody, hrun, onLeave_ok]
  · have honly := hstep.only
    rw [hwacc, hwcnt, hsout, hpos, hframe] at honly
    rw [honly, List.append_assoc]

/-- Fault entry after bits written from an empty writer, where its push does not fail: the bits are padded to whole bytes in
SOUT, and the writer is empty (R280). -/
theorem faultEntry_padded (k : ErrKind) {s u : State} {p : Bits} (hs : s.wcnt = 0) (hp : portsOk u) (hc : writerClean u)
    (h : writtenBits u = writtenBits s ++ p) : faultEntry k u = { u with
      err := k.code, wacc := 0, wcnt := 0, sout := s.sout ++ packBytes (padTo8 p),
      portScript := (faultEntry k u).portScript } := by
  have hstep := faultEntry_step k u
  have honly := hstep.only
  have hwcnt := faultEntry_wcnt k u
  have hsout := sout_of_padded hs hwcnt ((faultEntry_flush k hp hc).trans (congrArg padTo8 h))
  rw [WriterOnly, wacc_eq_zero (hstep.clean hc) hwcnt, hwcnt, hsout] at honly
  exact honly

/-- Settles O42: the payload stops at the byte without a code, and fault entry pads what was written. -/
theorem compressStopsAtUncodedByte : Obligations.CompressStopsAtUncodedByte := by
  intro s t before after b p hs htree hsin hcodes hnone
  obtain ⟨v, hbody, hports, htable, hframe⟩ := compressBody_header hs htree
  have hwcnt : v.wcnt = 0 := by rw [hframe]
  have hclean : writerClean v := by rw [hframe]; rfl
  have hrest : sinRest v = sinRest s := by rw [hframe]; rfl
  have hfuel : before.length < s.sinData.length - s.sinPos + 1 := by
    have hlen := congrArg List.length hsin
    simp only [sinRest, List.length_drop, List.length_append, List.length_cons] at hlen
    omega
  obtain ⟨u, hrun, hbits, hpos, hstep⟩ :=
    encodeInput_noCode t before after b p hports htable (hrest.trans hsin) hfuel hcodes hnone
  refine ⟨faultEntry .noCode { u with tblv := false }, command_raise hs.noFault ?_, ?_⟩
  · rw [requireElse_pos ⟨hs.writer, hs.reader⟩, hbody, encodePayload, hrun, andThen_raise, onLeave_raise]
  · rw [faultEntry_padded .noCode (u := { u with tblv := false }) hwcnt (hstep.portsOk hports) (hstep.clean hclean) hbits]
    have honly := hstep.only
    rw [hpos, hframe] at honly
    rw [honly, hframe]
    rfl

end Sys2Proof.Machine
end

section
/-! PROOFS. DECOMPRESS where the bits run out before the marker, and the round trip of COMPRESS and DECOMPRESS (spec
43_stream_codec.md R201 to R203). -/

namespace Sys2Proof.Machine

/-- The decoder's loop on the codes of an input and then on bits that begin with no code: it pushes the input, sets TRUNC and has
taken every bit (R201). -/
theorem decodePayload_lenientEnd {s : State} {t : CodeTree} {input : List Byte} {p rest : Bits} (hp : portsOk s)
    (ht : treeAt s.tmem s.root = some t) (hv : t.valid = true) (hc : t.codes (input.map symOfByte) = some p)
    (hu : unreadBits s = p ++ rest) (hrest : ∀ x q, t.code x = some q → ¬ q <+: rest) :
    ∃ u, decodePayload (bitsLeft s + 1) s = .ok () u ∧ unreadBits u = [] ∧ u.sout = s.sout ++ input ∧
      u.eosseen = s.eosseen ∧ u.trunc = true ∧ DecoderStep s u := by
  obtain ⟨⟨l, r, rfl⟩, _, hdistinct, _⟩ := CodeTree.valid_parts hv
  have hfuel : bitsLeft s + 1 = (bitsLeft s - input.length + 1) + input.length := by
    have hlen := CodeTree.codes_length _ _ hc
    rw [← unreadBits_length, hu]
    simp at hlen ⊢
    omega
  obtain ⟨v, hrun, huv, hsout, heos, _, hstep⟩ :=
    decodePayload_bytes (fuel := bitsLeft s - input.length + 1) input hp ht hc hu
  have htv : treeAt v.tmem v.root = some (.node l r) := by rw [hstep.only]; exact ht
  obtain ⟨u, hend, huu, hsout', heos', htrunc, hstep'⟩ := decodePayload_truncated (hstep.portsOk hp) htv hdistinct
    (by rw [huv]; exact hrest)
  exact ⟨u, by rw [hfuel, hrun, hend], huu, hsout'.trans hsout, heos'.trans heos, htrunc, hstep.trans hstep'⟩

/-- Settles O45: the header leaves the decoder's loop its tree and the payload, and the loop takes every bit. -/
theorem decompressLenientEnd : Obligations.DecompressLenientEnd := by
  intro s t input payload p rest hs hv hsin hpayload hcodes hnone
  obtain ⟨v, hbody, hpre, hrest, hports, hinside, hframe⟩ := decompressBody_header hs hv hsin
  have hbits : unreadBits v = p ++ rest := by
    rw [unreadBits_aligned (by rw [hframe]), hrest, hpayload]
  have htree : treeAt v.tmem v.root = some t := by rw [hframe]; exact hpre.treeAt hv
  obtain ⟨u, hrun, hunread, hsout, heos, htrunc, hstep⟩ := decodePayload_lenientEnd hports htree hv hcodes hbits hnone
  obtain ⟨hr, hend⟩ := exhausted_of_unreadBits_nil hunread
  have honly := hstep.only
  have hdata : v.sinData = s.sinData := by rw [hframe]
  have hdata' : u.sinData = s.sinData := by rw [honly]; exact hdata
  have hpos : u.sinPos = s.sinData.length := Nat.le_antisymm (hdata ▸ hstep.inside (hdata ▸ hinside)) (hdata' ▸ hend)
  have htmem : u.tmem = v.tmem := by rw [honly]
  refine ⟨u, command_ok hs.noFault ?_, htmem ▸ hpre, ?_⟩
  · rw [requireElse_pos ⟨hs.writer, hs.reader⟩, hbody, hrun]
  · rw [heos, htrunc, hsout, hr, hpos, hframe] at honly
    rw [htmem]
    exact honly

/-- A valid tree has an artifact for every input whose bytes it has Leaves for (R112). -/
theorem CodeTree.artifact_of_symbols {t : CodeTree} (hv : t.valid = true) {input : List Byte}
    (h : ∀ b ∈ input, symOfByte b ∈ t.symbols) : ∃ a, t.artifact input = some a := by
  obtain ⟨_, _, _, hmarker⟩ := CodeTree.valid_parts hv
  obtain ⟨p, hp⟩ := CodeTree.codes_of_symbols (t := t) (input.map symOfByte ++ [Config.eos]) fun x hx => by
    rcases List.mem_append.mp hx with hx | hx
    · obtain ⟨b, hb, rfl⟩ := List.mem_map.mp hx
      exact h b hb
    · exact List.mem_singleton.mp hx ▸ hmarker
  exact ⟨_, by rw [CodeTree.artifact, hp]⟩

/-- Where SIN's cursor has moved over some bytes, the others are left (R72). -/
theorem sinRest_eq_of_sinPos {s u : State} {a x : List Byte} (hd : u.sinData = s.sinData)
    (hpos : u.sinPos = s.sinPos + a.length) (h : sinRest s = a ++ x) : sinRest u = x := by
  have hdrop : sinRest u = (sinRest s).drop a.length := by rw [sinRest, sinRest, hd, hpos, List.drop_drop]
  rw [hdrop, h, List.drop_left]

/-- Settles O46: COMPRESS writes an artifact, and DECOMPRESS reads one whatever its pad bits hold. -/
theorem codecRoundTrip : Obligations.CodecRoundTrip := by
  intro s t hs htree hcovers
  obtain ⟨a, hart⟩ := CodeTree.artifact_of_symbols htree.valid hcovers
  obtain ⟨u, hcompress, hu⟩ := compressWritesArtifact s t a hs htree hart
  refine ⟨u, a, hcompress, by rw [hu]; exact hs.noFault, hart, by rw [hu], CodeTree.artifact_anyPad hart,
    fun s' a' x hs' hart' hsin => ?_⟩
  obtain ⟨v, hdecompress, hpre, hv⟩ := decompressReadsArtifact s' t _ a' x hs' htree.valid hart' hsin
  have hrest : sinRest v = x := sinRest_eq_of_sinPos (by rw [hv]) (by rw [hv]) hsin
  exact ⟨v, hdecompress, by rw [hv]; exact hs'.noFault, by rw [hv], by rw [hv], by rw [hv], hrest, by rw [hv],
    hpre.holdsTree (by rw [hv]) htree.valid⟩

/-- Settles O47: the round trip of the empty input, whose payload is the marker's code. -/
theorem emptyInputRoundTrip : Obligations.EmptyInputRoundTrip := by
  intro s t hs htree hempty
  obtain ⟨u, a, hcompress, _, hart, hsout, hpad, hback⟩ := codecRoundTrip s t hs htree (by simp [hempty])
  rw [hempty] at hart hpad hback
  obtain ⟨p, m, hp, hm, rfl⟩ := CodeTree.artifact_parts hart
  obtain rfl : [] = p := Option.some.inj hp
  refine ⟨u, m, hcompress, hm, by rw [hsout, List.append_assoc]; rfl, fun s' hs' hsin => ?_⟩
  obtain ⟨v, hdecompress, herr, hvout, heos, _⟩ := hback s' _ [] hs' hpad (by rw [hsin, List.append_nil]; rfl)
  exact ⟨v, hdecompress, herr, by rw [hvout, List.append_nil], heos⟩

end Sys2Proof.Machine
end

section
/-! PROOFS. The bit-stream commands NOP, RDALIGN, RDBIT, RDBITS, WRBIT, WRBITS and FLUSH (spec 44_bitstream.md R220 to R235,
45_system.md R250). -/

namespace Sys2Proof.Machine

variable {α : Type}

/-! ### NOP and RDALIGN -/

theorem exec_nop (s : State) : exec .nop s = command (fun s => .ok () s) s := rfl

theorem exec_rdalign (s : State) : exec .rdalign s = command (fun s => .ok () { s with rcnt := 0 }) s := rfl

/-- Settles O17: the bodies are one assignment or none, and a state in the fault state is left as it is (R282). -/
theorem nopAndRdalignEffects : Obligations.NopAndRdalignEffects := by
  refine ⟨by decide, by decide, fun s => ?nop, fun s h0 => (exec_rdalign s).trans (command_ok h0 rfl)⟩
  by_cases h0 : s.err = 0
  · exact (exec_nop s).trans (command_ok h0 rfl)
  · exact (exec_nop s).trans (command_fault h0)

/-! ### `read_bit()`: the bit comes from RBUF, or from a pulled byte, or the pull ends the command -/

theorem rcnt_pred {c : BitVec 3} (h : c ≠ 0) : (c - 1).toNat = c.toNat - 1 := by bv_omega

theorem readBit_buffered {s : State} (hr : s.rcnt ≠ 0) :
    readBit s = .ok (s.rbuf.getLsbD (s.rcnt.toNat - 1)) { s with rcnt := s.rcnt - 1 } := by
  rw [readBit, if_neg hr, rcnt_pred hr]

theorem readBit_pulled {s : State} {x : Byte} (hr : s.rcnt = 0) (hf : nextAccessFails s = false)
    (hx : s.sinData[s.sinPos]? = some x) :
    readBit s = .ok (x.getLsbD 7) { s.useAnswer with sinPos := s.sinPos + 1, rbuf := x, rcnt := 7 } := by
  rw [readBit, if_pos hr, pull_byte hf hx]

theorem readBit_atEnd {s : State} (hr : s.rcnt = 0) (hf : nextAccessFails s = false) (hx : s.sinData[s.sinPos]? = none) :
    readBit s = .raise .bitsExhausted s.useAnswer := by
  rw [readBit, if_pos hr, pull_exhausted hf hx]

theorem readBit_fails {s : State} (hr : s.rcnt = 0) (hf : nextAccessFails s = true) :
    readBit s = .raise .ioError s.useAnswer := by
  rw [readBit, if_pos hr, pull_fails hf]

/-! ### RDBIT and RDBITS: a run of the reader, then the write of RESULT -/

theorem exec_rdbit (s : State) : exec .rdbit s = command (fun s =>
    (readBit s).andThen fun b t => .ok () { t with result := (BitVec.ofBool b).setWidth 32 }) s := rfl

theorem exec_rdbits (n : BitVec 5) (s : State) : exec (.rdbits n) s = command (fun s =>
    (readBits n.toNat 0 s).andThen fun v t => .ok () { t with result := v }) s := rfl

/-- What RDBIT and RDBITS can write themselves (R230, R231). -/
def ReadCommandOnly (s t : State) : Prop := ReaderOnly { s with result := t.result } t

theorem ReadCommandOnly.refl (s : State) : ReadCommandOnly s s := rfl

theorem ReadCommandOnly.err {s t : State} (h : ReadCommandOnly s t) : t.err = s.err := by rw [h]

theorem ReaderStep.setResult {s t : State} (h : ReaderStep s t) (v : Word) : ReadCommandOnly s { t with result := v } := by
  rw [ReadCommandOnly, ReaderOnly, h.only]

theorem ReaderStep.readCommandOnly {s t : State} (h : ReaderStep s t) : ReadCommandOnly s t := by
  rw [ReadCommandOnly, ReaderOnly, h.only]

section ReadCommand

variable {r : State → Run α} {f : α → Word} {s t : State}

theorem readCommand_ok {a : α} (h0 : s.err = 0) (h : r s = .ok a t) :
    command (fun s => (r s).andThen fun a t => .ok () { t with result := f a }) s = .next { t with result := f a } :=
  command_ok h0 (by rw [h, andThen_ok])

theorem readCommand_raise {k : ErrKind} (h0 : s.err = 0) (h : r s = .raise k t) :
    command (fun s => (r s).andThen fun a t => .ok () { t with result := f a }) s = .next (faultEntry k t) :=
  command_raise h0 (by rw [h, andThen_raise])

/-- RESULT is written last, so that a raise leaves it; fault entry adds ERR, the writer and SOUT (R280). -/
theorem readCommand_frame (hr : (r s).Ends (ReaderStep s))
    (h : command (fun s => (r s).andThen fun a t => .ok () { t with result := f a }) s = .next t) :
    (t.err = s.err → ReadCommandOnly s t) ∧
    (t.err ≠ s.err → t = { s with
      err := t.err, rbuf := t.rbuf, rcnt := t.rcnt, sinPos := t.sinPos, portScript := t.portScript, wacc := t.wacc,
      wcnt := t.wcnt, sout := t.sout }) := by
  have hbody : ((r s).andThen fun a u => .ok () { u with result := f a }).Ends (ReadCommandOnly s) :=
    hr.andThen (fun _ hu => hu.readCommandOnly) fun a _ hu => hu.setResult (f a)
  obtain ⟨hok, hfault⟩ := command_frame hbody (.refl s) (fun _ hu => hu.err) h
  refine ⟨hok, fun hne => ?_⟩
  obtain ⟨k, u, hraise, _, rfl⟩ := hfault hne
  have hu := hr.of_raise (eq_raise_of_andThen_ok hraise)
  rw [(faultEntry_step k u).only, hu.only]

end ReadCommand

/-- Settles O18: the four ways of `read_bit()`. -/
theorem rdbitReadsNextBit : Obligations.RdbitReadsNextBit := by
  refine fun s h0 => ⟨fun hr => ?buffered, fun x hr hf hx => ?pulled, fun hr hf hx => ?atEnd, fun hr hf => ?fails⟩
  case buffered => exact (exec_rdbit s).trans (readCommand_ok h0 (readBit_buffered hr))
  case pulled => exact (exec_rdbit s).trans (readCommand_ok h0 (readBit_pulled hr hf hx))
  case atEnd => exact (exec_rdbit s).trans (readCommand_raise h0 (readBit_atEnd hr hf hx))
  case fails => exact (exec_rdbit s).trans (readCommand_raise h0 (readBit_fails hr hf))

/-- Where the next n bits are `p` and no access fails, RDBITS n takes them and leaves their value in RESULT (R231). -/
theorem exec_rdbits_ok {n : BitVec 5} {s : State} {p rest : Bits} (h0 : s.err = 0) (hp : portsOk s)
    (hn : p.length = n.toNat) (h : unreadBits s = p ++ rest) :
    ∃ t, exec (.rdbits n) s = .next t ∧ t.result = (valueOf n.toNat p).setWidth 32 ∧ unreadBits t = rest ∧
      ReadCommandOnly s t := by
  obtain ⟨t, hrun, hrest, hstep⟩ := readBits_ok n.toNat 0 hp hn h
  exact ⟨_, (exec_rdbits n s).trans (readCommand_ok h0 hrun), foldl_shiftInBit p n.toNat hn (by omega), hrest,
    hstep.setResult _⟩

/-- Settles O19: the next n bits are the first n of those left. -/
theorem rdbitsReturnsField : Obligations.RdbitsReturnsField := by
  intro s n h0 hp hn
  exact exec_rdbits_ok h0 hp (List.length_take_of_le hn) (List.take_append_drop _ _).symm

/-- Settles O20: the reader runs to the end of its bits, and fault entry touches neither it nor RESULT. -/
theorem rdbitsExhaustion : Obligations.RdbitsExhaustion := by
  intro s n h0 hp hn
  obtain ⟨u, hrun, hbits, hstep⟩ := readBits_exhausted n.toNat 0 hp hn
  refine ⟨_, u, (exec_rdbits n s).trans (readCommand_raise h0 hrun), rfl, faultEntry_err _ u, ?_,
    (faultEntry_unreadBits _ u).trans hbits, hstep.only⟩
  rw [(faultEntry_step _ u).only, hstep.only]

/-- Settles O49: both commands are a run of the reader and then the write of RESULT. -/
theorem readerCommandsFrame : Obligations.ReaderCommandsFrame := by
  rintro s t n (h | h)
  · exact readCommand_frame (readBit_ends s) ((exec_rdbit s).symm.trans h)
  · exact readCommand_frame (readBits_ends n.toNat 0 s) ((exec_rdbits n s).symm.trans h)

/-! ### WRBIT, WRBITS and FLUSH -/

theorem exec_wrbit (b : Bool) (s : State) : exec (.wrbit b) s = command (writeBit b) s := rfl

theorem exec_wrbits (v : BitVec 16) (n : BitVec 5) (s : State) :
    exec (.wrbits v n) s = command (writeAll (bitsOf n.toNat v)) s := rfl

theorem exec_flush (s : State) : exec .flush s = command flushWriter s := rfl

theorem pushByte_appends {x : Byte} {s : State} (h : nextAccessFails s = false) :
    pushByte x s = .ok () { s.useAnswer with sout := s.sout ++ [x] } := by
  rw [pushByte, push_appends h]

theorem pushByte_fails {x : Byte} {s : State} (h : nextAccessFails s = true) :
    pushByte x s = .raise .ioError s.useAnswer := by
  rw [pushByte, push_fails h]

/-- The eighth bit completes a byte, which is pushed (R222). -/
theorem writeBit_full {b : Bool} {s : State} (h : s.wcnt = 7) :
    writeBit b s = pushByte (placeBit s.wacc (7 - s.wcnt.toNat) b) { s with wacc := 0, wcnt := 0 } := if_pos h

theorem flushWriter_empty {s : State} (h : s.wcnt = 0) : flushWriter s = .ok () s := if_neg (not_not.mpr h)

theorem flushWriter_partial {s : State} (h : s.wcnt ≠ 0) :
    flushWriter s = pushByte s.wacc { s with wacc := 0, wcnt := 0 } := if_pos h

/-- A command whose last act is the push of the writer's byte, by then taken out of it: where the push fails the byte is lost,
and fault entry finds the writer empty (R222, R224, R280). -/
theorem command_pushByte_fails {body : State → Run Unit} {s : State} {x : Byte} (h0 : s.err = 0)
    (hbody : body s = pushByte x { s with wacc := 0, wcnt := 0 }) (hf : nextAccessFails s = true) :
    command body s = .next { s with err := 5, wacc := 0, wcnt := 0, portScript := s.portScript.tail } :=
  (command_raise h0 (hbody.trans (pushByte_fails hf))).trans (congrArg _ (faultEntry_aligned .ioError rfl))

/-- Settles O22: the eighth bit's push fails. -/
theorem wrbitPushFailure : Obligations.WrbitPushFailure :=
  fun s b h0 hw hf => (exec_wrbit b s).trans (command_pushByte_fails h0 (writeBit_full hw) hf)

/-- Settles O21: neither procedure of the writer raises where no access fails. -/
theorem writesAppendBits : Obligations.WritesAppendBits := by
  refine fun s h0 hp => ⟨fun b => ?wrbit, fun v n => ?wrbits⟩
  case wrbit =>
    obtain ⟨t, hrun, hbits, hstep⟩ := writeBit_ok b hp
    exact ⟨t, (exec_wrbit b s).trans (command_ok h0 hrun), hbits, hstep.only⟩
  case wrbits =>
    obtain ⟨t, hrun, hbits, hstep⟩ := writeAll_ok (bitsOf n.toNat v) hp
    exact ⟨t, (exec_wrbits v n s).trans (command_ok h0 hrun), hbits, hstep.only⟩

/-- Settles O23: `flush()` by WCNT and the port's answer, and what it makes of the bits written. -/
theorem flushPadsAndPushes : Obligations.FlushPadsAndPushes := by
  refine fun s h0 => ⟨fun hw => ?empty, fun hw hf => ?pushed, fun hw hf => ?lost, fun hp hc => ?padded⟩
  case empty => exact (exec_flush s).trans (command_ok h0 (flushWriter_empty hw))
  case pushed => exact (exec_flush s).trans (command_ok h0 ((flushWriter_partial hw).trans (pushByte_appends hf)))
  case lost => exact (exec_flush s).trans (command_pushByte_fails h0 (flushWriter_partial hw) hf)
  case padded =>
    obtain ⟨t, hrun, hbits, _⟩ := flushWriter_ok hp hc
    exact ⟨t, (exec_flush s).trans (command_ok h0 hrun), hbits⟩

/-! ### RDBITS after WRBITS -/

/-- The low n bits of a value, read as a number, are the value cut to n bits (R67). -/
theorem valueOf_bitsOf_setWidth {w : Nat} (n : Nat) (v : BitVec w) : valueOf n (bitsOf n v) = v.setWidth n := by
  have hcut : bitsOf n v = bitsOf n (v.setWidth n) :=
    bitsOf_congr n v (v.setWidth n) fun i hi => by simp [hi]
  rw [hcut, valueOf_bitsOf]

/-- Settles O24: the bits that WRBITS appends are `bitsOf n v`, and RDBITS takes n bits for their value. -/
theorem readBitsInvertsWriteBits : Obligations.ReadBitsInvertsWriteBits := by
  intro v n s u h0 hp h0' hp' _
  obtain ⟨_, hwrbits⟩ := writesAppendBits s h0 hp
  obtain ⟨t, hwrite, hbits, _⟩ := hwrbits v n
  refine ⟨t, hwrite, bitsOf n.toNat v, hbits, fun rest hrest => ?_⟩
  obtain ⟨r, hread, hresult, hunread, _⟩ := exec_rdbits_ok h0' hp' (bitsOf_length n.toNat v) hrest
  exact ⟨r, hread, by rw [hresult, valueOf_bitsOf_setWidth], hunread⟩

end Sys2Proof.Machine
end

section
/-! PROOFS. From a state that meets the invariant no command is stuck (spec 45_system.md R256, 70_reset_and_hazards.md R320): the
walks that 40_tree.md R121 warns of start only after `ensure_valid()`, where ROOT names a valid tree. -/

namespace Sys2Proof.Machine

variable {α β : Type}

/-- One piece after another, given what the first one's states meet. -/
theorem Run.Runs.andThen_of {r : Run α} {f : α → State → Run β} {P : State → Prop} (h : r.Runs) (he : r.Ends P)
    (hf : ∀ a t, P t → (f a t).Runs) : (r.andThen f).Runs := by
  cases r with
  | ok a t => exact hf a t he
  | raise k t => trivial
  | stuck w => exact h

/-! ### The walks of the tree -/

theorem tserBody_runs {s : State} {tree : CodeTree} (h : treeAt s.tmem s.root = some tree) : (tserBody s).Runs := by
  rw [tserBody_eq h]
  exact (writeAll_runs _ s).andThen fun _ t => flushWriter_runs t

theorem bldtabBody_runs {s : State} {tree : CodeTree} (h : treeAt s.tmem s.root = some tree) : (bldtabBody s).Runs := by
  rw [bldtabBody_eq h]
  trivial

/-- What follows `ensure_valid()` finds a tree at ROOT: the check has passed now, or TVALID says that it has before (R24,
R124). -/
theorem ensureValid_then_runs {s : State} {f : State → Run β} (hs : TreeInv s)
    (hf : ∀ tree, treeAt s.tmem s.root = some tree → (f { s with tvalid := true }).Runs) :
    ((ensureValid s).andThen fun _ t => f t).Runs := by
  have hruns := ensureValid_runs s
  cases h : ensureValid s with
  | ok a t =>
    obtain ⟨rfl, hcheck⟩ := ensureValid_eq_ok h
    obtain ⟨tree, htree, _⟩ := checkTree_treeAt (hcheck hs)
    exact hf tree htree
  | raise k t => trivial
  | stuck w => rw [h] at hruns; exact hruns.elim

/-! ### The composite commands -/

/-- The serializer leaves the tree that the table is then built from (R196). -/
theorem compressBody_runs {s : State} (hs : TreeInv s) : (compressBody s).Runs := by
  refine ensureValid_then_runs hs fun tree htree => ?_
  refine Run.Runs.andThen_of (tserBody_runs htree) (tserBody_ends _) fun _ t hstep => ?_
  have htree' : treeAt t.tmem t.root = some tree := by rw [hstep.only]; exact htree
  refine (bldtabBody_runs htree').andThen fun _ u => ?_
  exact (encodeInput_runs _ u).andThen fun _ v => (emitCode_runs _ v).andThen fun _ w => flushWriter_runs w

/-- DECOMPRESS walks the tree bit by bit, so it ends with the bits whatever TMEM holds (R199). -/
theorem decompressBody_runs (s : State) : (decompressBody s).Runs :=
  (tdesBody_runs _).andThen fun _ t => (ensureValid_runs t).andThen fun _ u => decodePayload_runs _ u

/-- Settles O58: command by command, no body is stuck, and RST has no body. -/
theorem everyCommandEnds : Obligations.EveryCommandEnds := by
  intro i s hs
  have htree : TreeInv s := hs.treeInv
  cases i with
  | nop => rw [exec_nop]; exact command_runs fun _ => trivial
  | rdalign => rw [exec_rdalign]; exact command_runs fun _ => trivial
  | rdbit => rw [exec_rdbit]; exact command_runs fun _ => (readBit_runs s).andThen fun _ _ => trivial
  | rdbits n => rw [exec_rdbits]; exact command_runs fun _ => (readBits_runs n.toNat 0 s).andThen fun _ _ => trivial
  | wrbit b => exact command_runs fun _ => writeBit_runs b s
  | wrbits v n => exact command_runs fun _ => writeAll_runs (bitsOf n.toNat v) s
  | flush => exact command_runs fun _ => flushWriter_runs s
  | tser => exact command_runs fun _ => requireElse_runs (ensureValid_then_runs htree fun _ h => tserBody_runs h)
  | tdes => exact command_runs fun _ => requireElse_runs (tdesBody_runs s)
  | bldtab => rw [exec_bldtab]; exact command_runs fun _ => ensureValid_then_runs htree fun _ h => bldtabBody_runs h
  | encsym x => exact command_runs fun _ => requireElse_runs (emitCode_runs x s)
  | compress => exact command_runs fun _ => requireElse_runs ((compressBody_runs htree).onLeave _)
  | dec1 =>
    rw [exec_dec1]
    exact command_runs fun _ =>
      ((ensureValid_runs s).andThen fun _ t => decodeFrom_runs _ t.root t).andThen fun _ _ => trivial
  | decompress => exact command_runs fun _ => requireElse_runs (decompressBody_runs s)
  | rst => exact ⟨softReset s, rfl⟩

end Sys2Proof.Machine
end

section
/-! PROOFS. The host's accesses other than a command's issue, offset by offset (spec 20_memory.md R61 to R63, 45_system.md R252,
R253). -/

namespace Sys2Proof.Machine

/-! ### The windows of the register map -/

theorem inTmemWindow_iff (off : Offset) : inTmemWindow off = true ↔ 0x1000 ≤ off.toNat := by
  have hmsb : inTmemWindow off = off.msb := (BitVec.msb_eq_getLsbD_last off).symm
  rw [hmsb, BitVec.msb_eq_decide, decide_eq_true_eq]

theorem inEtcodeWindow_iff (off : Offset) : inEtcodeWindow off = true ↔ 0x0020 ≤ off.toNat ∧ off.toNat ≤ 0x003C := by
  simp [inEtcodeWindow, BitVec.le_def]

/-- The k-th ETCODE lies at `0x0020 + 4k` (R62). -/
theorem etcodeIndex_ofNat : ∀ k < 8, etcodeIndex (BitVec.ofNat 13 (0x0020 + 4 * k)) = k := by decide

/-- TMEM's word i lies at `0x1000 + 4i` (R62). -/
theorem tmemIndex_ofNat (i : Nat) : tmemIndex (BitVec.ofNat 13 (0x1000 + 4 * i)) = BitVec.ofNat 10 i := by
  apply BitVec.eq_of_toNat_eq
  rw [tmemIndex, BitVec.extractLsb'_toNat, BitVec.toNat_ofNat, BitVec.toNat_ofNat, Nat.shiftRight_eq_div_pow]
  omega

theorem toNat_ofNat_offset {a : Nat} (ha : a < 0x2000) : (BitVec.ofNat 13 a).toNat = a :=
  (BitVec.toNat_ofNat a 13).trans (Nat.mod_eq_of_lt ha)

theorem ofNat_ne_offset {a : Nat} (ha : a < 0x2000) {r : Offset} (h : a ≠ r.toNat) : BitVec.ofNat 13 a ≠ r := by
  rintro rfl
  exact h (toNat_ofNat_offset ha).symm

/-! ### Reads -/

/-- Past the single registers only the two windows are mapped (R62). -/
theorem hostRead_above {off : Offset} (h : 0x0014 < off.toNat) (s : State) : hostRead off s =
    if inEtcodeWindow off then etcodeView (etcodeIndex off) s
    else if inTmemWindow off then Memory.read s.tmem (tmemIndex off) else 0 := by
  have hne : ∀ r : Offset, r.toNat ≤ 0x0014 → off ≠ r := by rintro r hr rfl; omega
  rw [hostRead, if_neg (hne _ (by decide)), if_neg (hne _ (by decide)), if_neg (hne _ (by decide)),
    if_neg (hne _ (by decide)), if_neg (hne _ (by decide))]

theorem hostRead_etcode {k : Nat} (hk : k < 8) (s : State) :
    hostRead (BitVec.ofNat 13 (0x0020 + 4 * k)) s = etcodeView k s := by
  have hoff := toNat_ofNat_offset (a := 0x0020 + 4 * k) (by omega)
  rw [hostRead_above (by omega), if_pos ((inEtcodeWindow_iff _).mpr (by omega)), etcodeIndex_ofNat k hk]

theorem hostRead_unmapped {off : Offset} (h1 : 0x0040 ≤ off.toNat) (h2 : off.toNat < 0x1000) (s : State) :
    hostRead off s = 0 := by
  rw [hostRead_above (by omega), if_neg (mt (inEtcodeWindow_iff off).mp (by omega)),
    if_neg (mt (inTmemWindow_iff off).mp (by omega))]

theorem hostRead_tmem {i : Nat} (hi : i < 1024) (s : State) :
    hostRead (BitVec.ofNat 13 (0x1000 + 4 * i)) s = Memory.read s.tmem (BitVec.ofNat 10 i) := by
  have hoff := toNat_ofNat_offset (a := 0x1000 + 4 * i) (by omega)
  rw [hostRead_above (by omega), if_neg (mt (inEtcodeWindow_iff _).mp (by omega)),
    if_pos ((inTmemWindow_iff _).mpr (by omega)), tmemIndex_ofNat i]

/-- No read looks at the host's own list of actions. -/
theorem hostRead_actions (off : Offset) (s : State) (rest : List Action) :
    hostRead off { s with actions := rest } = hostRead off s := rfl

/-- Settles O14: the single registers as the map lists them, the two windows, what lies between them, and the read as a
step. -/
theorem hostReadMap : Obligations.HostReadMap := by
  refine ⟨fun s => ⟨rfl, rfl, rfl, rfl, rfl, rfl, rfl, rfl, ?etcode, ?unmapped, ?tmem⟩, ?step⟩
  case etcode => exact fun k hk => hostRead_etcode hk s
  case unmapped =>
    intro a h1 h2
    have hoff := toNat_ofNat_offset (a := a) (by omega)
    exact hostRead_unmapped (by omega) (by omega) s
  case tmem => exact fun i hi => hostRead_tmem hi s
  case step =>
    intro s rest off hoff ha
    rw [step_action ha, act_read hoff, hostRead_actions]

/-! ### Writes -/

/-- A host write that issues no command, as a step (R253). -/
theorem step_hostWrite {s t : State} {off : Offset} {v : Word} {rest : List Action} (hoff : off.toNat % 4 = 0)
    (hc : off ≠ cmdOffset) (ha : s.actions = .write off v :: rest) (ht : hostWrite off v { s with actions := rest } = t) :
    step s = .next t := by
  rw [step_action ha, act_write hoff hc, ht]

theorem hostWrite_root {s : State} (h0 : s.err = 0) (v : Word) :
    hostWrite 0x000C v s = { s with root := v.extractLsb' 0 10, tvalid := false, tblv := false } :=
  if_neg (not_not.mpr h0)

theorem hostWrite_etidx {s : State} (h0 : s.err = 0) (v : Word) :
    hostWrite 0x0010 v s = { s with etidx := v.extractLsb' 0 9 } :=
  if_neg (not_not.mpr h0)

theorem hostWrite_tmem {s : State} {off : Offset} (h0 : s.err = 0) (h : 0x1000 ≤ off.toNat) (v : Word) :
    hostWrite off v s = { s with tmem := Memory.write s.tmem (tmemIndex off) v, tvalid := false, tblv := false } := by
  have hne : ∀ r : Offset, r.toNat < 0x1000 → off ≠ r := by rintro r hr rfl; omega
  rw [hostWrite, if_neg (not_not.mpr h0), if_neg (hne _ (by decide)), if_neg (hne _ (by decide)),
    if_pos ((inTmemWindow_iff off).mpr h)]

/-- Below the window onto TMEM only ROOT and ETIDX take a write (R62, R63). -/
theorem hostWrite_ignored {s : State} {off : Offset} (hroot : off ≠ 0x000C) (hetidx : off ≠ 0x0010)
    (htmem : off.toNat < 0x1000) (v : Word) : hostWrite off v s = s := by
  rw [hostWrite, if_neg hroot, if_neg hetidx, if_neg (mt (inTmemWindow_iff off).mp (by omega)), ite_self]

/-- Settles O15: a step is the host's write, by the kind of its offset; TMEM is read back by the rule of `Memory.write`. -/
theorem hostWriteMap : Obligations.HostWriteMap := by
  intro s rest v h0
  have h0' : ({ s with actions := rest } : State).err = 0 := h0
  refine ⟨fun ha => ?root, fun ha => ?etidx, fun i hi ha => ?tmem, fun a h4 hmap ha => ?ignored⟩
  case root => exact step_hostWrite (by decide) (by decide) ha (hostWrite_root h0' v)
  case etidx => exact step_hostWrite (by decide) (by decide) ha (hostWrite_etidx h0' v)
  case tmem =>
    have hoff := toNat_ofNat_offset (a := 0x1000 + 4 * i) (by omega)
    have hwindow : 0x1000 ≤ (BitVec.ofNat 13 (0x1000 + 4 * i)).toNat := by omega
    have hcmd : BitVec.ofNat 13 (0x1000 + 4 * i) ≠ cmdOffset := ofNat_ne_offset (by omega) (by simp [cmdOffset])
    refine ⟨_, step_hostWrite (by omega) hcmd ha (hostWrite_tmem h0' hwindow v), rfl, fun j => ?_⟩
    have hij : BitVec.ofNat 10 i = j ↔ j.toNat = i := by
      rw [← BitVec.toNat_inj, BitVec.toNat_ofNat, Nat.mod_eq_of_lt hi, eq_comm]
    simp only [tmemIndex_ofNat i, Memory.read_write, hij]
  case ignored =>
    have hoff := toNat_ofNat_offset (a := a) (by omega)
    have hne : ∀ r : Offset, a ≠ r.toNat → BitVec.ofNat 13 a ≠ r := fun _ => ofNat_ne_offset (by omega)
    refine step_hostWrite (by omega) (hne _ ?_) ha (hostWrite_ignored (hne _ ?_) (hne _ ?_) (by omega) v)
    all_goals rintro rfl; exact absurd hmap (by decide)

end Sys2Proof.Machine
end

section
/-! PROOFS. Fault entry and the fault state: what fault entry writes, when an illegal word or a misaligned command comes to
it, and what the fault state ignores (spec 60_exceptions.md R277, R278, R280, R282). -/

namespace Sys2Proof.Machine

/-! ### Fault entry -/

/-- With a partial byte in the writer fault entry is the push of it (R280). -/
theorem faultEntry_partial (k : ErrKind) {s : State} (h : s.wcnt ≠ 0) :
    faultEntry k s = (push s.wacc { s with err := k.code, wacc := 0, wcnt := 0 }).2 := if_pos h

/-- Settles O8: the writer is aligned, or its partial byte is pushed and the port takes it or fails. -/
theorem faultEntryWritesErrAndFlushes : Obligations.FaultEntryWritesErrAndFlushes := by
  refine ⟨fun k s => ⟨faultEntry_aligned k, fun hw hport => ?taken, fun hw hport => ?lost⟩, rfl⟩
  case taken => rw [faultEntry_partial k hw, push_appends (by exact hport)]; rfl
  case lost => rw [faultEntry_partial k hw, push_fails (by exact hport)]; rfl

/-! ### Commands that raise at once -/

/-- Settles O7: the host's write to CMD is the issue of the word, and the issue of an illegal word raises at once. -/
theorem illegalWordEntersFaultState : Obligations.IllegalWordEntersFaultState := by
  intro s w rest why h0 ha hd
  have h0' : ({ s with actions := rest } : State).err = 0 := h0
  calc step s = act (.write cmdOffset w) { s with actions := rest } := step_action ha
    _ = issue w { s with actions := rest } := act_issue w _
    _ = execIllegal { s with actions := rest } := issue_illegal hd _
    _ = .next (faultEntry .illegalCommand { s with actions := rest }) := command_raise h0' rfl

/-- A command whose precondition fails has fault entry as its only effect (R11, R280). -/
theorem command_requireElse_neg {c : Prop} [Decidable c] {k : ErrKind} {f : State → Run Unit} {s : State} (h0 : s.err = 0)
    (h : ¬c) : command (requireElse c k f) s = .next (faultEntry k s) :=
  command_raise h0 (if_neg h)

/-- Settles O33: each of the commands begins with a `require` that fails. -/
theorem misalignedCommandsRefused : Obligations.MisalignedCommandsRefused := by
  refine fun s h0 => ⟨fun hw => ?tser, fun hr => ?tdes, fun hwr => ⟨?compress, ?decompress⟩, fun hb sym => ?encsym⟩
  case tser => exact command_requireElse_neg h0 hw
  case tdes => exact command_requireElse_neg h0 hr
  case compress => exact command_requireElse_neg h0 (not_and_or.mpr hwr)
  case decompress => exact command_requireElse_neg h0 (not_and_or.mpr hwr)
  case encsym => exact command_requireElse_neg h0 (ne_true_of_eq_false hb)

/-! ### The fault state -/

/-- In the fault state the issue of a word other than RST's is ignored, legal or not (R282). -/
theorem issue_fault {w : Word} {s : State} (he : s.err ≠ 0) (hw : w ≠ 0xFF000000) : issue w s = .next s := by
  cases hd : decode w with
  | command i => rw [issue_command hd]; exact exec_fault he fun hi => hw (decode_rst (hi ▸ hd))
  | illegal why => rw [issue_illegal hd]; exact command_fault he

/-- In the fault state a host write other than that of RST's word to CMD is ignored (R282). -/
theorem act_write_fault {off : Offset} {v : Word} {s : State} (he : s.err ≠ 0) (hoff : off.toNat % 4 = 0)
    (hrst : ¬(off = cmdOffset ∧ v = 0xFF000000)) : act (.write off v) s = .next s := by
  by_cases hc : off = cmdOffset
  · rw [hc, act_issue, issue_fault he fun hv => hrst ⟨hc, hv⟩]
  · rw [act_write hoff hc, hostWrite_fault he]

/-- Settles O9: the host's write, the host's read, and the commands but RST. -/
theorem faultStateIgnoresAllButRst : Obligations.FaultStateIgnoresAllButRst := by
  refine fun s rest off he hoff => ⟨fun v hrst ha => ?write, fun ha => ?read, fun i => exec_fault he⟩
  case write => rw [step_action ha, act_write_fault (by exact he) hoff hrst]
  case read => rw [step_action ha, act_read hoff, hostRead_actions]

end Sys2Proof.Machine
end

section
/-! PROOFS. What each command's body raises, and that it reports every port access that failed (spec 60_exceptions.md R270,
R275; 20_memory.md R76). -/

namespace Sys2Proof.Machine

/-! ### The kinds of the composite commands' bodies -/

theorem compressBody_raises (s : State) : (compressBody s).Raises (· ∈ [.invalidTree, .noCode, .ioError]) := by
  unfold compressBody
  refine ((ensureValid_raises s).mono (by decide)).andThen fun _ s1 => ?_
  refine ((tserBody_raises s1).mono (by decide)).andThen fun _ s2 => ?_
  refine ((bldtabBody_raises s2).mono (by decide)).andThen fun _ s3 => ?_
  refine ((encodeInput_raises _ s3).mono (by decide)).andThen fun _ s4 => ?_
  refine ((emitCode_raises _ s4).mono (by decide)).andThen fun _ s5 => ?_
  exact (flushWriter_raises s5).mono (by decide)

theorem decompressBody_raises (s : State) : (decompressBody s).Raises (· ∈ [.corruptHeader, .invalidTree, .ioError]) := by
  unfold decompressBody
  refine ((tdesBody_kinds _).mono (by decide)).andThen fun _ s1 => ?_
  refine ((ensureValid_raises s1).mono (by decide)).andThen fun _ s2 => ?_
  exact (decodePayload_raises _ s2).mono (by decide)

theorem Run.Raises.onLeave {α : Type} {r : Run α} {K : ErrKind → Prop} (h : r.Raises K) (f : State → State) :
    (r.onLeave f).Raises K := by
  cases r <;> exact h

/-! ### What a body owes -/

/-- The commands that come to fault entry with the writer as it was (R280): they write no bit. -/
def writesNoBit : Instr → Bool
  | .nop | .rdbit | .rdbits _ | .rdalign | .tdes | .bldtab | .dec1 | .decompress => true
  | .wrbit _ | .wrbits _ _ | .flush | .tser | .encsym _ | .compress | .rst => false

/-- ERR is kept, and with `w` the writer too. -/
structure KeepsErr (w : Bool) (s t : State) : Prop where
  err : t.err = s.err
  writer : w = true → t.wacc = s.wacc ∧ t.wcnt = s.wcnt

/-- The run of `i`'s body from `s` keeps ERR for fault entry to write, raises the kinds of `i` only (R270), and reports every
access that failed (R275). -/
structure Run.Reports (r : Run Unit) (i : Instr) (s : State) : Prop where
  keeps : r.Ends (KeepsErr (writesNoBit i) s)
  kinds : r.Raises (· ∈ mayRaise i)
  answers : r.Answers s.portScript

theorem KeepsErr.refl (w : Bool) (s : State) : KeepsErr w s s := ⟨rfl, fun _ => ⟨rfl, rfl⟩⟩

/-- A frame `t = { s with … }` that names neither ERR nor the writer. -/
theorem KeepsErr.of_frame {w : Bool} {s t u : State} (h : t = u) (he : u.err = s.err) (hacc : u.wacc = s.wacc)
    (hcnt : u.wcnt = s.wcnt) : KeepsErr w s t := by
  subst h; exact ⟨he, fun _ => ⟨hacc, hcnt⟩⟩

/-- A frame `t = { s with … }` that does not name ERR. -/
theorem KeepsErr.of_errFrame {s t u : State} (h : t = u) (he : u.err = s.err) : KeepsErr false s t := by
  subst h; exact ⟨he, nofun⟩

/-- A run that leaves its value for a command to write into RESULT. -/
theorem answers_setResult {α : Type} {r : Run α} {b : List Bool} {f : α → Word} (h : r.Answers b) :
    (r.andThen fun a u => .ok () { u with result := f a }).Answers b :=
  h.andThen fun _ _ => AllSucceeded.refl _

/-- Every command but RST runs a body that reports. -/
theorem exec_reports {i : Instr} (hi : i ≠ .rst) :
    ∃ body : State → Run Unit, exec i = command body ∧ ∀ s, (body s).Reports i s := by
  cases i with
  | nop => exact ⟨_, funext exec_nop, fun s => ⟨.refl _ s, trivial, .refl _⟩⟩
  | rdalign => exact ⟨_, funext exec_rdalign, fun s => ⟨.of_frame rfl rfl rfl rfl, trivial, .refl _⟩⟩
  | rdbit =>
    refine ⟨_, funext exec_rdbit, fun s => ⟨?keeps, ?kinds, answers_setResult (readBit_answers s)⟩⟩
    case keeps =>
      exact (readBit_ends s).andThen (fun _ h => .of_frame h.only rfl rfl rfl) fun _ _ h =>
        .of_frame (h.setResult _) rfl rfl rfl
    case kinds => exact (readBit_raises s).andThen fun _ _ => trivial
  | rdbits n =>
    refine ⟨_, funext (exec_rdbits n), fun s => ⟨?keeps, ?kinds, answers_setResult (readBits_answers _ _ s)⟩⟩
    case keeps =>
      exact (readBits_ends _ _ s).andThen (fun _ h => .of_frame h.only rfl rfl rfl) fun _ _ h =>
        .of_frame (h.setResult _) rfl rfl rfl
    case kinds => exact (readBits_raises _ _ s).andThen fun _ _ => trivial
  | wrbit b =>
    exact ⟨_, funext (exec_wrbit b), fun s =>
      ⟨(writeBit_ends b s).mono fun _ h => .of_errFrame h.only rfl, writeBit_raises b s, writeBit_answers b s⟩⟩
  | wrbits v n =>
    exact ⟨_, funext (exec_wrbits v n), fun s =>
      ⟨(writeAll_ends _ s).mono fun _ h => .of_errFrame h.only rfl, writeAll_raises _ s, writeAll_answers _ s⟩⟩
  | flush =>
    exact ⟨_, funext exec_flush, fun s =>
      ⟨(flushWriter_ends s).mono fun _ h => .of_errFrame h.only rfl, flushWriter_raises s, flushWriter_answers s⟩⟩
  | tser =>
    refine ⟨_, rfl, fun s => ⟨?keeps, requireElse_raises (by decide) ?kinds, requireElse_answers (by decide) ?answers⟩⟩
    case keeps => exact (execTser_writerOnly s).mono fun _ h => .of_errFrame h rfl
    case kinds =>
      exact ((ensureValid_raises s).mono (by decide)).andThen fun _ t => (tserBody_raises t).mono (by decide)
    case answers => exact (ensureValid_answers s).andThen fun _ t => tserBody_answers t
  | tdes =>
    refine ⟨_, rfl, fun s => ⟨?keeps, requireElse_raises (by decide) ?kinds, requireElse_answers (by decide) ?answers⟩⟩
    case keeps => exact (execTdes_only s).mono fun _ h => .of_frame h rfl rfl rfl
    case kinds => exact (tdesBody_kinds s).mono (by decide)
    case answers => exact tdesBody_answers s
  | bldtab =>
    refine ⟨_, funext exec_bldtab, fun s => ⟨?keeps, ?kinds, ?answers⟩⟩
    case keeps => exact (execBldtab_only s).mono fun _ h => .of_frame h rfl rfl rfl
    case kinds => exact (ensureValid_raises s).andThen fun _ t => (bldtabBody_raises t).mono (by decide)
    case answers => exact (ensureValid_answers s).andThen fun _ t => bldtabBody_answers t
  | encsym x =>
    refine ⟨_, rfl, fun s => ⟨?keeps, requireElse_raises ?sequence ?kinds, requireElse_answers (by decide) ?answers⟩⟩
    case keeps => exact requireElse_ends (.refl _ s) ((emitCode_ends x s).mono fun _ h => .of_errFrame h.only rfl)
    case sequence => simp [mayRaise]
    case kinds => exact (emitCode_raises x s).mono (Q := (· ∈ [.ioError, .noCode, .sequenceError])) (by decide)
    case answers => exact emitCode_answers x s
  | compress =>
    refine ⟨_, rfl, fun s => ⟨?keeps, requireElse_raises (by decide) ?kinds, requireElse_answers (by decide) ?answers⟩⟩
    case keeps => exact (execCompress_step s).mono fun _ h => .of_errFrame h.only rfl
    case kinds => exact ((compressBody_raises s).mono (by decide)).onLeave _
    case answers => exact (compressBody_answers s).onLeave fun _ => rfl
  | dec1 =>
    refine ⟨_, funext exec_dec1, fun s => ⟨?keeps, ?kinds, answers_setResult ?answers⟩⟩
    case keeps => exact (execDec1_only s).mono fun _ h => .of_frame h rfl rfl rfl
    case kinds =>
      refine Run.Raises.andThen ?_ fun _ _ => trivial
      exact ((ensureValid_raises s).mono (by decide)).andThen fun _ t => (decodeFrom_raises _ _ t).mono (by decide)
    case answers => exact (ensureValid_answers s).andThen fun _ t => decodeFrom_answers _ _ t
  | decompress =>
    refine ⟨_, rfl, fun s => ⟨?keeps, requireElse_raises (by decide) ?kinds, requireElse_answers (by decide) ?answers⟩⟩
    case keeps => exact (execDecompress_step s).mono fun _ h => .of_frame h.only rfl rfl rfl
    case kinds => exact (decompressBody_raises s).mono (by decide)
    case answers => exact decompressBody_answers s
  | rst => exact absurd rfl hi

/-- Settles O54: outside the fault state a body that reports ends normally with ERR 0, or raises one of its kinds right where
the answers say so; RST makes no access. -/
theorem errorKindsByCommand : Obligations.ErrorKindsByCommand := by
  intro i s t h0 h
  by_cases hi : i = .rst
  · subst hi; cases h; exact .inl ⟨rfl, .refl _⟩
  obtain ⟨body, hexec, hreports⟩ := exec_reports hi
  obtain ⟨hkeeps, hkinds, hanswers⟩ := hreports s
  rw [hexec] at h
  rcases command_next h with ⟨he, _⟩ | ⟨_, hok | ⟨k, u, hraise, rfl⟩⟩
  · exact absurd h0 he
  · rw [hok] at hanswers
    exact .inl ⟨(hkeeps.of_ok hok).err.trans h0, hanswers⟩
  · rw [hraise] at hkinds hanswers
    have hlast : AllSucceeded s.portScript (answersAtRaise k u.portScript) := hanswers
    refine .inr ⟨k, hkinds, u, rfl, faultEntry_err k u, fun hk => ?failed, fun hk => ?succeeded, fun hcmd => ?writer⟩
    case failed => rwa [answersAtRaise, if_pos hk] at hlast
    case succeeded => rwa [answersAtRaise, if_neg hk] at hlast
    case writer =>
      refine (hkeeps.of_raise hraise).writer ?_
      rcases hcmd with rfl | ⟨n, rfl⟩ | rfl | rfl | rfl | rfl <;> rfl

end Sys2Proof.Machine
end
